-- ==== Sys2Proof/Word.lean ====
section
/-! DEFINITION. The words of LDSDK-PFS: the fixed widths of 00_scope R9 and R11, and the ring-buffer element. -/

namespace Sys2Proof

/-- One byte: a wire byte, a byte of a command frame, an instance or channel number, a request-correlation byte. -/
abbrev Byte := BitVec 8

/-- A sample, `i16`: 16 bits, two's complement where its sign is given a meaning (00_scope R9, R11). -/
abbrev Sample := BitVec 16

/-- A `u16`: an item count, a points-per-packet count, a USB frame identifier (00_scope R9, 30_encoding R96). -/
abbrev Half := BitVec 16

/-- A 32-bit tick timestamp (00_scope R9). -/
abbrev Stamp := BitVec 32

/-- An element of a ring buffer: `W_b` bits, a width that differs between instances, so a natural number below
`2 ^ W_b` (10_state R24). The block never computes with it ("it is a pure transport"). -/
abbrev Elem := Nat

/-- The byte width of a `w`-bit element, `ceil(w / 8)` (30_encoding R96). -/
def elemBytes (w : Nat) : Nat := (w + 7) / 8

end Sys2Proof
end

