-- ==== Sys2Proof/Config.lean ====
section
/-! DEFINITION. The implementation parameters of 00_scope R8, the check of 00_scope R10, and the free values: what the
spec leaves to the sink (41_sequencer R145), to unwritten cells (42_data_packet R164) and to the open parameters MAGIC
(decision D5) and BYTE_ORDER (decision D4). -/

namespace Sys2Proof

/-- `BYTE_ORDER`: the byte order of every multi-byte wire field (20_memory R52). -/
inductive ByteOrder where
  | le
  | be
  deriving DecidableEq, Repr, Inhabited

/-- The name of an execution context (00_scope R8 `CTX`, 60_exceptions R211). The deployment has the first two. -/
inductive Ctx where
  | producer
  | consumer
  | other (k : Nat)
  deriving DecidableEq, Repr

/-- The parameters of one ring-buffer instance `b`: `C_b`, `W_b`, `prodOwner(b)`, `consOwner(b)` (00_scope R8). -/
structure RBParams where
  capacity : Nat
  width : Nat
  prodOwner : Ctx
  consOwner : Ctx
  deriving DecidableEq, Repr

/-- The parameters of the block (00_scope R8). `NUM_RB` is the length of `rb`. No command changes any of them. -/
structure Config where
  rb : List RBParams
  ch : Nat
  maxPoints : Nat
  pppReset : Nat
  magic0 : Byte
  magic1 : Byte
  byteOrder : ByteOrder
  ctxs : List Ctx
  deriving DecidableEq, Repr

/-- `NUM_RB` (00_scope R8). -/
def Config.numRB (c : Config) : Nat := c.rb.length

/-- A configuration of this block: the constraints of 00_scope R8 and R10. `W_b ≥ 1` is a constraint of R8's table. -/
abbrev Config.WF (c : Config) : Prop :=
  1 ≤ c.numRB ∧ c.numRB ≤ 256 ∧
  (∀ p ∈ c.rb, 2 ≤ p.capacity ∧ 1 ≤ p.width) ∧
  1 ≤ c.ch ∧ c.ch ≤ 256 ∧
  1 ≤ c.maxPoints ∧ c.maxPoints ≤ 65535 ∧
  1 ≤ c.pppReset ∧ c.pppReset ≤ c.maxPoints

/-- FREE VALUE. The byte sink's answer to the `k`-th sink write that the model draws for it: any number at all. A sink
write takes it cut to the length of the piece, so exactly the values `0..len` occur (41_sequencer R145). -/
opaque Config.sinkDraw : Nat → Nat

/-- FREE VALUE. The 16-bit value transmitted for the `k`-th cell that holds no value (42_data_packet R164, D17). -/
opaque Config.sampleDraw : Nat → Sample

/-- OPEN PARAMETER. The first magic byte `M0` of the configuration after reset; no source gives its value (D5). -/
opaque Config.magicByte0 : Byte

/-- OPEN PARAMETER. The second magic byte `M1` of the configuration after reset; no source gives its value (D5). -/
opaque Config.magicByte1 : Byte

/-- OPEN PARAMETER. The byte order of the configuration after reset; no source names the host (D4). -/
opaque Config.wireOrder : ByteOrder

/-- Configuration `K0` of 95_test_vectors, for any magic bytes and either byte order. -/
def Config.k0 (m0 m1 : Byte) (o : ByteOrder) : Config :=
  { rb := [⟨4, 16, .producer, .consumer⟩, ⟨5, 16, .producer, .consumer⟩]
    ch := 2, maxPoints := 4, pppReset := 1
    magic0 := m0, magic1 := m1, byteOrder := o
    ctxs := [.producer, .consumer] }

/-- The configuration the model's reset state carries: `K0` with its open parameters left open (DESIGN CHOICE, log 1
and 2). Every statement over all states holds for every configuration. -/
def Config.deployment : Config := Config.k0 Config.magicByte0 Config.magicByte1 Config.wireOrder

end Sys2Proof
end

