-- ==== Sys2Proof/Syntax.lean ====
section
/-! DEFINITION. The instructions: one constructor per row of spec/opcode_table.json, the 17 commands of 30_encoding R95
and the 5 wire packets of 30_encoding R81. -/

namespace Sys2Proof

/-- A row of the opcode table with its operands (30_encoding R96 for commands, R82 to R85 for packets). -/
inductive Instr where
  /-- `RB_PUSH b, item` -/
  | rbPush (b : Byte) (item : Elem)
  /-- `RB_PUSHN b, n, [items]`; `n` is the number of items -/
  | rbPushN (b : Byte) (items : List Elem)
  /-- `RB_COUNT b` -/
  | rbCount (b : Byte)
  /-- `RB_SPACE b` -/
  | rbSpace (b : Byte)
  /-- `RB_PEEK b` -/
  | rbPeek (b : Byte)
  /-- `RB_POP b` -/
  | rbPop (b : Byte)
  /-- `RB_SKIP b` -/
  | rbSkip (b : Byte)
  /-- `RB_CLEAR b` -/
  | rbClear (b : Byte)
  /-- `SEQ_RESET` -/
  | seqReset
  /-- `DP_CONFIG n` -/
  | dpConfig (n : Half)
  /-- `DP_RESET` -/
  | dpReset
  /-- `DP_ADD ch, value` -/
  | dpAdd (ch : Byte) (value : Sample)
  /-- `DP_ADVANCE` -/
  | dpAdvance
  /-- `DP_WRITE` -/
  | dpWrite
  /-- `TP_WRITE req, ts` -/
  | tpWrite (req : Byte) (ts : Stamp)
  /-- `FST_WRITE ts` -/
  | fstWrite (ts : Stamp)
  /-- `LUF_WRITE req, ts, frame_id, frame_ts` -/
  | lufWrite (req : Byte) (ts : Stamp) (frameId : Half) (frameTs : Stamp)
  /-- Wire packet `D`: magic bytes `m n`, sequence byte `s`, one point of samples -/
  | pktD (m n s : Byte) (samples : List Sample)
  /-- Wire packet `M`: two or more points of samples, point after point -/
  | pktM (m n s : Byte) (samples : List Sample)
  /-- Wire packet `N` -/
  | pktN (m n s : Byte) (req : Byte) (ts : Stamp)
  /-- Wire packet `F` -/
  | pktF (m n s : Byte) (ts : Stamp)
  /-- Wire packet `L` -/
  | pktL (m n s : Byte) (req : Byte) (ts : Stamp) (frameId : Half) (frameTs : Stamp)
  deriving DecidableEq, Repr

/-- The command opcodes of 30_encoding R95. -/
inductive Opcode where
  | rbPush | rbPushN | rbCount | rbSpace | rbPeek | rbPop | rbSkip | rbClear
  | seqReset | dpConfig | dpReset | dpAdd | dpAdvance | dpWrite
  | tpWrite | fstWrite | lufWrite
  deriving DecidableEq, Repr

/-- The wire type tags of 30_encoding R81. -/
inductive Tag where
  | d | m | n | f | l
  deriving DecidableEq, Repr

/-- The opcode of a command; a wire packet is no command. -/
def Instr.opcode : Instr → Option Opcode
  | .rbPush _ _ => some .rbPush
  | .rbPushN _ _ => some .rbPushN
  | .rbCount _ => some .rbCount
  | .rbSpace _ => some .rbSpace
  | .rbPeek _ => some .rbPeek
  | .rbPop _ => some .rbPop
  | .rbSkip _ => some .rbSkip
  | .rbClear _ => some .rbClear
  | .seqReset => some .seqReset
  | .dpConfig _ => some .dpConfig
  | .dpReset => some .dpReset
  | .dpAdd _ _ => some .dpAdd
  | .dpAdvance => some .dpAdvance
  | .dpWrite => some .dpWrite
  | .tpWrite _ _ => some .tpWrite
  | .fstWrite _ => some .fstWrite
  | .lufWrite _ _ _ _ => some .lufWrite
  | .pktD _ _ _ _ => none
  | .pktM _ _ _ _ => none
  | .pktN _ _ _ _ _ => none
  | .pktF _ _ _ _ => none
  | .pktL _ _ _ _ _ _ _ => none

/-- A row of 30_encoding R95: one of the 17 commands. -/
def Instr.isCommand (i : Instr) : Bool := i.opcode.isSome

/-- The instance a ring-buffer command names (40_ring_buffer). -/
def Instr.instanceNo : Instr → Option Byte
  | .rbPush b _ => some b
  | .rbPushN b _ => some b
  | .rbCount b => some b
  | .rbSpace b => some b
  | .rbPeek b => some b
  | .rbPop b => some b
  | .rbSkip b => some b
  | .rbClear b => some b
  | .seqReset => none
  | .dpConfig _ => none
  | .dpReset => none
  | .dpAdd _ _ => none
  | .dpAdvance => none
  | .dpWrite => none
  | .tpWrite _ _ => none
  | .fstWrite _ => none
  | .lufWrite _ _ _ _ => none
  | .pktD _ _ _ _ => none
  | .pktM _ _ _ _ => none
  | .pktN _ _ _ _ _ => none
  | .pktF _ _ _ _ => none
  | .pktL _ _ _ _ _ _ _ => none

/-- The packet write commands of 10_state R29: they read `SEQ` and advance it. -/
def Instr.isPacketWrite : Instr → Bool
  | .dpWrite => true
  | .tpWrite _ _ => true
  | .fstWrite _ => true
  | .lufWrite _ _ _ _ => true
  | .rbPush _ _ => false
  | .rbPushN _ _ => false
  | .rbCount _ => false
  | .rbSpace _ => false
  | .rbPeek _ => false
  | .rbPop _ => false
  | .rbSkip _ => false
  | .rbClear _ => false
  | .seqReset => false
  | .dpConfig _ => false
  | .dpReset => false
  | .dpAdd _ _ => false
  | .dpAdvance => false
  | .pktD _ _ _ _ => false
  | .pktM _ _ _ _ => false
  | .pktN _ _ _ _ _ => false
  | .pktF _ _ _ _ => false
  | .pktL _ _ _ _ _ _ _ => false

end Sys2Proof
end

