-- ==== Sys2Proof/WellFormed.lean ====
section
/-! DEFINITION. Which instruction terms have an encoding under a configuration (30_encoding R82, R86, R96). -/

namespace Sys2Proof

/-- An item fits instance `b`: it has no bit above bit `W_b - 1` (30_encoding R96). An instance that does not exist has
no width; RB_PUSH and RB_PUSHN on it are commands all the same and raise InstanceOutOfRange (40_ring_buffer R109). -/
def Config.itemFits (c : Config) (b : Byte) (item : Elem) : Bool :=
  match c.rb[b.toNat]? with
  | some p => decide (item < 2 ^ p.width)
  | none => true

/-- The number of points of an `M` packet's payload: its samples over the channels of a point. -/
def Config.pointsOf (c : Config) (samples : List Sample) : Nat := samples.length / c.ch

/-- An instruction has an encoding: items fit, at most 65535 of them (decision D37), a `D` packet holds one point and an
`M` packet `2..MAX_POINTS` whole points (30_encoding R86). -/
def Instr.wellFormed (c : Config) : Instr → Bool
  | .rbPush b item => c.itemFits b item
  | .rbPushN b items => decide (items.length < 65536) && items.all (c.itemFits b)
  | .rbCount _ => true
  | .rbSpace _ => true
  | .rbPeek _ => true
  | .rbPop _ => true
  | .rbSkip _ => true
  | .rbClear _ => true
  | .seqReset => true
  | .dpConfig _ => true
  | .dpReset => true
  | .dpAdd _ _ => true
  | .dpAdvance => true
  | .dpWrite => true
  | .tpWrite _ _ => true
  | .fstWrite _ => true
  | .lufWrite _ _ _ _ => true
  | .pktD _ _ _ samples => decide (samples.length = c.ch)
  | .pktM _ _ _ samples =>
    decide (samples.length = c.pointsOf samples * c.ch) &&
      decide (2 ≤ c.pointsOf samples) && decide (c.pointsOf samples ≤ c.maxPoints)
  | .pktN _ _ _ _ _ => true
  | .pktF _ _ _ _ => true
  | .pktL _ _ _ _ _ _ _ => true

end Sys2Proof
end

