-- ==== Sys2Proof/Decode.lean ====
section
/-! DEFINITION. The decoder of command frames (30_encoding R95, R96, R98), the decoder of wire packets a receiver uses
(30_encoding R80 to R88), the encoder of both, and the host's table words. -/

namespace Sys2Proof

/-! ## Byte order -/

/-- The number a little-endian byte sequence spells. -/
def leVal : List Byte → Nat
  | [] => 0
  | b :: bs => b.toNat + 256 * leVal bs

/-- `k` little-endian bytes of a number. -/
def leBytes : Nat → Nat → List Byte
  | 0, _ => []
  | k + 1, v => BitVec.ofNat 8 v :: leBytes k (v / 256)

/-- `enc(v, n)` of 00_scope R13: the `n`-byte encoding of a value under a byte order. -/
def enc (o : ByteOrder) {w : Nat} (v : BitVec w) (n : Nat) : List Byte :=
  (List.range n).map fun k =>
    match o with
    | .le => v.extractLsb' (8 * k) 8
    | .be => v.extractLsb' (8 * (n - 1 - k)) 8

/-- What a receiver reads from the bytes of a field: the inverse of `enc`. -/
def dec (o : ByteOrder) (w : Nat) (bs : List Byte) : BitVec w :=
  match o with
  | .le => BitVec.ofNat w (leVal bs)
  | .be => BitVec.ofNat w (leVal bs.reverse)

/-! ## Opcodes and tags -/

/-- Byte 0 of a command frame (30_encoding R95). -/
def Opcode.byte : Opcode → Byte
  | .rbPush => 0x01#8
  | .rbPushN => 0x02#8
  | .rbCount => 0x03#8
  | .rbSpace => 0x04#8
  | .rbPeek => 0x05#8
  | .rbPop => 0x06#8
  | .rbSkip => 0x07#8
  | .rbClear => 0x08#8
  | .seqReset => 0x10#8
  | .dpConfig => 0x20#8
  | .dpReset => 0x21#8
  | .dpAdd => 0x22#8
  | .dpAdvance => 0x23#8
  | .dpWrite => 0x24#8
  | .tpWrite => 0x30#8
  | .fstWrite => 0x31#8
  | .lufWrite => 0x32#8

/-- The rows of 30_encoding R95. -/
def Opcode.all : List Opcode :=
  [.rbPush, .rbPushN, .rbCount, .rbSpace, .rbPeek, .rbPop, .rbSkip, .rbClear,
   .seqReset, .dpConfig, .dpReset, .dpAdd, .dpAdvance, .dpWrite, .tpWrite, .fstWrite, .lufWrite]

/-- The command an opcode byte names; `none` is a reserved value (30_encoding R98). -/
def opcode? (x : Byte) : Option Opcode := Opcode.all.find? fun o => o.byte == x

/-- The tag byte, offset 2 of a packet: the ASCII code of the tag's character (30_encoding R81; PRESUMED by the spec
itself, decision D6, log 19). -/
def Tag.byte : Tag → Byte
  | .d => 0x44#8
  | .m => 0x4D#8
  | .n => 0x4E#8
  | .f => 0x46#8
  | .l => 0x4C#8

/-- The five tags of 30_encoding R81. -/
def Tag.all : List Tag := [.d, .m, .n, .f, .l]

/-- The tag a byte at offset 2 names; the block emits no other (30_encoding R89). -/
def tag? (x : Byte) : Option Tag := Tag.all.find? fun t => t.byte == x

/-! ## Command frames -/

/-- What a command frame spells: a command, a reserved opcode (30_encoding R98), or nothing (an ill-formed frame, R96). -/
inductive Decoded where
  | instr (i : Instr)
  | reserved (op : Byte)
  | illFormed
  deriving DecidableEq, Repr

/-- The items of an FBN frame: `n` items of `e` bytes each (30_encoding R96). -/
def splitItems (e : Nat) : Nat → List Byte → List Elem
  | 0, _ => []
  | n + 1, bs => leVal (bs.take e) :: splitItems e n (bs.drop e)

/-- The byte width `E` of the items in `n` items of total length `len` for instance `b`: `E_b` where the instance exists;
where it does not, the width the frame's own length gives, if one does (DESIGN CHOICE, log 9). -/
def Config.itemBytesIn (c : Config) (b : Byte) (n len : Nat) : Nat :=
  match c.rb[b.toNat]? with
  | some p => elemBytes p.width
  | none => max 1 (len / n)

/-- Operand part of format F0: nothing. -/
def decodeF0 (i : Instr) : List Byte → Decoded
  | [] => .instr i
  | _ :: _ => .illFormed

/-- Operand part of format FB: the instance number. -/
def decodeFB (mk : Byte → Instr) : List Byte → Decoded
  | [b] => .instr (mk b)
  | _ => .illFormed

/-- Operand part of format FBI: the instance number and one item of `E_b` bytes with no bit above bit `W_b - 1`. -/
def decodeFBI (c : Config) : List Byte → Decoded
  | b :: tail =>
    if tail.length = c.itemBytesIn b 1 tail.length ∧ c.itemFits b (leVal tail) then
      .instr (.rbPush b (leVal tail))
    else .illFormed
  | [] => .illFormed

/-- Operand part of format FBN: the instance number, the count `n` as a little-endian u16, and `n` items. -/
def decodeFBN (c : Config) : List Byte → Decoded
  | b :: n0 :: n1 :: tail =>
    let n := leVal [n0, n1]
    let e := c.itemBytesIn b n tail.length
    if tail.length = n * e ∧ (splitItems e n tail).all (c.itemFits b) then
      .instr (.rbPushN b (splitItems e n tail))
    else .illFormed
  | _ => .illFormed

/-- Operand part of format FN: a little-endian u16. -/
def decodeFN : List Byte → Decoded
  | [n0, n1] => .instr (.dpConfig (dec .le 16 [n0, n1]))
  | _ => .illFormed

/-- Operand part of format FCV: the channel and a little-endian i16. -/
def decodeFCV : List Byte → Decoded
  | [ch, v0, v1] => .instr (.dpAdd ch (dec .le 16 [v0, v1]))
  | _ => .illFormed

/-- Operand part of format FT: the request byte and a little-endian u32. -/
def decodeFT : List Byte → Decoded
  | [req, t0, t1, t2, t3] => .instr (.tpWrite req (dec .le 32 [t0, t1, t2, t3]))
  | _ => .illFormed

/-- Operand part of format FF: a little-endian u32. -/
def decodeFF : List Byte → Decoded
  | [t0, t1, t2, t3] => .instr (.fstWrite (dec .le 32 [t0, t1, t2, t3]))
  | _ => .illFormed

/-- Operand part of format FL: the request byte, a u32, a u16 and a u32, all little-endian. -/
def decodeFL : List Byte → Decoded
  | [req, t0, t1, t2, t3, i0, i1, u0, u1, u2, u3] =>
    .instr (.lufWrite req (dec .le 32 [t0, t1, t2, t3]) (dec .le 16 [i0, i1]) (dec .le 32 [u0, u1, u2, u3]))
  | _ => .illFormed

/-- The operand bytes of a command, by the format its row of 30_encoding R95 names. -/
def decodeOperands (c : Config) : Opcode → List Byte → Decoded
  | .rbPush => decodeFBI c
  | .rbPushN => decodeFBN c
  | .rbCount => decodeFB .rbCount
  | .rbSpace => decodeFB .rbSpace
  | .rbPeek => decodeFB .rbPeek
  | .rbPop => decodeFB .rbPop
  | .rbSkip => decodeFB .rbSkip
  | .rbClear => decodeFB .rbClear
  | .seqReset => decodeF0 .seqReset
  | .dpConfig => decodeFN
  | .dpReset => decodeF0 .dpReset
  | .dpAdd => decodeFCV
  | .dpAdvance => decodeF0 .dpAdvance
  | .dpWrite => decodeF0 .dpWrite
  | .tpWrite => decodeFT
  | .fstWrite => decodeFF
  | .lufWrite => decodeFL

/-- The decoder of command frames, total on any bytes (30_encoding R95, R96, R98). A reserved opcode is reserved
whatever follows it (DEDUCED, log 11); a frame with no opcode byte spells nothing. -/
def decodeFrame (c : Config) : List Byte → Decoded
  | [] => .illFormed
  | x :: rest =>
    match opcode? x with
    | none => .reserved x
    | some op => decodeOperands c op rest

/-! ## Wire packets, read by a receiver -/

/-- The samples of a `D` or `M` payload, in payload order. -/
def decodeSamples (o : ByteOrder) : Nat → List Byte → List Sample
  | 0, _ => []
  | n + 1, bs => dec o 16 (bs.take 2) :: decodeSamples o n (bs.drop 2)

/-- The payload of a packet of one tag, of exactly the length 30_encoding R86 gives it. `ppp` is the receiver's
out-of-band knowledge of the points per packet, used for tag `M` only (R88). -/
def decodePayload (c : Config) (ppp : Nat) (m n s : Byte) (t : Tag) (p : List Byte) : Option Instr :=
  match t with
  | .d => if p.length = 2 * c.ch then some (.pktD m n s (decodeSamples c.byteOrder c.ch p)) else none
  | .m =>
    if 2 ≤ ppp ∧ ppp ≤ c.maxPoints ∧ p.length = 2 * (ppp * c.ch) then
      some (.pktM m n s (decodeSamples c.byteOrder (ppp * c.ch) p))
    else none
  | .n =>
    match p with
    | [q, t0, t1, t2, t3] => some (.pktN m n s q (dec c.byteOrder 32 [t0, t1, t2, t3]))
    | _ => none
  | .f =>
    match p with
    | [t0, t1, t2, t3] => some (.pktF m n s (dec c.byteOrder 32 [t0, t1, t2, t3]))
    | _ => none
  | .l =>
    match p with
    | [q, t0, t1, t2, t3, i0, i1, u0, u1, u2, u3] =>
      some (.pktL m n s q (dec c.byteOrder 32 [t0, t1, t2, t3]) (dec c.byteOrder 16 [i0, i1])
        (dec c.byteOrder 32 [u0, u1, u2, u3]))
    | _ => none

/-- The bytes of one packet, as a receiver reads them (30_encoding R80, R88): two magic bytes, the tag, the sequence
byte, the payload. The magic bytes are fields of the row; the receiver compares them with MAGIC when it runs. -/
def decodePacket (c : Config) (ppp : Nat) : List Byte → Option Instr
  | m :: n :: t :: s :: payload =>
    match tag? t with
    | some tag => decodePayload c ppp m n s tag payload
    | none => none
  | _ => none

/-! ## The encoder -/

/-- The bytes a number takes, at least one. -/
def byteLen (v : Nat) : Nat := v.log2 / 8 + 1

/-- The item width an encoder uses for instance `b`: `E_b`; for an instance that does not exist, the least width that
holds every item (DESIGN CHOICE, log 9). -/
def Config.itemBytesOut (c : Config) (b : Byte) (items : List Elem) : Nat :=
  match c.rb[b.toNat]? with
  | some p => elemBytes p.width
  | none => (items.map byteLen).foldr max 1

/-- The samples of a payload in payload order (30_encoding R82). -/
def encSamples (o : ByteOrder) (samples : List Sample) : List Byte := samples.flatMap fun v => enc o v 2

/-- The bytes of a packet's header (41_sequencer R142). -/
def headerBytes (m n : Byte) (t : Tag) (s : Byte) : List Byte := [m, n, t.byte, s]

/-- The bytes of an instruction: a command frame (30_encoding R95, R96) or a wire packet (R80 to R85). -/
def encode (c : Config) : Instr → List Byte
  | .rbPush b item => Opcode.rbPush.byte :: b :: leBytes (c.itemBytesOut b [item]) item
  | .rbPushN b items =>
    Opcode.rbPushN.byte :: b :: (leBytes 2 items.length ++ items.flatMap (leBytes (c.itemBytesOut b items)))
  | .rbCount b => [Opcode.rbCount.byte, b]
  | .rbSpace b => [Opcode.rbSpace.byte, b]
  | .rbPeek b => [Opcode.rbPeek.byte, b]
  | .rbPop b => [Opcode.rbPop.byte, b]
  | .rbSkip b => [Opcode.rbSkip.byte, b]
  | .rbClear b => [Opcode.rbClear.byte, b]
  | .seqReset => [Opcode.seqReset.byte]
  | .dpConfig n => Opcode.dpConfig.byte :: enc .le n 2
  | .dpReset => [Opcode.dpReset.byte]
  | .dpAdd ch v => Opcode.dpAdd.byte :: ch :: enc .le v 2
  | .dpAdvance => [Opcode.dpAdvance.byte]
  | .dpWrite => [Opcode.dpWrite.byte]
  | .tpWrite req ts => Opcode.tpWrite.byte :: req :: enc .le ts 4
  | .fstWrite ts => Opcode.fstWrite.byte :: enc .le ts 4
  | .lufWrite req ts fid fts => Opcode.lufWrite.byte :: req :: (enc .le ts 4 ++ enc .le fid 2 ++ enc .le fts 4)
  | .pktD m n s samples => headerBytes m n .d s ++ encSamples c.byteOrder samples
  | .pktM m n s samples => headerBytes m n .m s ++ encSamples c.byteOrder samples
  | .pktN m n s req ts => headerBytes m n .n s ++ (req :: enc c.byteOrder ts 4)
  | .pktF m n s ts => headerBytes m n .f s ++ enc c.byteOrder ts 4
  | .pktL m n s req ts fid fts =>
    headerBytes m n .l s ++ (req :: (enc c.byteOrder ts 4 ++ enc c.byteOrder fid 2 ++ enc c.byteOrder fts 4))

/-- The length of a command's frame by its format (30_encoding R96), for an instance that exists. -/
def frameLength (c : Config) : Instr → Nat
  | .rbPush b item => 2 + c.itemBytesOut b [item]
  | .rbPushN b items => 4 + items.length * c.itemBytesOut b items
  | .rbCount _ => 2
  | .rbSpace _ => 2
  | .rbPeek _ => 2
  | .rbPop _ => 2
  | .rbSkip _ => 2
  | .rbClear _ => 2
  | .seqReset => 1
  | .dpConfig _ => 3
  | .dpReset => 1
  | .dpAdd _ _ => 4
  | .dpAdvance => 1
  | .dpWrite => 1
  | .tpWrite _ _ => 6
  | .fstWrite _ => 5
  | .lufWrite _ _ _ _ => 12
  | .pktD _ _ _ samples => 4 + 2 * samples.length
  | .pktM _ _ _ samples => 4 + 2 * samples.length
  | .pktN _ _ _ _ _ => 9
  | .pktF _ _ _ _ => 8
  | .pktL _ _ _ _ _ _ _ => 15

/-! ## The host's table words -/

/-- Where the bytes of a table word go: to the command port, or to a receiver with the points per packet it knows. -/
inductive Placed where
  | frame (bytes : List Byte)
  | packet (ppp : Nat) (bytes : List Byte)
  deriving DecidableEq, Repr

/-- Extend bytes with zeros to a length. -/
def padTo (len : Nat) (bs : List Byte) : List Byte := bs ++ List.replicate (len - bs.length) 0#8

/-- The length of the command frame that starts with these bytes, operand bytes not given being 0. -/
def framedLength (c : Config) (bs : List Byte) : Nat :=
  match opcode? (bs.getD 0 0#8) with
  | none => 1
  | some .rbPush => 2 + c.itemBytesIn (bs.getD 1 0#8) 1 1
  | some .rbPushN =>
    let n := leVal [bs.getD 2 0#8, bs.getD 3 0#8]
    4 + n * c.itemBytesIn (bs.getD 1 0#8) n n
  | some .rbCount => 2
  | some .rbSpace => 2
  | some .rbPeek => 2
  | some .rbPop => 2
  | some .rbSkip => 2
  | some .rbClear => 2
  | some .seqReset => 1
  | some .dpConfig => 3
  | some .dpReset => 1
  | some .dpAdd => 4
  | some .dpAdvance => 1
  | some .dpWrite => 1
  | some .tpWrite => 6
  | some .fstWrite => 5
  | some .lufWrite => 12

/-- The points per packet a table word's `M` packet is given: the least an `M` packet can have. -/
def tablePoints : Nat := 2

/-- The length of a packet of a tag (30_encoding R86), an `M` packet having `tablePoints` points. -/
def packetLength (c : Config) : Tag → Nat
  | .d => 4 + 2 * c.ch
  | .m => 4 + 2 * (tablePoints * c.ch)
  | .n => 9
  | .f => 8
  | .l => 15

/-- The bytes of a table word laid out as the hardware stores them. A command row numbers the bytes of its frame from the
first byte up. A WIRE row is ONE 32-bit word, the four header bytes with the first byte leftmost (the table's
"encoding_note"), so its byte 2, the tag, is bits 15 to 8. Everything not given is 0. -/
def placeTableWord (c : Config) (nbits w : Nat) : Placed :=
  match if nbits = 32 then tag? (BitVec.ofNat 8 (w / 256)) else none with
  | some t =>
    .packet tablePoints (padTo (packetLength c t)
      [BitVec.ofNat 8 (w / 16777216), BitVec.ofNat 8 (w / 65536), BitVec.ofNat 8 (w / 256), BitVec.ofNat 8 w])
  | none =>
    let bs := leBytes (max 1 (nbits / 8)) w
    .frame (padTo (framedLength c bs) bs)

/-- The instruction the decoder reads from a table word, under the configuration of the reset state. -/
def decodeTableWord (nbits w : Nat) : Option Instr :=
  match placeTableWord Config.deployment nbits w with
  | .frame bs =>
    match decodeFrame Config.deployment bs with
    | .instr i => some i
    | .reserved _ => none
    | .illFormed => none
  | .packet ppp bs => decodePacket Config.deployment ppp bs

end Sys2Proof
end

