-- ==== Sys2Proof/Machine/State.lean ====
section
/-! DEFINITION. The state of LDSDK-PFS: the registers and storage of 10_state, its observable output, the model-only
FAULTS, the command port with its pending requests, the answers of the environment; and the state after reset. -/

namespace Sys2Proof.Machine

/-! ## Storage -/

/-- A storage space: the cells that hold a value, as (index, value) pairs in one canonical form, indices strictly rising.
An index that is not listed holds no value (`⊥`, 00_scope R12). -/
abbrev Memory (α : Type) := List (Nat × α)

/-- One ring-buffer instance `RB[b]`: `STORE`, `WR`, `RD` (10_state R24, R25, R26). -/
structure RB where
  wr : Nat
  rd : Nat
  store : Memory Elem
  deriving DecidableEq, Repr

/-- An instance after whole-block reset (70_reset R231). -/
def RB.initial : RB := { wr := 0, rd := 0, store := [] }

/-- `DP.STATE`, the DataPacket lifecycle (10_state R33). -/
inductive DPState where
  | empty
  | filling
  | ready
  | written
  deriving DecidableEq, Repr

/-! ## Fault records -/

/-- The fault kinds of 60_exceptions R204, codes 1 to 10. They are records of the spec's FAULTS, not machine stops. -/
inductive FaultKind where
  | illegalCommand
  | instanceOutOfRange
  | ownershipViolation
  | configOutOfRange
  | channelOutOfRange
  | pointOverflow
  | writeEmpty
  | packetReuse
  | undefinedSample
  | emptyRead
  deriving DecidableEq, Repr

/-- The information a fault records, as 60_exceptions R204 names it for each kind. -/
inductive FaultInfo where
  | none
  | opcode (x : Byte)
  | inst (b : Byte)
  | instCtx (b : Byte) (ctx : Ctx)
  | count (n : Half)
  | channel (ch : Byte)
  | cell (p c : Nat)
  deriving DecidableEq, Repr

/-- A fault record `(kind, op, ctx, info)` (60_exceptions R203). -/
structure FaultRecord where
  kind : FaultKind
  op : Byte
  ctx : Ctx
  info : FaultInfo
  deriving DecidableEq, Repr

/-! ## Requests and responses -/

/-- The response of a command (30_encoding R97). -/
inductive Response where
  /-- RB_COUNT, RB_SPACE: an integer -/
  | count (n : Nat)
  /-- RB_PUSH, RB_SKIP, DP_ADD: a success flag -/
  | ok (b : Bool)
  /-- RB_PUSHN: the number of items pushed -/
  | pushed (k : Nat)
  /-- RB_PEEK, RB_POP: the pair `(ok, data)` -/
  | item (ok : Bool) (data : Option Elem)
  /-- an acknowledgement carrying no value -/
  | ack
  /-- a packet write: the bytes the sink accepted -/
  | total (n : Nat)
  /-- a stopped command: a response carrying no value (40_ring_buffer R109) -/
  | noValue
  deriving DecidableEq, Repr

/-- A response as the issuing context receives it: to whom, for which opcode byte and instance. -/
structure Reply where
  ctx : Ctx
  op : Byte
  inst : Option Byte
  resp : Response
  deriving DecidableEq, Repr

/-- What the outside world puts before the block, one step each (INVENTORY, Host interface). -/
inductive Request where
  /-- a command frame with the identity of its context (30_encoding R94) -/
  | command (ctx : Ctx) (frame : List Byte)
  /-- a whole-block reset (70_reset R230) -/
  | reset
  /-- a context uses the data of its last RB_PEEK or RB_POP on `b` (60_exceptions R204, code 10) -/
  | useData (ctx : Ctx) (b : Byte)
  /-- the bytes of one packet before the receiver, which knows the points per packet (30_encoding R88) -/
  | packet (ppp : Nat) (bytes : List Byte)
  deriving DecidableEq, Repr

/-! ## The state -/

/-- Everything the spec gives the machine (10_state R34 to R37), its parameters, and what the environment holds for it.
INVENTORY.md, State, gives each field's rule and reset value. -/
structure State where
  /-- the parameters of 00_scope R8; no step changes them -/
  cfg : Config
  /-- `RB[0] .. RB[NUM_RB-1]` -/
  rbs : List RB
  /-- `SEQ` -/
  seq : Byte
  /-- `DP.S`, cell `(p, c)` at index `p * CH + c` -/
  dpS : Memory Sample
  /-- `DP.PPP` -/
  dpPPP : Nat
  /-- `DP.IDX` -/
  dpIDX : Nat
  /-- `DP.STATE` -/
  dpSTATE : DPState
  /-- `OUT`, the bytes the sink has accepted, in order -/
  out : List Byte
  /-- `FAULTS`: a set, in the order of insertion and without repeats -/
  faults : List FaultRecord
  /-- the responses given so far, in order (60_exceptions R214) -/
  replies : List Reply
  /-- the requests not yet taken, in the total order of 20_memory R61 -/
  port : List Request
  /-- the context of the command being executed (30_encoding R94) -/
  ctx : Ctx
  /-- the sink's coming answers; when they run out the free value answers (41_sequencer R145) -/
  sink : List Nat
  /-- how many answers of the free value `Config.sinkDraw` have been taken -/
  sinkDraws : Nat
  /-- how many values of the free value `Config.sampleDraw` have been taken -/
  sampleDraws : Nat
  /-- the receiver's `s_prev`: the sequence byte of the packet it decoded last (41_sequencer R150) -/
  rxSeq : Option Byte
  /-- the gaps the receiver has concluded, in order, each modulo 256 (41_sequencer R150) -/
  rxGaps : List Byte
  deriving DecidableEq, Repr

/-- What a run is observed to be at its end: the responses in order, the final state of 10_state, `OUT`, and `FAULTS`
(60_exceptions R214). -/
structure Observation where
  replies : List Reply
  rbs : List RB
  seq : Byte
  dpS : Memory Sample
  dpPPP : Nat
  dpIDX : Nat
  dpSTATE : DPState
  out : List Byte
  faults : List FaultRecord
  deriving DecidableEq, Repr

/-- Why the machine stops with a fault. The spec's own faults are records of FAULTS and stop nothing (60_exceptions
R202). -/
inductive Fault where
  /-- An access to a storage index outside its space (20_memory R50). Raised by RB_PUSH, RB_PUSHN, RB_PEEK, RB_POP,
  DP_ADD, DP_WRITE in states whose cursors, point index or points per packet are out of their legal range, which no run
  reaches. Safe: the model stops. -/
  | noSuchCell
  deriving DecidableEq, Repr

/-- Why the machine has no meaning for what is asked of it. -/
inductive Refusal where
  /-- Raised by an arm of exec whose instruction has no meaning yet; none is left. Safe: the model stops. -/
  | notModelled (mnemonic : String)
  /-- Raised by step: the frame is ill-formed and spells no command, "a decoder refuses it" (30_encoding R96). Safe. -/
  | illFormedFrame
  /-- Raised by step: the parameters are not a configuration of this block, "a model refuses it before any step"
  (00_scope R10). Safe. -/
  | notAConfiguration
  /-- Raised by step: the issuing context is not in `CTX` (30_encoding R94). Safe. -/
  | notAContext
  deriving DecidableEq, Repr

/-- The state after whole-block reset (70_reset R231) of a block with parameters `c` that has not run yet: OUT and FAULTS
have their initial values (10_state R35, R36). -/
def State.resetOf (c : Config) : State :=
  { cfg := c
    rbs := c.rb.map fun _ => RB.initial
    seq := 0
    dpS := []
    dpPPP := c.pppReset
    dpIDX := 0
    dpSTATE := .empty
    out := []
    faults := []
    replies := []
    port := []
    ctx := .producer
    sink := []
    sinkDraws := 0
    sampleDraws := 0
    rxSeq := none
    rxGaps := [] }

/-- The machine right after reset, under the configuration of log 1 and 2. -/
def State.reset : State := State.resetOf Config.deployment

end Sys2Proof.Machine
end

