-- ==== Sys2Proof/Machine/Operands.lean ====
section
/-! DEFINITION. What a command computes its operands and indices with: cursor arithmetic modulo the capacity (10_state
R27, 20_memory R51), the cell order of a DataPacket payload (30_encoding R82), the fields of time packets (43_time R193). -/

namespace Sys2Proof.Machine

/-- `count(b) = (WR - RD) mod C`, the mathematical remainder (10_state R27, 00_scope R11). -/
def occupied (capacity : Nat) (r : RB) : Nat := (((r.wr : Int) - (r.rd : Int)) % (capacity : Int)).toNat

/-- `space(b) = (C - 1) - count(b)` (10_state R27). -/
def freeSlots (capacity : Nat) (r : RB) : Nat := (capacity - 1) - occupied capacity r

/-- The slot `k` places after slot `i` (20_memory R51). -/
def slotAfter (capacity i k : Nat) : Nat := (i + k) % capacity

/-- The index of cell `(p, c)` of `DP.S`. -/
def dpIndex (ch p c : Nat) : Nat := p * ch + c

/-- The cells a `D` or `M` payload transmits, in payload order: all channels of point 0 in channel order, then all
channels of point 1, and so on (30_encoding R82, 42_data_packet R164). -/
def payloadCells (points ch : Nat) : List (Nat × Nat) :=
  (List.range points).flatMap fun p => (List.range ch).map fun c => (p, c)

/-- `BaseTimeFields(req, ts)` (43_time R193). -/
def baseTimeFields (o : ByteOrder) (req : Byte) (ts : Stamp) : List (List Byte) := [[req], enc o ts 4]

/-- The four header bytes as the pieces of 41_sequencer R144: the magic pair, the tag, the sequence byte. -/
def headerPieces (c : Config) (t : Tag) (s : Byte) : List (List Byte) := [[c.magic0, c.magic1], [t.byte], [s]]

end Sys2Proof.Machine
end

