-- ==== Sys2Proof/Machine/Flags.lean ====
section
/-! DEFINITION. The conditions results and states are computed from. The block keeps no flags (10_state R22): a success
flag is part of a response and is not stored. -/

namespace Sys2Proof.Machine

/-- The buffer is full: `space() = 0`, the condition RB_PUSH fails on (40_ring_buffer R112). -/
def isFull (capacity : Nat) (r : RB) : Bool := occupied capacity r == capacity - 1

/-- The buffer is empty: `WR = RD` (10_state R27), the condition RB_PEEK, RB_POP and RB_SKIP fail on. -/
def isEmpty (r : RB) : Bool := r.wr == r.rd

/-- The new `DP.STATE` of `UpdateState()` (42_data_packet R159). -/
def fillState (old : DPState) (idx ppp : Nat) : DPState :=
  if old = .written then .written else if ppp ≤ idx then .ready else .filling

/-- The tag of a DataPacket of `n` points (42_data_packet R164). -/
def dataTag (n : Nat) : Tag := if n = 1 then .d else .m

/-- The gap a receiver concludes between the packet it decoded last and this one: `(s - s_prev - 1) mod 256`
(41_sequencer R150). -/
def sequenceGap (prev s : Byte) : Byte := s - prev - 1

end Sys2Proof.Machine
end

