-- ==== Sys2Proof/Machine/Ops.lean ====
section
/-! DEFINITION. The operations over storage, registers, FAULTS, responses and the byte sink, and the packet write. The
block takes no exceptions (60_exceptions R200, R207): recording a fault is the one operation of that kind, and there is
nothing to return from. -/

namespace Sys2Proof.Machine

/-! ## Storage: `MemRead`, `MemWrite` (00_scope R12) -/

/-- The canonical form: indices strictly rising. No entry can equal what an unlisted index holds, which is no value. -/
abbrev Memory.wf {α : Type} (m : Memory α) : Prop := (m.map Prod.fst).Pairwise (· < ·)

/-- The content of a cell; `none` is `⊥`. -/
def Memory.read {α : Type} : Memory α → Nat → Option α
  | [], _ => none
  | (j, v) :: m, i => if i = j then some v else Memory.read m i

/-- Store a value in a cell, keeping the canonical form. -/
def Memory.write {α : Type} : Memory α → Nat → α → Memory α
  | [], i, v => [(i, v)]
  | (j, u) :: m, i, v =>
    if i < j then (i, v) :: (j, u) :: m
    else if i = j then (i, v) :: m
    else (j, u) :: Memory.write m i v

/-! ## Ring-buffer instances -/

/-- The parameters of instance `b`; only asked for an instance that exists. -/
def State.par (s : State) (b : Nat) : RBParams := s.cfg.rb.getD b ⟨2, 1, .producer, .consumer⟩

/-- The registers and storage of instance `b`; only asked for an instance that exists. -/
def State.rb (s : State) (b : Nat) : RB := s.rbs.getD b RB.initial

/-- Replace instance `b`, no other (10_state R23). -/
def State.setRb (s : State) (b : Nat) (r : RB) : State := { s with rbs := s.rbs.set b r }

/-- `MemRead(STORE, i)`: `none` where the slot does not exist, else its content. -/
def storeRead (p : RBParams) (r : RB) (i : Nat) : Option (Option Elem) :=
  if i < p.capacity then some (r.store.read i) else none

/-- `MemWrite(STORE, i, item)`: `none` where the slot does not exist. A slot holds `W_b` bits. -/
def storeWrite (p : RBParams) (r : RB) (i : Nat) (item : Elem) : Option RB :=
  if i < p.capacity then some { r with store := r.store.write i (item % 2 ^ p.width) } else none

/-- Store items in consecutive slots from `i` on: one contiguous range of 40_ring_buffer R113. -/
def storeRange (p : RBParams) (r : RB) : Nat → List Elem → Option RB
  | _, [] => some r
  | i, item :: items =>
    match storeWrite p r i item with
    | some r1 => storeRange p r1 (i + 1) items
    | none => none

/-! ## FAULTS and responses -/

/-- `raise Fault(kind, info)`: add the record to the set FAULTS (60_exceptions R203, 10_state R36). -/
def State.raise (s : State) (kind : FaultKind) (op : Byte) (info : FaultInfo) : State :=
  { s with faults :=
      if (⟨kind, op, s.ctx, info⟩ : FaultRecord) ∈ s.faults then s.faults else s.faults ++ [⟨kind, op, s.ctx, info⟩] }

/-- Return a response to the issuing context (30_encoding R97). -/
def State.reply (s : State) (op : Byte) (inst : Option Byte) (r : Response) : State :=
  { s with replies := s.replies ++ [⟨s.ctx, op, inst, r⟩] }

/-- A fault that stops its command: the record, a response carrying no value, nothing else (60_exceptions R204). -/
def State.stop (s : State) (kind : FaultKind) (op : Byte) (inst : Option Byte) (info : FaultInfo) : State :=
  (s.raise kind op info).reply op inst .noValue

/-- The role a ring-buffer command requires (30_encoding R95). -/
inductive Role where
  | any
  | producer
  | consumer
  deriving DecidableEq, Repr

/-- The context has the role on an instance with these parameters (60_exceptions R210). -/
def Role.allows (role : Role) (p : RBParams) (ctx : Ctx) : Bool :=
  match role with
  | .any => true
  | .producer => decide (ctx = p.prodOwner)
  | .consumer => decide (ctx = p.consOwner)

/-- The role an opcode requires (30_encoding R95). -/
def Opcode.role : Opcode → Role
  | .rbPush => .producer
  | .rbPushN => .producer
  | .rbPeek => .consumer
  | .rbPop => .consumer
  | .rbSkip => .consumer
  | .rbClear => .consumer
  | .rbCount => .any
  | .rbSpace => .any
  | .seqReset => .any
  | .dpConfig => .any
  | .dpReset => .any
  | .dpAdd => .any
  | .dpAdvance => .any
  | .dpWrite => .any
  | .tpWrite => .any
  | .fstWrite => .any
  | .lufWrite => .any

/-- `RBCheck(op, b, ctx)` (40_ring_buffer R109): the fault that stops the command, or `none`. -/
def State.rbCheck (s : State) (op : Opcode) (b : Byte) : Option (FaultKind × FaultInfo) :=
  if s.cfg.numRB ≤ b.toNat then some (.instanceOutOfRange, .inst b)
  else if (Opcode.role op).allows (s.par b.toNat) s.ctx then none
  else some (.ownershipViolation, .instCtx b s.ctx)

/-! ## DataPacket storage -/

/-- `MemRead(DP.S, (p, c))`: the content of a cell, `none` where nothing has written it. -/
def State.dpRead (s : State) (p c : Nat) : Option Sample := Memory.read s.dpS (dpIndex s.cfg.ch p c)

/-- The cell exists: `p` in `0..MAX_POINTS-1`, `c` in `0..CH-1` (10_state R30). -/
def Config.hasCell (c : Config) (p ch : Nat) : Bool := decide (p < c.maxPoints) && decide (ch < c.ch)

/-- `MemWrite(DP.S, (p, c), v)`: `none` where the cell does not exist. -/
def State.dpStore (s : State) (p c : Nat) (v : Sample) : Option State :=
  if Config.hasCell s.cfg p c then some { s with dpS := Memory.write s.dpS (dpIndex s.cfg.ch p c) v } else none

/-- `UpdateState()` (42_data_packet R159). -/
def State.updateState (s : State) : State := { s with dpSTATE := fillState s.dpSTATE s.dpIDX s.dpPPP }

/-- The payload of DP_WRITE over these cells: each cell's `enc(v, 2)`; a cell without a value records UndefinedSample
and transmits a draw (42_data_packet R164). -/
def State.payload (s : State) (op : Byte) : List (Nat × Nat) → List Byte × State
  | [] => ([], s)
  | (p, c) :: cells =>
    match s.dpRead p c with
    | some v =>
      let rest := s.payload op cells
      (enc s.cfg.byteOrder v 2 ++ rest.1, rest.2)
    | none =>
      let s1 := { s.raise .undefinedSample op (.cell p c) with sampleDraws := s.sampleDraws + 1 }
      let rest := s1.payload op cells
      (enc s.cfg.byteOrder (Config.sampleDraw s.sampleDraws) 2 ++ rest.1, rest.2)

/-! ## The byte sink and the packet write -/

/-- The sink's answer to one write of `len` bytes, a number in `0..len`, and the state after it: the next answer the
environment holds ready, else the free value (41_sequencer R145). -/
def State.sinkAnswer (s : State) (len : Nat) : Nat × State :=
  match s.sink with
  | a :: rest => (min a len, { s with sink := rest })
  | [] => (min (Config.sinkDraw s.sinkDraws) len, { s with sinkDraws := s.sinkDraws + 1 })

/-- `SinkWrite(piece)`: the accepted prefix is appended to OUT; the accepted count is returned (41_sequencer R145). -/
def State.sinkWrite (s : State) (piece : List Byte) : Nat × State :=
  let a := s.sinkAnswer piece.length
  (a.1, { a.2 with out := s.out ++ piece.take a.1 })

/-- Offer every piece to the sink, whatever it accepted of the pieces before; the sum of the counts (R144). -/
def State.sinkWriteAll (s : State) : List (List Byte) → Nat × State
  | [] => (0, s)
  | piece :: pieces =>
    let a := s.sinkWrite piece
    let rest := a.2.sinkWriteAll pieces
    (a.1 + rest.1, rest.2)

/-- `SeqNext()`: the pre-increment value, and the counter advanced modulo 256 (41_sequencer R143). -/
def State.seqNext (s : State) : Byte × State := (s.seq, { s with seq := s.seq + 1 })

/-- `EmitPacket(t, chunks)` (41_sequencer R144). -/
def State.emitPacket (s : State) (t : Tag) (chunks : List (List Byte)) : Nat × State :=
  let q := s.seqNext
  q.2.sinkWriteAll (headerPieces s.cfg t q.1 ++ chunks)

/-! ## Outside the block: whole-block reset, the caller's use of data, the receiver -/

/-- Whole-block reset (70_reset R231): every register and every storage of the block. OUT and FAULTS are not touched, nor
is anything outside the block (log 15). -/
def State.wholeReset (s : State) : State :=
  { s with
    rbs := s.cfg.rb.map fun _ => RB.initial
    seq := 0
    dpS := []
    dpPPP := s.cfg.pppReset
    dpIDX := 0
    dpSTATE := .empty }

/-- A reply to context `ctx` for RB_PEEK or RB_POP on instance `b`. -/
def Reply.isReadOf (r : Reply) (ctx : Ctx) (b : Byte) : Bool :=
  decide (r.ctx = ctx) && decide (r.inst = some b) &&
    (decide (r.op = Opcode.rbPeek.byte) || decide (r.op = Opcode.rbPop.byte))

/-- The caller's model: the issuing context uses the data of its last RB_PEEK or RB_POP on `b`. After `ok = 0` there is
no value, and EmptyRead is recorded (40_ring_buffer R114, R115; 60_exceptions R204 code 10; log 14). -/
def State.useData (s : State) (b : Byte) : State :=
  match s.replies.reverse.find? fun r => r.isReadOf s.ctx b with
  | some ⟨_, op, _, .item false _⟩ => s.raise .emptyRead op (.inst b)
  | _ => s

/-- A reserved opcode (30_encoding R98): IllegalCommand, and a response carrying no value. -/
def State.illegalCommand (s : State) (op : Byte) : State := s.stop .illegalCommand op none (.opcode op)

/-- The receiver decodes a packet with these magic bytes and this sequence byte: with a packet before it, it concludes
the gap; bytes without the magic prefix are no packet to it (30_encoding R88, 41_sequencer R150; log 12, 13). -/
def State.receive (s : State) (m n q : Byte) : State :=
  let here : Bool := decide (m = s.cfg.magic0) && decide (n = s.cfg.magic1)
  { s with
    rxSeq := if here then some q else s.rxSeq
    rxGaps :=
      match s.rxSeq with
      | some prev => if here then s.rxGaps ++ [sequenceGap prev q] else s.rxGaps
      | none => s.rxGaps }

/-! ## The end of a run -/

/-- The run so far kept the source's contract: "a run whose `FAULTS` is not empty says nothing a claim may rely on"
(60_exceptions R202). -/
abbrev State.InContract (s : State) : Prop := s.faults = []

/-- The run that led here is final: its requests are all taken and it recorded no fault, since a run whose `FAULTS` is
not empty says nothing: "a model treats it as never final" (60_exceptions R202; that no request is left is log 27). -/
abbrev State.Final (s : State) : Prop := s.port = [] ∧ s.InContract

/-- The observation of a run that is final here. There is none of any other run: R214 says nothing "of a run in which
`FAULTS` is not empty". -/
def State.observe (s : State) : Option Observation :=
  if s.Final then
    some
      { replies := s.replies
        rbs := s.rbs
        seq := s.seq
        dpS := s.dpS
        dpPPP := s.dpPPP
        dpIDX := s.dpIDX
        dpSTATE := s.dpSTATE
        out := s.out
        faults := s.faults }
  else none

end Sys2Proof.Machine
end

