-- ==== Sys2Proof/Machine/DataPacket.lean ====
section
/-! DEFINITION. The DataPacket commands (42_data_packet R159 to R166). -/

namespace Sys2Proof.Machine

/-- DP_CONFIG (R160). -/
def execDpConfig (n : Half) (s : State) : Host.Outcome State Fault Refusal :=
  if n.toNat < 1 ∨ s.cfg.maxPoints < n.toNat then
    .next (s.stop .configOutOfRange Opcode.dpConfig.byte none (.count n))
  else
    .next (State.reply { s with dpPPP := n.toNat } Opcode.dpConfig.byte none .ack)

/-- DP_RESET (R161): `DP.S` and `DP.PPP` keep their values. -/
def execDpReset (s : State) : Host.Outcome State Fault Refusal :=
  .next (State.reply { s with dpIDX := 0, dpSTATE := .empty } Opcode.dpReset.byte none .ack)

/-- DP_ADD (R162): the limit compared is `DP.PPP`. -/
def execDpAdd (ch : Byte) (value : Sample) (s : State) : Host.Outcome State Fault Refusal :=
  if s.cfg.ch ≤ ch.toNat then
    .next (s.stop .channelOutOfRange Opcode.dpAdd.byte none (.channel ch))
  else if s.dpPPP ≤ s.dpIDX then
    .next (s.reply Opcode.dpAdd.byte none (.ok false))
  else
    match s.dpStore s.dpIDX ch.toNat value with
    | none => .fault .noSuchCell
    | some s1 => .next (s1.updateState.reply Opcode.dpAdd.byte none (.ok true))

/-- DP_ADVANCE (R163): the index is compared with the storage capacity, not with `DP.PPP`. -/
def execDpAdvance (s : State) : Host.Outcome State Fault Refusal :=
  if s.dpIDX = s.cfg.maxPoints then
    .next (s.stop .pointOverflow Opcode.dpAdvance.byte none .none)
  else
    .next ((State.updateState { s with dpIDX := s.dpIDX + 1 }).reply Opcode.dpAdvance.byte none .ack)

/-- The state fault DP_WRITE records before it goes on (R164, R205). -/
def State.writeFault (s : State) : State :=
  if s.dpSTATE = .empty then s.raise .writeEmpty Opcode.dpWrite.byte .none
  else if s.dpSTATE = .written then s.raise .packetReuse Opcode.dpWrite.byte .none
  else s

/-- DP_WRITE (R164): every configured point is transmitted, `DP.IDX` is not changed, no fault stops it. -/
def execDpWrite (s : State) : Host.Outcome State Fault Refusal :=
  if s.cfg.maxPoints < s.dpPPP then .fault .noSuchCell
  else
    let q := s.writeFault.payload Opcode.dpWrite.byte (payloadCells s.dpPPP s.cfg.ch)
    let e := q.2.emitPacket (dataTag s.dpPPP) [q.1]
    .next (State.reply { e.2 with dpSTATE := .written } Opcode.dpWrite.byte none (.total e.1))

end Sys2Proof.Machine
end

