-- ==== Sys2Proof/Machine/RingBuffer.lean ====
section
/-! DEFINITION. The ring-buffer commands (40_ring_buffer R109 to R117). -/

namespace Sys2Proof.Machine

/-- RB_COUNT (R110). -/
def execRbCount (b : Byte) (s : State) : Host.Outcome State Fault Refusal :=
  match s.rbCheck .rbCount b with
  | some (k, i) => .next (s.stop k Opcode.rbCount.byte (some b) i)
  | none =>
    .next (s.reply Opcode.rbCount.byte (some b) (.count (occupied (s.par b.toNat).capacity (s.rb b.toNat))))

/-- RB_SPACE (R111). -/
def execRbSpace (b : Byte) (s : State) : Host.Outcome State Fault Refusal :=
  match s.rbCheck .rbSpace b with
  | some (k, i) => .next (s.stop k Opcode.rbSpace.byte (some b) i)
  | none =>
    .next (s.reply Opcode.rbSpace.byte (some b) (.count (freeSlots (s.par b.toNat).capacity (s.rb b.toNat))))

/-- RB_PUSH (R112): the item is stored, then the write cursor is published. -/
def execRbPush (b : Byte) (item : Elem) (s : State) : Host.Outcome State Fault Refusal :=
  match s.rbCheck .rbPush b with
  | some (k, i) => .next (s.stop k Opcode.rbPush.byte (some b) i)
  | none =>
    let p := s.par b.toNat
    let r := s.rb b.toNat
    if isFull p.capacity r then .next (s.reply Opcode.rbPush.byte (some b) (.ok false))
    else
      match storeWrite p r r.wr item with
      | none => .fault .noSuchCell
      | some r1 =>
        .next ((s.setRb b.toNat { r1 with wr := slotAfter p.capacity r.wr 1 }).reply
          Opcode.rbPush.byte (some b) (.ok true))

/-- RB_PUSHN (R113): `k = min(n, space)` items in at most two contiguous ranges, the write cursor published once. -/
def execRbPushN (b : Byte) (items : List Elem) (s : State) : Host.Outcome State Fault Refusal :=
  match s.rbCheck .rbPushN b with
  | some (k, i) => .next (s.stop k Opcode.rbPushN.byte (some b) i)
  | none =>
    let p := s.par b.toNat
    let r := s.rb b.toNat
    let k := min items.length (freeSlots p.capacity r)
    let k1 := min k (p.capacity - r.wr)
    match storeRange p r r.wr (items.take k1) with
    | none => .fault .noSuchCell
    | some r1 =>
      match storeRange p r1 0 ((items.take k).drop k1) with
      | none => .fault .noSuchCell
      | some r2 =>
        .next ((s.setRb b.toNat { r2 with wr := slotAfter p.capacity r.wr k }).reply
          Opcode.rbPushN.byte (some b) (.pushed k))

/-- RB_PEEK (R114), the checked form. -/
def execRbPeek (b : Byte) (s : State) : Host.Outcome State Fault Refusal :=
  match s.rbCheck .rbPeek b with
  | some (k, i) => .next (s.stop k Opcode.rbPeek.byte (some b) i)
  | none =>
    let p := s.par b.toNat
    let r := s.rb b.toNat
    if isEmpty r then .next (s.reply Opcode.rbPeek.byte (some b) (.item false none))
    else
      match storeRead p r r.rd with
      | none => .fault .noSuchCell
      | some v => .next (s.reply Opcode.rbPeek.byte (some b) (.item true v))

/-- RB_POP (R115), the checked form: the slot keeps its value. -/
def execRbPop (b : Byte) (s : State) : Host.Outcome State Fault Refusal :=
  match s.rbCheck .rbPop b with
  | some (k, i) => .next (s.stop k Opcode.rbPop.byte (some b) i)
  | none =>
    let p := s.par b.toNat
    let r := s.rb b.toNat
    if isEmpty r then .next (s.reply Opcode.rbPop.byte (some b) (.item false none))
    else
      match storeRead p r r.rd with
      | none => .fault .noSuchCell
      | some v =>
        .next ((s.setRb b.toNat { r with rd := slotAfter p.capacity r.rd 1 }).reply
          Opcode.rbPop.byte (some b) (.item true v))

/-- RB_SKIP (R116): storage is not read. -/
def execRbSkip (b : Byte) (s : State) : Host.Outcome State Fault Refusal :=
  match s.rbCheck .rbSkip b with
  | some (k, i) => .next (s.stop k Opcode.rbSkip.byte (some b) i)
  | none =>
    let p := s.par b.toNat
    let r := s.rb b.toNat
    if isEmpty r then .next (s.reply Opcode.rbSkip.byte (some b) (.ok false))
    else
      .next ((s.setRb b.toNat { r with rd := slotAfter p.capacity r.rd 1 }).reply
        Opcode.rbSkip.byte (some b) (.ok true))

/-- RB_CLEAR (R117): the read cursor is set to the write cursor. -/
def execRbClear (b : Byte) (s : State) : Host.Outcome State Fault Refusal :=
  match s.rbCheck .rbClear b with
  | some (k, i) => .next (s.stop k Opcode.rbClear.byte (some b) i)
  | none =>
    let r := s.rb b.toNat
    .next ((s.setRb b.toNat { r with rd := r.wr }).reply Opcode.rbClear.byte (some b) .ack)

end Sys2Proof.Machine
end

