-- ==== Sys2Proof/Machine/Sequencer.lean ====
section
/-! DEFINITION. The sequencer's command (41_sequencer R141). -/

namespace Sys2Proof.Machine

/-- SEQ_RESET (R141). -/
def execSeqReset (s : State) : Host.Outcome State Fault Refusal :=
  .next (State.reply { s with seq := 0 } Opcode.seqReset.byte none .ack)

end Sys2Proof.Machine
end

