-- ==== Sys2Proof/Machine/TimePacket.lean ====
section
/-! DEFINITION. The time-packet commands (43_time R190 to R193). -/

namespace Sys2Proof.Machine

/-- TP_WRITE (R190). -/
def execTpWrite (req : Byte) (ts : Stamp) (s : State) : Host.Outcome State Fault Refusal :=
  let e := s.emitPacket .n (baseTimeFields s.cfg.byteOrder req ts)
  .next (e.2.reply Opcode.tpWrite.byte none (.total e.1))

/-- FST_WRITE (R191). -/
def execFstWrite (ts : Stamp) (s : State) : Host.Outcome State Fault Refusal :=
  let e := s.emitPacket .f [enc s.cfg.byteOrder ts 4]
  .next (e.2.reply Opcode.fstWrite.byte none (.total e.1))

/-- LUF_WRITE (R192): the base fields of a time packet and two more, under its own tag. -/
def execLufWrite (req : Byte) (ts : Stamp) (frameId : Half) (frameTs : Stamp) (s : State) :
    Host.Outcome State Fault Refusal :=
  let o := s.cfg.byteOrder
  let e := s.emitPacket .l (baseTimeFields o req ts ++ [enc o frameId 2, enc o frameTs 4])
  .next (e.2.reply Opcode.lufWrite.byte none (.total e.1))

end Sys2Proof.Machine
end

