-- ==== Sys2Proof/Machine/WirePacket.lean ====
section
/-! DEFINITION. The wire packets of 30_encoding R81 before the receiver, the only agent that reads one (30_encoding R88,
41_sequencer R150, both informative; log 12). The block's own state is not touched: it never reads its output (10_state
R35). -/

namespace Sys2Proof.Machine

/-- A `D` packet (R82). -/
def execPktD (m n q : Byte) (_samples : List Sample) (s : State) : Host.Outcome State Fault Refusal :=
  .next (s.receive m n q)

/-- An `M` packet (R82). -/
def execPktM (m n q : Byte) (_samples : List Sample) (s : State) : Host.Outcome State Fault Refusal :=
  .next (s.receive m n q)

/-- An `N` packet (R83). -/
def execPktN (m n q : Byte) (_req : Byte) (_ts : Stamp) (s : State) : Host.Outcome State Fault Refusal :=
  .next (s.receive m n q)

/-- An `F` packet (R84). -/
def execPktF (m n q : Byte) (_ts : Stamp) (s : State) : Host.Outcome State Fault Refusal :=
  .next (s.receive m n q)

/-- An `L` packet (R85). -/
def execPktL (m n q : Byte) (_req : Byte) (_ts : Stamp) (_frameId : Half) (_frameTs : Stamp) (s : State) :
    Host.Outcome State Fault Refusal :=
  .next (s.receive m n q)

end Sys2Proof.Machine
end

