-- ==== Sys2Proof/Machine/Dispatch.lean ====
section
/-! DEFINITION. One arm per row of spec/opcode_table.json, each a direct call of its meaning. -/

namespace Sys2Proof.Machine

def exec (i : Instr) (s : State) : Host.Outcome State Fault Refusal :=
  match i with
  | .rbPush b item => Sys2Proof.Machine.execRbPush b item s
  | .rbPushN b items => Sys2Proof.Machine.execRbPushN b items s
  | .rbCount b => Sys2Proof.Machine.execRbCount b s
  | .rbSpace b => Sys2Proof.Machine.execRbSpace b s
  | .rbPeek b => Sys2Proof.Machine.execRbPeek b s
  | .rbPop b => Sys2Proof.Machine.execRbPop b s
  | .rbSkip b => Sys2Proof.Machine.execRbSkip b s
  | .rbClear b => Sys2Proof.Machine.execRbClear b s
  | .seqReset => Sys2Proof.Machine.execSeqReset s
  | .dpConfig n => Sys2Proof.Machine.execDpConfig n s
  | .dpReset => Sys2Proof.Machine.execDpReset s
  | .dpAdd ch value => Sys2Proof.Machine.execDpAdd ch value s
  | .dpAdvance => Sys2Proof.Machine.execDpAdvance s
  | .dpWrite => Sys2Proof.Machine.execDpWrite s
  | .tpWrite req ts => Sys2Proof.Machine.execTpWrite req ts s
  | .fstWrite ts => Sys2Proof.Machine.execFstWrite ts s
  | .lufWrite req ts fid fts => Sys2Proof.Machine.execLufWrite req ts fid fts s
  | .pktD m n q samples => Sys2Proof.Machine.execPktD m n q samples s
  | .pktM m n q samples => Sys2Proof.Machine.execPktM m n q samples s
  | .pktN m n q req ts => Sys2Proof.Machine.execPktN m n q req ts s
  | .pktF m n q ts => Sys2Proof.Machine.execPktF m n q ts s
  | .pktL m n q req ts fid fts => Sys2Proof.Machine.execPktL m n q req ts fid fts s

end Sys2Proof.Machine
end

