-- ==== Sys2Proof/Machine/Step.lean ====
section
/-! DEFINITION. One step: the next request of the port is taken and carried out (20_memory R61, 60_exceptions R211). -/

namespace Sys2Proof.Machine

/-- The command port takes a frame: the command it spells is run, a reserved opcode records IllegalCommand, an ill-formed
frame is refused (30_encoding R94, R96, R98). -/
def stepFrame (frame : List Byte) (s : State) : Host.Outcome State Fault Refusal :=
  match decodeFrame s.cfg frame with
  | .instr i => exec i s
  | .reserved op => .next (s.illegalCommand op)
  | .illFormed => .refused .illFormedFrame

/-- The receiver takes the bytes of a packet; it concludes nothing from bytes it cannot decode (log 13). -/
def stepPacket (ppp : Nat) (bytes : List Byte) (s : State) : Host.Outcome State Fault Refusal :=
  match decodePacket s.cfg ppp bytes with
  | some i => exec i s
  | none => .next s

/-- One step of the machine. With nothing before it the block does nothing (60_exceptions R211, log 4). -/
def step (s : State) : Host.Outcome State Fault Refusal :=
  if s.cfg.WF then
    match s.port with
    | [] => .next s
    | .command ctx frame :: rest =>
      if ctx ∈ s.cfg.ctxs then stepFrame frame { s with port := rest, ctx := ctx }
      else .refused .notAContext
    | .reset :: rest => .next (State.wholeReset { s with port := rest })
    | .useData ctx b :: rest =>
      if ctx ∈ s.cfg.ctxs then .next (State.useData { s with port := rest, ctx := ctx } b)
      else .refused .notAContext
    | .packet ppp bytes :: rest => stepPacket ppp bytes { s with port := rest }
  else .refused .notAConfiguration

/-- A context that may issue this frame: the owner its command's role names, else the first of `CTX`. -/
def frameIssuer (c : Config) (frame : List Byte) : Ctx :=
  let p := c.rb.getD (frame.getD 1 0#8).toNat ⟨2, 1, .producer, .consumer⟩
  match (opcode? (frame.getD 0 0#8)).map Opcode.role with
  | some .producer => p.prodOwner
  | some .consumer => p.consOwner
  | _ => c.ctxs.headD .producer

/-- The state with a table word's bytes before it as the next request: a command frame from a context that may issue it,
or a packet before the receiver (log 20). -/
def State.withFetchWord (s : State) (nbits w : Nat) : State :=
  match placeTableWord s.cfg nbits w with
  | .frame bs => { s with port := .command (frameIssuer s.cfg bs) bs :: s.port }
  | .packet ppp bs => { s with port := .packet ppp bs :: s.port }

end Sys2Proof.Machine
end

