-- ==== Sys2Proof/Safety.lean ====
section
/-! DEFINITION. The terms statements are made in: the legal states of 10_state, the requests a run of commands is, the
queue a ring buffer holds, a sink that accepts everything, and what an instruction leaves alone. -/

namespace Sys2Proof.Machine

/-! ## Legal states -/

/-- The cursors of an instance are in their legal range `0..C-1` (10_state R25, R26). -/
abbrev RB.CursorsLegal (p : RBParams) (r : RB) : Prop := r.wr < p.capacity ∧ r.rd < p.capacity

/-- A legal ring-buffer instance: legal cursors, storage in canonical form with `C` slots of `W` bits, and a value in
every slot of the occupied range (10_state R24, R25, R26, R28). -/
abbrev RB.Legal (p : RBParams) (r : RB) : Prop :=
  RB.CursorsLegal p r ∧ Memory.wf r.store ∧ (∀ e ∈ r.store, e.1 < p.capacity ∧ e.2 < 2 ^ p.width) ∧
  ∀ k, k < occupied p.capacity r → (Memory.read r.store (slotAfter p.capacity r.rd k)).isSome = true

/-- The registers of the DataPacket buffer hold legal values and its storage only existing cells (10_state R30 to R32). -/
abbrev State.DPLegal (s : State) : Prop :=
  (1 ≤ s.dpPPP ∧ s.dpPPP ≤ s.cfg.maxPoints) ∧ s.dpIDX ≤ s.cfg.maxPoints ∧
  Memory.wf s.dpS ∧ ∀ e ∈ s.dpS, e.1 < s.cfg.maxPoints * s.cfg.ch

/-- The invariant of the machine: a configuration of the block (00_scope R10), one legal instance for each of its
parameters, a legal DataPacket buffer, no record twice in the set FAULTS (10_state R36). -/
abbrev State.Inv (s : State) : Prop :=
  s.cfg.WF ∧ s.rbs.length = s.cfg.numRB ∧
  (∀ b, b < s.cfg.numRB → RB.Legal (s.par b) (s.rb b)) ∧ s.DPLegal ∧ s.faults.Nodup

/-! ## What statements speak about -/

/-- Instance `b` exists and the issuing context may issue `op` on it: RBCheck passes (40_ring_buffer R109). -/
abbrev State.MayIssue (s : State) (op : Opcode) (b : Byte) : Prop :=
  b.toNat < s.cfg.numRB ∧ (Opcode.role op).allows (s.par b.toNat) s.ctx = true

/-- The elements a ring buffer holds, oldest first: slot `RD` and the slots after it (10_state R27, R28). -/
def RB.queue (p : RBParams) (r : RB) : List (Option Elem) :=
  (List.range (occupied p.capacity r)).map fun k => Memory.read r.store (slotAfter p.capacity r.rd k)

/-- The sink's coming answers accept each of these pieces whole. -/
def acceptsWhole : List Nat → List (List Byte) → Bool
  | _, [] => true
  | [], _ :: _ => false
  | a :: answers, piece :: pieces => decide (piece.length ≤ a) && acceptsWhole answers pieces

/-- What a sink that answers these counts keeps of these pieces: of each piece the prefix it accepted, back to back
(41_sequencer R144 to R146). -/
def acceptedBy (answers : List Nat) (pieces : List (List Byte)) : List Byte :=
  (List.zipWith (fun a piece => piece.take a) answers pieces).flatten

/-- Answers that the sink of this state may give to these pieces: one for each, the ones it holds ready where it holds
enough (41_sequencer R145). -/
abbrev State.MayAnswer (s : State) (answers : List Nat) (pieces : List (List Byte)) : Prop :=
  answers.length = pieces.length ∧ (pieces.length ≤ s.sink.length → answers = s.sink.take pieces.length)

/-- Every sample DP_WRITE transmits has been written (42_data_packet R164: no `⊥` cell). -/
abbrev State.SamplesWritten (s : State) : Prop :=
  ∀ p, p < s.dpPPP → ∀ c, c < s.cfg.ch → (s.dpRead p c).isSome = true

/-- The samples DP_WRITE transmits, in payload order (30_encoding R82). -/
def State.samples (s : State) : List Sample :=
  (payloadCells s.dpPPP s.cfg.ch).filterMap fun pc => s.dpRead pc.1 pc.2

/-! ## Frames: what two states share -/

/-- The same ring-buffer instances. -/
abbrev SameRings (s t : State) : Prop := t.rbs = s.rbs

/-- The same instances but for instance `b` (10_state R23). -/
abbrev SameOtherRings (b : Nat) (s t : State) : Prop :=
  t.rbs.length = s.rbs.length ∧ ∀ b', b' ≠ b → t.rb b' = s.rb b'

/-- The same DataPacket buffer: storage and registers. -/
abbrev SameDP (s t : State) : Prop :=
  t.dpS = s.dpS ∧ t.dpPPP = s.dpPPP ∧ t.dpIDX = s.dpIDX ∧ t.dpSTATE = s.dpSTATE

/-- The same sequence counter and output, and no sink write. -/
abbrev SameStream (s t : State) : Prop :=
  t.seq = s.seq ∧ t.out = s.out ∧ t.sink = s.sink ∧ t.sinkDraws = s.sinkDraws

/-- The same parameters, pending requests, issuing context and receiver. -/
abbrev SameAround (s t : State) : Prop :=
  t.cfg = s.cfg ∧ t.port = s.port ∧ t.ctx = s.ctx ∧ t.rxSeq = s.rxSeq ∧ t.rxGaps = s.rxGaps

/-- The same fault records, and no value drawn for an unwritten cell. -/
abbrev SameFaults (s t : State) : Prop := t.faults = s.faults ∧ t.sampleDraws = s.sampleDraws

/-- One response more, to the issuing context (30_encoding R97: "each command returns exactly one response"). -/
abbrev Replied (s t : State) (op : Opcode) (inst : Option Byte) (r : Response) : Prop :=
  t.replies = s.replies ++ [⟨s.ctx, op.byte, inst, r⟩]

/-- Nothing but a response. -/
abbrev OnlyReplies (s t : State) : Prop :=
  SameRings s t ∧ SameDP s t ∧ SameStream s t ∧ SameAround s t ∧ SameFaults s t

/-- Nothing but instance `b` and a response. -/
abbrev OnlyRing (b : Nat) (s t : State) : Prop :=
  SameOtherRings b s t ∧ SameDP s t ∧ SameStream s t ∧ SameAround s t ∧ SameFaults s t

/-- Nothing but the DataPacket buffer and a response. -/
abbrev OnlyDP (s t : State) : Prop := SameRings s t ∧ SameStream s t ∧ SameAround s t ∧ SameFaults s t

/-- Nothing but the sequence counter, the output, the sink's answers and a response. -/
abbrev OnlyStream (s t : State) : Prop := SameRings s t ∧ SameDP s t ∧ SameAround s t ∧ SameFaults s t

/-- A stopping fault: one record in the set FAULTS, a response carrying no value, and no other change (60_exceptions
R203, R204: "stops"). -/
abbrev StopsWith (s t : State) (op : Opcode) (inst : Option Byte) (kind : FaultKind) (info : FaultInfo) : Prop :=
  (∀ f, f ∈ t.faults ↔ f ∈ s.faults ∨ f = ⟨kind, op.byte, s.ctx, info⟩) ∧ Replied s t op inst .noValue ∧
  SameRings s t ∧ SameDP s t ∧ SameStream s t ∧ SameAround s t ∧ t.sampleDraws = s.sampleDraws

/-- Where `RBCheck(op, b, ctx)` does not pass, a command's outcome is the stop RBCheck gives: InstanceOutOfRange first,
then OwnershipViolation (40_ring_buffer R109, 60_exceptions R205). -/
abbrev CheckedByRBCheck (s : State) (op : Opcode) (b : Byte) (o : Host.Outcome State Fault Refusal) : Prop :=
  (s.cfg.numRB ≤ b.toNat → ∃ t, o = .next t ∧ StopsWith s t op (some b) .instanceOutOfRange (.inst b)) ∧
  (b.toNat < s.cfg.numRB → (Opcode.role op).allows (s.par b.toNat) s.ctx = false →
    ∃ t, o = .next t ∧ StopsWith s t op (some b) .ownershipViolation (.instCtx b s.ctx))

/-- The requests that these commands, each from its context, are at the port (30_encoding R94, 60_exceptions R214). -/
def commandRequests (c : Config) (cmds : List (Ctx × Instr)) : List Request :=
  cmds.map fun x => .command x.1 (encode c x.2)

/-- Run instructions one after another (a run of 60_exceptions R214 without the port around it, whether it records a
fault or not). -/
def execAll : List Instr → State → Host.Outcome State Fault Refusal
  | [], s => .next s
  | i :: is, s =>
    match exec i s with
    | .next t => execAll is t
    | .fault f => .fault f
    | .refused r => .refused r

/-- RB_PUSH and RB_PUSHN name an instance that exists, so their items have a width `E_b` (30_encoding R96). -/
def Instr.pushesToExisting (c : Config) : Instr → Prop
  | .rbPush b _ => b.toNat < c.numRB
  | .rbPushN b _ => b.toNat < c.numRB
  | _ => True

/-- The wire packet DP_WRITE emits when every sample is written: `D` for one point, `M` for more (42_data_packet R164). -/
def State.dataPacket (s : State) : Instr :=
  if s.dpPPP = 1 then .pktD s.cfg.magic0 s.cfg.magic1 s.seq s.samples
  else .pktM s.cfg.magic0 s.cfg.magic1 s.seq s.samples

/-- The whole of the block's own state (10_state R34) and its output are the same. -/
abbrev SameBlock (s t : State) : Prop :=
  SameRings s t ∧ SameDP s t ∧ t.seq = s.seq ∧ t.out = s.out

end Sys2Proof.Machine
end

