-- ==== Sys2Proof/Certificates/Slice0/Obligations.lean ====
section
/-! DEFINITION. The statements for the provers, from the numbered rules of spec/. OBLIGATIONS.json lists them. -/

open Sys2Proof Sys2Proof.Machine

/-! ## Decoding and encoding -/

/-- Words written out from 30_encoding R80, R81, R95, R96 stand for the commands and packets they spell. -/
def Obligations.WrittenOutWordsDecode : Prop :=
  ∀ (m0 m1 : Byte) (o : ByteOrder),
    decodeFrame (Config.k0 m0 m1 o) [0x01, 0x00, 0xCD, 0xAB] = .instr (.rbPush 0 0xABCD) ∧
    decodeFrame (Config.k0 m0 m1 o) [0x02, 0x01, 0x02, 0x00, 0x0A, 0x00, 0x0B, 0x01] = .instr (.rbPushN 1 [10, 267]) ∧
    decodeFrame (Config.k0 m0 m1 o) [0x08, 0x01] = .instr (.rbClear 1) ∧
    decodeFrame (Config.k0 m0 m1 o) [0x20, 0x2C, 0x01] = .instr (.dpConfig 300) ∧
    decodeFrame (Config.k0 m0 m1 o) [0x22, 0x01, 0xCE, 0xFF] = .instr (.dpAdd 1 (-50)) ∧
    decodeFrame (Config.k0 m0 m1 o) [0x30, 0x07, 0x78, 0x56, 0x34, 0x12] = .instr (.tpWrite 0x07 0x12345678) ∧
    decodeFrame (Config.k0 m0 m1 o) [0x10] = .instr .seqReset ∧
    decodePacket (Config.k0 m0 m1 .be) 1 [m0, m1, 0x4E, 0x05, 0x07, 0x12, 0x34, 0x56, 0x78] =
      some (.pktN m0 m1 0x05 0x07 0x12345678)

/-- The decoder reads every well-formed command back from its frame (30_encoding R96). For RB_PUSH and RB_PUSHN on an
instance that does not exist R96 gives no `E_b`: the frame of such a command is the model's DESIGN CHOICE (log 9), and so
is what this statement says of it. -/
def Obligations.CommandFramesRoundTrip : Prop :=
  ∀ (c : Config) (i : Instr), i.isCommand = true → i.wellFormed c = true → decodeFrame c (encode c i) = .instr i

/-- A receiver reads every well-formed packet back from its bytes, whatever BYTE_ORDER is (30_encoding R80 to R88). -/
def Obligations.WirePacketsRoundTrip : Prop :=
  ∀ (c : Config) (i : Instr) (ppp : Nat), c.WF → i.isCommand = false → i.wellFormed c = true →
    (∀ m n s samples, i = .pktM m n s samples → ppp = c.pointsOf samples) →
    decodePacket c ppp (encode c i) = some i

/-- A frame that spells a command is that command's frame, of its format's length, with no bit dropped: the items fit
their width (30_encoding R96). The last part is about instances that exist, since no other has an `E_b`. -/
def Obligations.DecodedFramesAreEncodings : Prop :=
  ∀ (c : Config) (frame : List Byte) (i : Instr), decodeFrame c frame = .instr i →
    i.isCommand = true ∧ i.wellFormed c = true ∧
    (Instr.pushesToExisting c i → encode c i = frame ∧ frame.length = frameLength c i)

/-- A frame of a listed opcode that is no well-formed command's frame is refused: it spells no command (30_encoding
R96). The frames of RB_PUSH and RB_PUSHN that name an instance that does not exist are left out: R96 gives them no `E_b`,
and which of them spell a command is the model's choice (log 9). -/
def Obligations.IllFormedFramesAreRefused : Prop :=
  ∀ (s : State) (ctx : Ctx) (x : Byte) (rest : List Byte) (q : List Request) (op : Opcode),
    s.cfg.WF → s.port = .command ctx (x :: rest) :: q → ctx ∈ s.cfg.ctxs → x = op.byte →
    (op = .rbPush ∨ op = .rbPushN → ∀ b, rest.head? = some b → b.toNat < s.cfg.numRB) →
    (∀ i : Instr, i.isCommand = true → i.wellFormed s.cfg = true → encode s.cfg i ≠ x :: rest) →
    step s = .refused .illFormedFrame

/-- Every opcode value outside 30_encoding R95 records IllegalCommand with that byte, changes no state and emits nothing
(30_encoding R98). That this holds whatever follows the byte is the model's reading (log 11), the response without a
value too (log 26). -/
def Obligations.ReservedOpcodesRecordIllegalCommand : Prop :=
  ∀ (s : State) (ctx : Ctx) (x : Byte) (rest : List Byte) (q : List Request),
    s.cfg.WF → s.port = .command ctx (x :: rest) :: q → ctx ∈ s.cfg.ctxs →
    (x.toNat = 0x00 ∨ (0x09 ≤ x.toNat ∧ x.toNat ≤ 0x0F) ∨ (0x11 ≤ x.toNat ∧ x.toNat ≤ 0x1F) ∨
      (0x25 ≤ x.toNat ∧ x.toNat ≤ 0x2F) ∨ 0x33 ≤ x.toNat) →
    ∃ t, step s = .next t ∧
      (∀ f, f ∈ t.faults ↔ f ∈ s.faults ∨ f = ⟨.illegalCommand, x, ctx, .opcode x⟩) ∧
      t.replies = s.replies ++ [⟨ctx, x, none, .noValue⟩] ∧ SameBlock s t ∧ SameStream s t ∧ t.cfg = s.cfg ∧
      t.port = q ∧ t.sampleDraws = s.sampleDraws ∧ t.rxSeq = s.rxSeq ∧ t.rxGaps = s.rxGaps

/-! ## The step -/

/-- When the frame at the port spells a command, the step is that command, issued by the frame's context. -/
def Obligations.StepRunsTheDecodedCommand : Prop :=
  ∀ (s : State) (ctx : Ctx) (frame : List Byte) (q : List Request) (i : Instr),
    s.cfg.WF → s.port = .command ctx frame :: q → ctx ∈ s.cfg.ctxs → decodeFrame s.cfg frame = .instr i →
    step s = exec i { s with port := q, ctx := ctx }

/-- When the bytes before the receiver are a packet, the step is that packet's reception (the model's receiver, log 12). -/
def Obligations.StepRunsTheDecodedPacket : Prop :=
  ∀ (s : State) (ppp : Nat) (bytes : List Byte) (q : List Request) (i : Instr),
    s.cfg.WF → s.port = .packet ppp bytes :: q → decodePacket s.cfg ppp bytes = some i →
    step s = exec i { s with port := q }

/-- The next request decides a step whatever stands behind it: requests still pending are not read and not changed
(20_memory R61: a command's result is computed from the state left by the command before it alone). R61 speaks of
commands. That they wait in one port, in a given order, is the model's form (log 3); so are the other three requests: a
whole-block reset, which lets the pending requests stand (log 15, DEDUCED, unsafe), a packet before the receiver (log 12)
and a use of read data (log 14). -/
def Obligations.PendingRequestsAreNotRead : Prop :=
  ∀ (s t : State) (r : Request) (q q' : List Request), s.port = r :: q → step s = .next t →
    t.port = q ∧ step { s with port := r :: q' } = .next { t with port := q' }

/-- Whole-block reset puts every register and storage in the state of 70_reset R231, and does not touch FAULTS or OUT. -/
def Obligations.WholeBlockResetState : Prop :=
  ∀ (s : State) (q : List Request), s.cfg.WF → s.port = .reset :: q →
    ∃ t, step s = .next t ∧ t.rbs.length = s.cfg.numRB ∧
      (∀ b, b < s.cfg.numRB → (t.rb b).wr = 0 ∧ (t.rb b).rd = 0 ∧ occupied (s.par b).capacity (t.rb b) = 0 ∧
        freeSlots (s.par b).capacity (t.rb b) = (s.par b).capacity - 1 ∧
        ∀ j, Memory.read (t.rb b).store j = none) ∧
      t.seq = 0 ∧ t.dpPPP = s.cfg.pppReset ∧ t.dpIDX = 0 ∧ t.dpSTATE = .empty ∧ (∀ p c, t.dpRead p c = none) ∧
      t.faults = s.faults ∧ t.out = s.out ∧ t.cfg = s.cfg

/-- The state after reset is legal, for the model's configuration (log 1) and for every configuration of the block. -/
def Obligations.ResetStateIsLegal : Prop :=
  State.reset.Inv ∧ ∀ c : Config, c.WF → (State.resetOf c).Inv

/-- Every step from a legal state leads to a legal state. -/
def Obligations.StepKeepsLegalStates : Prop :=
  ∀ s t : State, s.Inv → step s = .next t → t.Inv

/-- In a legal state every row of the opcode table completes in one step. R213 of 60_exceptions says it of the commands;
of the five WIRE rows, which are no commands, it is the model's: their meaning is its receiver (log 12, DESIGN CHOICE). -/
def Obligations.EveryInstructionCompletes : Prop :=
  ∀ (s : State) (i : Instr), s.Inv → ∃ t, exec i s = .next t

/-- From a legal state the machine never faults, and it refuses only a frame that spells nothing or a context outside
`CTX` (log 10). -/
def Obligations.LegalStatesStopOnlyAtThePort : Prop :=
  ∀ s : State, s.Inv →
    (∀ f, step s ≠ .fault f) ∧
    (∀ r, step s = .refused r →
      (r = .illFormedFrame ∧ ∃ ctx frame q, s.port = .command ctx frame :: q ∧ decodeFrame s.cfg frame = .illFormed) ∨
      (r = .notAContext ∧ ∃ ctx q, ctx ∉ s.cfg.ctxs ∧
        ((∃ frame, s.port = .command ctx frame :: q) ∨ ∃ b, s.port = .useData ctx b :: q)))

/-- No step changes a parameter: byte order, magic, capacities and ownership are fixed (20_memory R53, 60_exceptions
R210). -/
def Obligations.ConfigurationIsFixed : Prop :=
  ∀ s t : State, step s = .next t → t.cfg = s.cfg

/-! ## Ring buffers -/

/-- RBCheck is run first by every ring-buffer command: it stops the command with the fault it gives, or records nothing
(40_ring_buffer R109). -/
def Obligations.RingBufferPrologue : Prop :=
  ∀ (s : State) (i : Instr) (b : Byte) (op : Opcode), i.instanceNo = some b → i.opcode = some op →
    CheckedByRBCheck s op b (exec i s) ∧
    (s.MayIssue op b → ∀ t, exec i s = .next t → t.faults = s.faults)

/-- The occupancy is a function of the cursors alone; empty and full by the cursors (10_state R27). -/
def Obligations.CountAndSpaceOfCursors : Prop :=
  ∀ (p : RBParams) (r : RB), 2 ≤ p.capacity → RB.CursorsLegal p r →
    (occupied p.capacity r : Int) = ((r.wr : Int) - r.rd) % p.capacity ∧
    freeSlots p.capacity r = (p.capacity - 1) - occupied p.capacity r ∧
    occupied p.capacity r ≤ p.capacity - 1 ∧
    occupied p.capacity r + freeSlots p.capacity r = p.capacity - 1 ∧
    (occupied p.capacity r = 0 ↔ r.wr = r.rd) ∧
    (occupied p.capacity r = p.capacity - 1 ↔ (r.wr + 1) % p.capacity = r.rd)

/-- RB_COUNT (40_ring_buffer R110). -/
def Obligations.RbCountResult : Prop :=
  ∀ (s : State) (b : Byte), CheckedByRBCheck s .rbCount b (exec (.rbCount b) s) ∧
    (s.Inv → s.MayIssue .rbCount b →
      ∃ t, exec (.rbCount b) s = .next t ∧ OnlyReplies s t ∧
        ((s.rb b.toNat).rd ≤ (s.rb b.toNat).wr →
          Replied s t .rbCount (some b) (.count ((s.rb b.toNat).wr - (s.rb b.toNat).rd))) ∧
        ((s.rb b.toNat).wr < (s.rb b.toNat).rd →
          Replied s t .rbCount (some b)
            (.count ((s.rb b.toNat).wr + (s.par b.toNat).capacity - (s.rb b.toNat).rd))))

/-- RB_SPACE (40_ring_buffer R111). -/
def Obligations.RbSpaceResult : Prop :=
  ∀ (s : State) (b : Byte), CheckedByRBCheck s .rbSpace b (exec (.rbSpace b) s) ∧
    (s.Inv → s.MayIssue .rbSpace b →
      ∃ t, exec (.rbSpace b) s = .next t ∧ OnlyReplies s t ∧
        ((s.rb b.toNat).rd ≤ (s.rb b.toNat).wr →
          Replied s t .rbSpace (some b)
            (.count ((s.par b.toNat).capacity - 1 - ((s.rb b.toNat).wr - (s.rb b.toNat).rd)))) ∧
        ((s.rb b.toNat).wr < (s.rb b.toNat).rd →
          Replied s t .rbSpace (some b) (.count ((s.rb b.toNat).rd - (s.rb b.toNat).wr - 1))))

/-- RB_PUSH (40_ring_buffer R112): with space, the item in the slot at `WR` and the cursor on; full, nothing. -/
def Obligations.RbPushResult : Prop :=
  ∀ (s : State) (b : Byte) (item : Elem), CheckedByRBCheck s .rbPush b (exec (.rbPush b item) s) ∧
    (s.Inv → s.MayIssue .rbPush b → (Instr.rbPush b item).wellFormed s.cfg = true →
      (occupied (s.par b.toNat).capacity (s.rb b.toNat) = (s.par b.toNat).capacity - 1 →
        ∃ t, exec (.rbPush b item) s = .next t ∧ OnlyReplies s t ∧ Replied s t .rbPush (some b) (.ok false)) ∧
      (occupied (s.par b.toNat).capacity (s.rb b.toNat) ≠ (s.par b.toNat).capacity - 1 →
        ∃ t, exec (.rbPush b item) s = .next t ∧ OnlyRing b.toNat s t ∧ Replied s t .rbPush (some b) (.ok true) ∧
          (t.rb b.toNat).wr = ((s.rb b.toNat).wr + 1) % (s.par b.toNat).capacity ∧
          (t.rb b.toNat).rd = (s.rb b.toNat).rd ∧
          Memory.read (t.rb b.toNat).store (s.rb b.toNat).wr = some item ∧
          ∀ j, j ≠ (s.rb b.toNat).wr →
            Memory.read (t.rb b.toNat).store j = Memory.read (s.rb b.toNat).store j))

/-- RB_PUSHN (40_ring_buffer R113): `k = min(n, space)` items from `WR` on, wrapping, the rest dropped. -/
def Obligations.RbPushNResult : Prop :=
  ∀ (s : State) (b : Byte) (items : List Elem), CheckedByRBCheck s .rbPushN b (exec (.rbPushN b items) s) ∧
    (s.Inv → s.MayIssue .rbPushN b → (Instr.rbPushN b items).wellFormed s.cfg = true →
      ∀ k, k = min items.length (freeSlots (s.par b.toNat).capacity (s.rb b.toNat)) →
      ∃ t, exec (.rbPushN b items) s = .next t ∧ OnlyRing b.toNat s t ∧ Replied s t .rbPushN (some b) (.pushed k) ∧
        (t.rb b.toNat).wr = ((s.rb b.toNat).wr + k) % (s.par b.toNat).capacity ∧
        (t.rb b.toNat).rd = (s.rb b.toNat).rd ∧
        (∀ j, j < k →
          Memory.read (t.rb b.toNat).store (((s.rb b.toNat).wr + j) % (s.par b.toNat).capacity) = items[j]?) ∧
        ∀ j, (∀ l, l < k → j ≠ ((s.rb b.toNat).wr + l) % (s.par b.toNat).capacity) →
          Memory.read (t.rb b.toNat).store j = Memory.read (s.rb b.toNat).store j)

/-- RB_PUSHN leaves the state that RB_PUSH of its first `k` items, one after another, leaves, but for the responses
(40_ring_buffer R113). -/
def Obligations.RbPushNIsRepeatedPush : Prop :=
  ∀ (s : State) (b : Byte) (items : List Elem), s.Inv → s.MayIssue .rbPushN b →
    ∃ t u, exec (.rbPushN b items) s = .next t ∧
      execAll ((items.take (freeSlots (s.par b.toNat).capacity (s.rb b.toNat))).map (Instr.rbPush b)) s = .next u ∧
      { t with replies := [] } = { u with replies := [] } ∧
      u.replies = s.replies ++ List.replicate
        (min items.length (freeSlots (s.par b.toNat).capacity (s.rb b.toNat)))
        ⟨s.ctx, Opcode.rbPush.byte, some b, .ok true⟩

/-- RB_PEEK (40_ring_buffer R114). -/
def Obligations.RbPeekResult : Prop :=
  ∀ (s : State) (b : Byte), CheckedByRBCheck s .rbPeek b (exec (.rbPeek b) s) ∧
    (s.Inv → s.MayIssue .rbPeek b →
      ((s.rb b.toNat).wr = (s.rb b.toNat).rd →
        ∃ t, exec (.rbPeek b) s = .next t ∧ OnlyReplies s t ∧ Replied s t .rbPeek (some b) (.item false none)) ∧
      ((s.rb b.toNat).wr ≠ (s.rb b.toNat).rd →
        ∃ t v, exec (.rbPeek b) s = .next t ∧ OnlyReplies s t ∧
          Memory.read (s.rb b.toNat).store (s.rb b.toNat).rd = some v ∧ v < 2 ^ (s.par b.toNat).width ∧
          Replied s t .rbPeek (some b) (.item true (some v))))

/-- RB_POP (40_ring_buffer R115): the slot keeps its value. -/
def Obligations.RbPopResult : Prop :=
  ∀ (s : State) (b : Byte), CheckedByRBCheck s .rbPop b (exec (.rbPop b) s) ∧
    (s.Inv → s.MayIssue .rbPop b →
      ((s.rb b.toNat).wr = (s.rb b.toNat).rd →
        ∃ t, exec (.rbPop b) s = .next t ∧ OnlyReplies s t ∧ Replied s t .rbPop (some b) (.item false none)) ∧
      ((s.rb b.toNat).wr ≠ (s.rb b.toNat).rd →
        ∃ t v, exec (.rbPop b) s = .next t ∧ OnlyRing b.toNat s t ∧
          Memory.read (s.rb b.toNat).store (s.rb b.toNat).rd = some v ∧ v < 2 ^ (s.par b.toNat).width ∧
          Replied s t .rbPop (some b) (.item true (some v)) ∧
          (t.rb b.toNat).rd = ((s.rb b.toNat).rd + 1) % (s.par b.toNat).capacity ∧
          (t.rb b.toNat).wr = (s.rb b.toNat).wr ∧ (t.rb b.toNat).store = (s.rb b.toNat).store))

/-- RB_SKIP (40_ring_buffer R116). -/
def Obligations.RbSkipResult : Prop :=
  ∀ (s : State) (b : Byte), CheckedByRBCheck s .rbSkip b (exec (.rbSkip b) s) ∧
    (s.Inv → s.MayIssue .rbSkip b →
      ((s.rb b.toNat).wr = (s.rb b.toNat).rd →
        ∃ t, exec (.rbSkip b) s = .next t ∧ OnlyReplies s t ∧ Replied s t .rbSkip (some b) (.ok false)) ∧
      ((s.rb b.toNat).wr ≠ (s.rb b.toNat).rd →
        ∃ t, exec (.rbSkip b) s = .next t ∧ OnlyRing b.toNat s t ∧ Replied s t .rbSkip (some b) (.ok true) ∧
          (t.rb b.toNat).rd = ((s.rb b.toNat).rd + 1) % (s.par b.toNat).capacity ∧
          (t.rb b.toNat).wr = (s.rb b.toNat).wr ∧ (t.rb b.toNat).store = (s.rb b.toNat).store))

/-- RB_CLEAR (40_ring_buffer R117). -/
def Obligations.RbClearResult : Prop :=
  ∀ (s : State) (b : Byte), CheckedByRBCheck s .rbClear b (exec (.rbClear b) s) ∧
    (s.Inv → s.MayIssue .rbClear b →
      ∃ t, exec (.rbClear b) s = .next t ∧ OnlyRing b.toNat s t ∧ Replied s t .rbClear (some b) .ack ∧
        (t.rb b.toNat).rd = (s.rb b.toNat).wr ∧ (t.rb b.toNat).wr = (s.rb b.toNat).wr ∧
        (t.rb b.toNat).store = (s.rb b.toNat).store ∧
        occupied (s.par b.toNat).capacity (t.rb b.toNat) = 0)

/-- An instance is a first-in first-out queue of at most `C - 1` elements (20_memory R62, 40_ring_buffer R118). -/
def Obligations.RingBufferIsAQueue : Prop :=
  ∀ (s : State) (b : Byte), s.Inv →
    (∀ item, s.MayIssue .rbPush b → (Instr.rbPush b item).wellFormed s.cfg = true →
      (RB.queue (s.par b.toNat) (s.rb b.toNat)).length < (s.par b.toNat).capacity - 1 →
      ∃ t, exec (.rbPush b item) s = .next t ∧
        RB.queue (s.par b.toNat) (t.rb b.toNat) = RB.queue (s.par b.toNat) (s.rb b.toNat) ++ [some item]) ∧
    (∀ items, s.MayIssue .rbPushN b → (Instr.rbPushN b items).wellFormed s.cfg = true →
      ∃ t, exec (.rbPushN b items) s = .next t ∧
        RB.queue (s.par b.toNat) (t.rb b.toNat) = RB.queue (s.par b.toNat) (s.rb b.toNat) ++
          (items.take ((s.par b.toNat).capacity - 1 - (RB.queue (s.par b.toNat) (s.rb b.toNat)).length)).map some) ∧
    (∀ x rest, RB.queue (s.par b.toNat) (s.rb b.toNat) = x :: rest →
      (s.MayIssue .rbPeek b →
        ∃ t, exec (.rbPeek b) s = .next t ∧ Replied s t .rbPeek (some b) (.item true x) ∧
          RB.queue (s.par b.toNat) (t.rb b.toNat) = x :: rest) ∧
      (s.MayIssue .rbPop b →
        ∃ t, exec (.rbPop b) s = .next t ∧ Replied s t .rbPop (some b) (.item true x) ∧
          RB.queue (s.par b.toNat) (t.rb b.toNat) = rest) ∧
      (s.MayIssue .rbSkip b →
        ∃ t, exec (.rbSkip b) s = .next t ∧ RB.queue (s.par b.toNat) (t.rb b.toNat) = rest)) ∧
    (s.MayIssue .rbClear b →
      ∃ t, exec (.rbClear b) s = .next t ∧ RB.queue (s.par b.toNat) (t.rb b.toNat) = [])

/-- `C - 1` pushes into an empty buffer all succeed; the next fails and leaves the state unchanged (40_ring_buffer
R118). -/
def Obligations.BufferFillsToCapacityMinusOne : Prop :=
  ∀ (s : State) (b : Byte) (items : List Elem) (item : Elem), s.Inv → s.MayIssue .rbPush b →
    (s.rb b.toNat).wr = (s.rb b.toNat).rd → items.length = (s.par b.toNat).capacity - 1 →
    ∃ t u, execAll (items.map (Instr.rbPush b)) s = .next t ∧
      t.replies = s.replies ++
        List.replicate ((s.par b.toNat).capacity - 1) ⟨s.ctx, Opcode.rbPush.byte, some b, .ok true⟩ ∧
      exec (.rbPush b item) t = .next u ∧ Replied t u .rbPush (some b) (.ok false) ∧ OnlyReplies t u

/-- Between two RB_PEEKs a push by the producer changes nothing the consumer reads from a non-empty buffer
(40_ring_buffer R114). -/
def Obligations.PeekIsStableUnderPush : Prop :=
  ∀ (s u : State) (b : Byte) (items : List Elem) (v : Elem), s.Inv → s.MayIssue .rbPeek b →
    (s.rb b.toNat).wr ≠ (s.rb b.toNat).rd → Memory.read (s.rb b.toNat).store (s.rb b.toNat).rd = some v →
    exec (.rbPushN b items) { s with ctx := (s.par b.toNat).prodOwner } = .next u →
    ∃ t, exec (.rbPeek b) { u with ctx := s.ctx } = .next t ∧
      t.replies = u.replies ++ [⟨s.ctx, Opcode.rbPeek.byte, some b, .item true (some v)⟩]

/-- No command on one instance reads or writes another instance (10_state R23): with instance `b'` replaced by anything,
a command on `b` does the same and leaves `b'` as it is. -/
def Obligations.InstancesAreIndependent : Prop :=
  ∀ (s t : State) (i : Instr) (b : Byte) (b' : Nat) (r' : RB), i.instanceNo = some b → b' ≠ b.toNat →
    exec i s = .next t →
    t.rb b' = s.rb b' ∧ exec i (s.setRb b' r') = .next (t.setRb b' r')

/-- Only the producer moves a write cursor or stores in a ring buffer, only the consumer moves a read cursor, each by the
commands named (10_state R24, R25, R26). -/
def Obligations.CursorsMoveByOwnersOnly : Prop :=
  ∀ (s t : State) (i : Instr) (b : Nat), exec i s = .next t →
    ((t.rb b).wr ≠ (s.rb b).wr ∨ (t.rb b).store ≠ (s.rb b).store →
      s.ctx = (s.par b).prodOwner ∧
      ((∃ b8 item, i = .rbPush b8 item ∧ b8.toNat = b) ∨ ∃ b8 items, i = .rbPushN b8 items ∧ b8.toNat = b)) ∧
    ((t.rb b).rd ≠ (s.rb b).rd →
      s.ctx = (s.par b).consOwner ∧
      ∃ b8, b8.toNat = b ∧ (i = .rbPop b8 ∨ i = .rbSkip b8 ∨ i = .rbClear b8))

/-! ## The sequencer and the byte sink -/

/-- SEQ_RESET (41_sequencer R141). -/
def Obligations.SeqResetResult : Prop :=
  ∀ s : State, ∃ t, exec .seqReset s = .next t ∧ t.seq = 0 ∧ Replied s t .seqReset none .ack ∧
    SameRings s t ∧ SameDP s t ∧ SameAround s t ∧ SameFaults s t ∧ t.out = s.out ∧ t.sink = s.sink ∧
    t.sinkDraws = s.sinkDraws

/-- `SEQ` advances by one modulo 256 with every packet write whatever the sink accepts, is 0 after SEQ_RESET, and no
other command changes it (10_state R29, 41_sequencer R143). -/
def Obligations.SequenceCounterWriters : Prop :=
  ∀ (s t : State) (i : Instr), exec i s = .next t →
    (i.isPacketWrite = true → t.seq.toNat = (s.seq.toNat + 1) % 256) ∧
    (i = .seqReset → t.seq = 0) ∧
    (i.isPacketWrite = false → i ≠ .seqReset → t.seq = s.seq)

/-- Over any run of instructions without SEQ_RESET, `SEQ` counts the packet writes of all kinds modulo 256 (41_sequencer
R147). Of a run that records a fault this is what the model does, and no claim may rely on it (60_exceptions R202);
FinalRunsAreObserved says it of final runs. -/
def Obligations.SequenceCountsPacketWrites : Prop :=
  ∀ (is : List Instr) (s t : State), Instr.seqReset ∉ is → execAll is s = .next t →
    t.seq.toNat = (s.seq.toNat + (is.filter Instr.isPacketWrite).length) % 256

/-- OUT only grows, at its end, by packet writes, and by as many bytes as the write returns (10_state R35, 20_memory
R50). -/
def Obligations.OutputOnlyGrows : Prop :=
  ∀ (s t : State) (i : Instr), exec i s = .next t →
    (i.isPacketWrite = false → t.out = s.out) ∧
    (i.isPacketWrite = true → ∃ bs op, t.out = s.out ++ bs ∧ i.opcode = some op ∧
      Replied s t op none (.total bs.length))

/-! ## Time packets -/

/-- TP_WRITE (43_time R190): whatever the sink accepts, OUT gains the accepted prefixes of the packet's pieces, the total
is their length, one sequence number is used and no fault is recorded; with whole acceptance OUT gains the packet. -/
def Obligations.TpWriteResult : Prop :=
  ∀ (s : State) (req : Byte) (ts : Stamp) (pieces : List (List Byte)),
    pieces = [[s.cfg.magic0, s.cfg.magic1], [0x4E], [s.seq], [req], enc s.cfg.byteOrder ts 4] →
    ∃ t answers, exec (.tpWrite req ts) s = .next t ∧ OnlyStream s t ∧ t.seq = s.seq + 1 ∧
      s.MayAnswer answers pieces ∧ t.out = s.out ++ acceptedBy answers pieces ∧
      Replied s t .tpWrite none (.total (acceptedBy answers pieces).length) ∧
      (acceptsWhole s.sink pieces = true →
        t.out = s.out ++ ([s.cfg.magic0, s.cfg.magic1, 0x4E, s.seq, req] ++ enc s.cfg.byteOrder ts 4) ∧
        Replied s t .tpWrite none (.total 9))

/-- FST_WRITE (43_time R191), as TP_WRITE. -/
def Obligations.FstWriteResult : Prop :=
  ∀ (s : State) (ts : Stamp) (pieces : List (List Byte)),
    pieces = [[s.cfg.magic0, s.cfg.magic1], [0x46], [s.seq], enc s.cfg.byteOrder ts 4] →
    ∃ t answers, exec (.fstWrite ts) s = .next t ∧ OnlyStream s t ∧ t.seq = s.seq + 1 ∧
      s.MayAnswer answers pieces ∧ t.out = s.out ++ acceptedBy answers pieces ∧
      Replied s t .fstWrite none (.total (acceptedBy answers pieces).length) ∧
      (acceptsWhole s.sink pieces = true →
        t.out = s.out ++ ([s.cfg.magic0, s.cfg.magic1, 0x46, s.seq] ++ enc s.cfg.byteOrder ts 4) ∧
        Replied s t .fstWrite none (.total 8))

/-- LUF_WRITE (43_time R192), as TP_WRITE: the base fields and two more under its own tag, one sequence number. -/
def Obligations.LufWriteResult : Prop :=
  ∀ (s : State) (req : Byte) (ts : Stamp) (fid : Half) (fts : Stamp) (pieces : List (List Byte)),
    pieces = [[s.cfg.magic0, s.cfg.magic1], [0x4C], [s.seq], [req], enc s.cfg.byteOrder ts 4,
      enc s.cfg.byteOrder fid 2, enc s.cfg.byteOrder fts 4] →
    ∃ t answers, exec (.lufWrite req ts fid fts) s = .next t ∧ OnlyStream s t ∧ t.seq = s.seq + 1 ∧
      s.MayAnswer answers pieces ∧ t.out = s.out ++ acceptedBy answers pieces ∧
      Replied s t .lufWrite none (.total (acceptedBy answers pieces).length) ∧
      (acceptsWhole s.sink pieces = true →
        t.out = s.out ++ ([s.cfg.magic0, s.cfg.magic1, 0x4C, s.seq, req] ++ enc s.cfg.byteOrder ts 4 ++
          enc s.cfg.byteOrder fid 2 ++ enc s.cfg.byteOrder fts 4) ∧
        Replied s t .lufWrite none (.total 15))

/-- The bytes of a wire field in each order (00_scope R13): byte `k` is bits `8k+7..8k` for LE, counted from the other
end for BE. -/
def Obligations.FieldBytesInEachOrder : Prop :=
  ∀ (w : Nat) (v : BitVec w) (n k : Nat), k < n →
    (enc .le v n)[k]? = some (BitVec.ofNat 8 (v.toNat / 2 ^ (8 * k))) ∧
    (enc .be v n)[k]? = some (BitVec.ofNat 8 (v.toNat / 2 ^ (8 * (n - 1 - k)))) ∧
    (enc .le v n).length = n ∧ (enc .be v n).length = n

/-- Bytes 4 to 8 of an `L` packet are laid out as those of an `N` packet with the same fields (43_time R193). -/
def Obligations.BaseTimeFieldsAreShared : Prop :=
  ∀ (c : Config) (m n q m' n' q' : Byte) (req : Byte) (ts : Stamp) (fid : Half) (fts : Stamp),
    ((encode c (.pktL m n q req ts fid fts)).drop 4).take 5 = ((encode c (.pktN m' n' q' req ts)).drop 4).take 5 ∧
    ((encode c (.pktN m' n' q' req ts)).drop 4).take 5 = req :: enc c.byteOrder ts 4

/-! ## DataPacket -/

/-- DP_CONFIG (42_data_packet R160). -/
def Obligations.DpConfigResult : Prop :=
  ∀ (s : State) (n : Half),
    (1 ≤ n.toNat → n.toNat ≤ s.cfg.maxPoints →
      ∃ t, exec (.dpConfig n) s = .next t ∧ t.dpPPP = n.toNat ∧ t.dpIDX = s.dpIDX ∧ t.dpSTATE = s.dpSTATE ∧
        t.dpS = s.dpS ∧ OnlyDP s t ∧ Replied s t .dpConfig none .ack) ∧
    (n.toNat < 1 ∨ s.cfg.maxPoints < n.toNat →
      ∃ t, exec (.dpConfig n) s = .next t ∧ StopsWith s t .dpConfig none .configOutOfRange (.count n))

/-- DP_RESET (42_data_packet R161). -/
def Obligations.DpResetResult : Prop :=
  ∀ s : State, ∃ t, exec .dpReset s = .next t ∧ t.dpIDX = 0 ∧ t.dpSTATE = .empty ∧ t.dpPPP = s.dpPPP ∧
    t.dpS = s.dpS ∧ OnlyDP s t ∧ Replied s t .dpReset none .ack

/-- DP_ADD (42_data_packet R162, R159). -/
def Obligations.DpAddResult : Prop :=
  ∀ (s : State) (ch : Byte) (v : Sample), s.Inv →
    (s.cfg.ch ≤ ch.toNat →
      ∃ t, exec (.dpAdd ch v) s = .next t ∧ StopsWith s t .dpAdd none .channelOutOfRange (.channel ch)) ∧
    (ch.toNat < s.cfg.ch → s.dpPPP ≤ s.dpIDX →
      ∃ t, exec (.dpAdd ch v) s = .next t ∧ OnlyReplies s t ∧ Replied s t .dpAdd none (.ok false)) ∧
    (ch.toNat < s.cfg.ch → s.dpIDX < s.dpPPP →
      ∃ t, exec (.dpAdd ch v) s = .next t ∧ OnlyDP s t ∧ Replied s t .dpAdd none (.ok true) ∧
        t.dpRead s.dpIDX ch.toNat = some v ∧
        (∀ p c, c < s.cfg.ch → ¬(p = s.dpIDX ∧ c = ch.toNat) → t.dpRead p c = s.dpRead p c) ∧
        t.dpPPP = s.dpPPP ∧ t.dpIDX = s.dpIDX ∧
        t.dpSTATE = if s.dpSTATE = .written then .written else .filling)

/-- A second DP_ADD to the same point and channel overwrites the first: but for the responses the state is as if only
the second had been issued (42_data_packet R162: "last write wins"). -/
def Obligations.LastSampleWins : Prop :=
  ∀ (s t u w : State) (ch : Byte) (v v' : Sample), s.Inv →
    exec (.dpAdd ch v) s = .next t → exec (.dpAdd ch v') t = .next u → exec (.dpAdd ch v') s = .next w →
    { u with replies := [] } = { w with replies := [] }

/-- DP_ADVANCE (42_data_packet R163, R159). -/
def Obligations.DpAdvanceResult : Prop :=
  ∀ s : State,
    (s.dpIDX = s.cfg.maxPoints →
      ∃ t, exec .dpAdvance s = .next t ∧ StopsWith s t .dpAdvance none .pointOverflow .none) ∧
    (s.dpIDX ≠ s.cfg.maxPoints →
      ∃ t, exec .dpAdvance s = .next t ∧ OnlyDP s t ∧ Replied s t .dpAdvance none .ack ∧
        t.dpIDX = s.dpIDX + 1 ∧ t.dpPPP = s.dpPPP ∧ t.dpS = s.dpS ∧
        t.dpSTATE = if s.dpSTATE = .written then .written
          else if s.dpPPP ≤ s.dpIDX + 1 then .ready else .filling)

/-- DP_WRITE in every legal state, whatever the sink accepts (42_data_packet R164): exactly its faults are recorded, the
payload holds every written sample of every configured point in its place (an unwritten cell's two bytes are free), OUT
gains the accepted prefixes, and the registers change as stated. -/
def Obligations.DpWriteResult : Prop :=
  ∀ s : State, s.Inv →
    ∃ t answers payload pieces, exec .dpWrite s = .next t ∧
      payload.length = s.dpPPP * s.cfg.ch * 2 ∧
      (∀ p c v, p < s.dpPPP → c < s.cfg.ch → s.dpRead p c = some v →
        (payload.drop (2 * (p * s.cfg.ch + c))).take 2 = enc s.cfg.byteOrder v 2) ∧
      pieces = [[s.cfg.magic0, s.cfg.magic1], [if s.dpPPP = 1 then 0x44 else 0x4D], [s.seq], payload] ∧
      s.MayAnswer answers pieces ∧ t.out = s.out ++ acceptedBy answers pieces ∧
      Replied s t .dpWrite none (.total (acceptedBy answers pieces).length) ∧
      (∀ f, f ∈ t.faults ↔ f ∈ s.faults ∨
        (s.dpSTATE = .empty ∧ f = ⟨.writeEmpty, 0x24, s.ctx, .none⟩) ∨
        (s.dpSTATE = .written ∧ f = ⟨.packetReuse, 0x24, s.ctx, .none⟩) ∨
        ∃ p c, p < s.dpPPP ∧ c < s.cfg.ch ∧ s.dpRead p c = none ∧
          f = ⟨.undefinedSample, 0x24, s.ctx, .cell p c⟩) ∧
      t.seq = s.seq + 1 ∧ t.dpSTATE = .written ∧ t.dpIDX = s.dpIDX ∧ t.dpPPP = s.dpPPP ∧ t.dpS = s.dpS ∧
      SameRings s t ∧ SameAround s t

/-- The tag and length law (42_data_packet R165): a packet of `N` points has tag `D` for one and `M` for more and a
payload of `N CH 2` bytes; with full sink acceptance the total is `4 + 2 N CH`, and where every sample is written OUT
gains exactly the packet of their bytes. -/
def Obligations.DpWriteTagAndLength : Prop :=
  ∀ (s : State) (a0 a1 a2 a3 : Nat) (answers : List Nat), s.Inv → s.sink = a0 :: a1 :: a2 :: a3 :: answers →
    2 ≤ a0 → 1 ≤ a1 → 1 ≤ a2 → s.dpPPP * s.cfg.ch * 2 ≤ a3 →
    ∃ t tag payload, exec .dpWrite s = .next t ∧
      (s.dpPPP = 1 → tag = 0x44) ∧ (1 < s.dpPPP → tag = 0x4D) ∧
      payload.length = s.dpPPP * s.cfg.ch * 2 ∧
      t.out = s.out ++ ([s.cfg.magic0, s.cfg.magic1, tag, s.seq] ++ payload) ∧
      Replied s t .dpWrite none (.total (4 + 2 * s.dpPPP * s.cfg.ch)) ∧
      (s.SamplesWritten → payload = encSamples s.cfg.byteOrder s.samples)

/-- The state transitions of the DataPacket, complete (42_data_packet R166). -/
def Obligations.DataPacketTransitions : Prop :=
  ∀ (s t : State) (i : Instr), exec i s = .next t →
    (∀ ch v, i = .dpAdd ch v →
      (ch.toNat < s.cfg.ch → s.dpIDX < s.dpPPP → s.dpSTATE ≠ .written →
        t.dpSTATE = if t.dpIDX < t.dpPPP then .filling else .ready) ∧
      (s.cfg.ch ≤ ch.toNat ∨ s.dpPPP ≤ s.dpIDX ∨ s.dpSTATE = .written → t.dpSTATE = s.dpSTATE)) ∧
    (i = .dpAdvance →
      (s.dpIDX ≠ s.cfg.maxPoints → s.dpSTATE ≠ .written →
        t.dpSTATE = if t.dpIDX < t.dpPPP then .filling else .ready) ∧
      (s.dpIDX = s.cfg.maxPoints ∨ s.dpSTATE = .written → t.dpSTATE = s.dpSTATE)) ∧
    (i = .dpWrite → t.dpSTATE = .written ∧
      (s.dpSTATE = .empty → ⟨.writeEmpty, 0x24, s.ctx, .none⟩ ∈ t.faults) ∧
      (s.dpSTATE = .written → ⟨.packetReuse, 0x24, s.ctx, .none⟩ ∈ t.faults)) ∧
    (i = .dpReset → t.dpSTATE = .empty) ∧
    ((∀ ch v, i ≠ .dpAdd ch v) → i ≠ .dpAdvance → i ≠ .dpWrite → i ≠ .dpReset → t.dpSTATE = s.dpSTATE)

/-- The DataPacket registers and storage change by the commands 10_state R34 names only. -/
def Obligations.DataPacketWriters : Prop :=
  ∀ (s t : State) (i : Instr), exec i s = .next t →
    (t.dpPPP ≠ s.dpPPP → ∃ n, i = .dpConfig n) ∧
    (t.dpIDX ≠ s.dpIDX → i = .dpAdvance ∨ i = .dpReset) ∧
    (t.dpS ≠ s.dpS → ∃ ch v, i = .dpAdd ch v)

/-! ## Faults and responses -/

/-- FAULTS is never cleared, by any command or by reset (60_exceptions R203): its records stay, in their order. -/
def Obligations.FaultsAreNeverCleared : Prop :=
  ∀ s t : State, step s = .next t → s.faults <+: t.faults

/-- No command's result depends on FAULTS (10_state R36): with any other set of records, a command does the same but for
the records. -/
def Obligations.FaultsSteerNothing : Prop :=
  ∀ (s t : State) (i : Instr) (fs : List FaultRecord), exec i s = .next t →
    ∃ fs', exec i { s with faults := fs } = .next { t with faults := fs' }

/-- Each command returns exactly one response, of the form its row of 30_encoding R97 gives or carrying no value. A wire
packet is answered by none: R97 speaks of commands only, and that part is the model's receiver (log 12, DESIGN CHOICE). -/
def Obligations.OneResponsePerCommand : Prop :=
  ∀ (s t : State) (i : Instr), exec i s = .next t →
    (i.isCommand = false → t.replies = s.replies) ∧
    (∀ op, i.opcode = some op → ∃ r, Replied s t op i.instanceNo r ∧
      (r = .noValue ∨
        match op with
        | .rbCount | .rbSpace => ∃ n, r = .count n
        | .rbPush | .rbSkip | .dpAdd => ∃ b, r = .ok b
        | .rbPushN => ∃ k, r = .pushed k
        | .rbPeek | .rbPop => (∃ v, r = .item true v ∧ (s.Inv → v.isSome = true)) ∨ r = .item false none
        | .rbClear | .seqReset | .dpConfig | .dpReset | .dpAdvance => r = .ack
        | .dpWrite | .tpWrite | .fstWrite | .lufWrite => ∃ n, r = .total n))

/-- EmptyRead (60_exceptions R204, code 10): a context that uses the data of its last RB_PEEK or RB_POP on an instance
after `ok = 0` gets the record and no block effect; after `ok = 1` nothing is recorded (as a request of its own: log
14). -/
def Obligations.EmptyReadIsRecorded : Prop :=
  ∀ (s : State) (ctx : Ctx) (b op : Byte) (ok : Bool) (d : Option Elem) (before after : List Reply) (q : List Request),
    s.cfg.WF → s.port = .useData ctx b :: q → ctx ∈ s.cfg.ctxs →
    op = Opcode.rbPeek.byte ∨ op = Opcode.rbPop.byte →
    s.replies = before ++ ⟨ctx, op, some b, .item ok d⟩ :: after → (∀ r ∈ after, r.isReadOf ctx b = false) →
    ∃ t, step s = .next t ∧ SameBlock s t ∧ t.replies = s.replies ∧ t.port = q ∧
      (ok = false → ∀ f, f ∈ t.faults ↔ f ∈ s.faults ∨ f = ⟨.emptyRead, op, ctx, .inst b⟩) ∧
      (ok = true → t.faults = s.faults)

/-! ## The receiver -/

/-- A packet before the receiver: with the magic prefix and a packet before it, the receiver concludes
`(s - s_prev - 1) mod 256` (41_sequencer R150). The receiver's state is the model's (log 12); the block and its output
are untouched. -/
def Obligations.ReceiverConcludesTheGap : Prop :=
  ∀ (s : State) (i : Instr) (m n q : Byte),
    ((∃ l, i = .pktD m n q l) ∨ (∃ l, i = .pktM m n q l) ∨ (∃ r ts, i = .pktN m n q r ts) ∨
      (∃ ts, i = .pktF m n q ts) ∨ ∃ r ts f fts, i = .pktL m n q r ts f fts) →
    ∃ t, exec i s = .next t ∧ SameBlock s t ∧ SameStream s t ∧ SameFaults s t ∧ t.replies = s.replies ∧
      t.cfg = s.cfg ∧ t.port = s.port ∧ t.ctx = s.ctx ∧
      (m = s.cfg.magic0 → n = s.cfg.magic1 → t.rxSeq = some q ∧
        (s.rxSeq = none → t.rxGaps = s.rxGaps) ∧
        ∀ prev, s.rxSeq = some prev → ∃ g : Byte, t.rxGaps = s.rxGaps ++ [g] ∧
          (g.toNat : Int) = ((q.toNat : Int) - prev.toNat - 1) % 256) ∧
      (m ≠ s.cfg.magic0 ∨ n ≠ s.cfg.magic1 → t = s)

/-- What a packet write adds to OUT when the sink accepts every piece whole is the packet a receiver decodes back, with
every field as it was given (30_encoding R80 to R88, 41_sequencer R146). -/
def Obligations.EmittedPacketsDecode : Prop :=
  ∀ (s t : State), s.Inv →
    (∀ req ts ppp, acceptsWhole s.sink (headerPieces s.cfg .n s.seq ++ [[req], enc s.cfg.byteOrder ts 4]) = true →
      exec (.tpWrite req ts) s = .next t →
      decodePacket s.cfg ppp (t.out.drop s.out.length) = some (.pktN s.cfg.magic0 s.cfg.magic1 s.seq req ts)) ∧
    (∀ ts ppp, acceptsWhole s.sink (headerPieces s.cfg .f s.seq ++ [enc s.cfg.byteOrder ts 4]) = true →
      exec (.fstWrite ts) s = .next t →
      decodePacket s.cfg ppp (t.out.drop s.out.length) = some (.pktF s.cfg.magic0 s.cfg.magic1 s.seq ts)) ∧
    (∀ req ts fid fts ppp,
      acceptsWhole s.sink (headerPieces s.cfg .l s.seq ++
        [[req], enc s.cfg.byteOrder ts 4, enc s.cfg.byteOrder fid 2, enc s.cfg.byteOrder fts 4]) = true →
      exec (.lufWrite req ts fid fts) s = .next t →
      decodePacket s.cfg ppp (t.out.drop s.out.length) =
        some (.pktL s.cfg.magic0 s.cfg.magic1 s.seq req ts fid fts)) ∧
    (s.SamplesWritten →
      acceptsWhole s.sink (headerPieces s.cfg (dataTag s.dpPPP) s.seq ++ [encSamples s.cfg.byteOrder s.samples]) =
        true →
      exec .dpWrite s = .next t →
      decodePacket s.cfg s.dpPPP (t.out.drop s.out.length) = some s.dataPacket)

/-- Loss detection end to end: when the receiver has decoded the packet before, and the block then writes `j < 256`
packets that are lost before one that arrives, of any tag, the receiver, whose state is the model's (log 12), concludes
the gap `j` (41_sequencer R147, R150). Where the lost writes record a fault this is what the model does, and no claim may
rely on it (60_exceptions R202). -/
def Obligations.LostPacketsAreCounted : Prop :=
  ∀ (s t : State) (is : List Instr) (i : Instr) (m n : Byte),
    (∀ j ∈ is, j.isCommand = true) → Instr.seqReset ∉ is → (is.filter Instr.isPacketWrite).length < 256 →
    s.rxSeq = some (s.seq - 1) → execAll is s = .next t → m = t.cfg.magic0 → n = t.cfg.magic1 →
    ((∃ l, i = .pktD m n t.seq l) ∨ (∃ l, i = .pktM m n t.seq l) ∨ (∃ r ts, i = .pktN m n t.seq r ts) ∨
      (∃ ts, i = .pktF m n t.seq ts) ∨ ∃ r ts f fts, i = .pktL m n t.seq r ts f fts) →
    ∃ u, exec i t = .next u ∧ u.rxSeq = some t.seq ∧
      u.rxGaps = s.rxGaps ++ [BitVec.ofNat 8 (is.filter Instr.isPacketWrite).length]

/-! ## The end of a run -/

/-- A run with a fault is never final (60_exceptions R202, decision D30): from a state with a record in FAULTS no number
of steps leads to a final state or to an observation, so a final run recorded no fault at any of its steps. That a final
run has no request left is log 27. -/
def Obligations.FaultedRunsAreNeverFinal : Prop :=
  (∀ (k : Nat) (s t : State), ¬ s.InContract → Sys2Proof.core.run k s = .next t → ¬ t.Final ∧ t.observe = none) ∧
  ∀ (j k : Nat) (s t : State), Sys2Proof.core.run (j + k) s = .next t → t.Final →
    ∃ u : State, Sys2Proof.core.run j s = .next u ∧ u.InContract

/-- What a run of commands is observed to be (60_exceptions R214): from a legal state that has recorded no fault, well-formed
commands from contexts of `CTX` take one step each (R213). If none of them records a fault the run is final, and its
observation adds one response for each command, in order, to its context, and none that carries no value (30_encoding
R97); without SEQ_RESET its `SEQ` counts the packet writes (41_sequencer R147). If one of them records a fault, there is
no observation (R202). The frame of an RB_PUSH or RB_PUSHN on an instance that does not exist is the model's (log 9), that
no request is left at the end too (log 27). -/
def Obligations.FinalRunsAreObserved : Prop :=
  ∀ (s : State) (cmds : List (Ctx × Instr)), s.Inv → s.InContract → s.port = commandRequests s.cfg cmds →
    (∀ x ∈ cmds, x.1 ∈ s.cfg.ctxs ∧ x.2.isCommand = true ∧ x.2.wellFormed s.cfg = true) →
    ∃ t : State, Sys2Proof.core.run cmds.length s = .next t ∧
      (¬ t.InContract → t.observe = none) ∧
      (t.InContract → ∃ o rs, t.observe = some o ∧ o.faults = [] ∧ o.out = t.out ∧
        o.replies = s.replies ++ rs ∧ (∀ r ∈ rs, r.resp ≠ .noValue) ∧
        rs.map (fun r => (r.ctx, some r.op, r.inst)) =
          cmds.map (fun x => (x.1, x.2.opcode.map Opcode.byte, x.2.instanceNo)) ∧
        ((∀ x ∈ cmds, x.2 ≠ .seqReset) →
          o.seq.toNat = (s.seq.toNat + (cmds.filter fun x => x.2.isPacketWrite).length) % 256))
end

