-- ==== Sys2Proof/Laws/Bytes.lean ====
section
/-! SUPPORT. Byte order: reading the bytes of a number gives the number, and what lengths encodings have. -/

namespace Sys2Proof

theorem leBytes_length (k v : Nat) : (leBytes k v).length = k := by
  induction k generalizing v with
  | zero => rfl
  | succ k ih => simp [leBytes, ih]

/-- `k` bytes hold a number below `256 ^ k`. -/
theorem leVal_leBytes {k v : Nat} (h : v < 256 ^ k) : leVal (leBytes k v) = v := by
  induction k generalizing v with
  | zero => simp [leBytes, leVal]; omega
  | succ k ih =>
    have : v / 256 < 256 ^ k := by
      rw [Nat.div_lt_iff_lt_mul (by omega)]
      rwa [pow_succ] at h
    simp only [leBytes, leVal, ih this, BitVec.toNat_ofNat]
    omega

/-- A byte sequence is the bytes of the number it spells. -/
theorem leBytes_leVal (bs : List Byte) : leBytes bs.length (leVal bs) = bs := by
  induction bs with
  | nil => rfl
  | cons b bs ih =>
    have hb : b.toNat < 256 := b.isLt
    simp only [List.length_cons, leBytes, leVal]
    rw [show (b.toNat + 256 * leVal bs) / 256 = leVal bs by omega, ih]
    congr 1
    apply BitVec.eq_of_toNat_eq
    rw [BitVec.toNat_ofNat]
    omega

theorem leVal_lt (bs : List Byte) : leVal bs < 256 ^ bs.length := by
  induction bs with
  | nil => simp [leVal]
  | cons b bs ih =>
    have hb : b.toNat < 256 := b.isLt
    simp only [leVal, List.length_cons, pow_succ]
    omega

@[simp] theorem enc_length (o : ByteOrder) {w : Nat} (v : BitVec w) (n : Nat) : (enc o v n).length = n := by
  simp [enc]

/-- The two orders hold the same bytes, in opposite order (00_scope R13). -/
theorem enc_be_eq_reverse {w : Nat} (v : BitVec w) (n : Nat) : enc .be v n = (enc .le v n).reverse := by
  apply List.ext_getElem
  · simp
  · intro i h1 h2
    simp only [enc, List.length_map, List.length_range] at h1 h2 ⊢
    simp

theorem enc_le_two (v : Sample) : enc .le v 2 = [v.extractLsb' 0 8, v.extractLsb' 8 8] := rfl

theorem enc_le_four (v : Stamp) :
    enc .le v 4 = [v.extractLsb' 0 8, v.extractLsb' 8 8, v.extractLsb' 16 8, v.extractLsb' 24 8] := rfl

theorem enc_be_two (v : Sample) : enc .be v 2 = [v.extractLsb' 8 8, v.extractLsb' 0 8] := rfl

theorem enc_be_four (v : Stamp) :
    enc .be v 4 = [v.extractLsb' 24 8, v.extractLsb' 16 8, v.extractLsb' 8 8, v.extractLsb' 0 8] := rfl

/-- Reading back a 16-bit field. -/
theorem dec_enc_two (o : ByteOrder) (v : Sample) : dec o 16 (enc o v 2) = v := by
  have hv : v.toNat < 65536 := v.isLt
  apply BitVec.eq_of_toNat_eq
  cases o <;>
    simp only [enc_le_two, enc_be_two, dec, List.reverse_cons, List.reverse_nil, List.nil_append, List.cons_append,
      leVal, BitVec.toNat_ofNat, BitVec.extractLsb'_toNat, Nat.shiftRight_eq_div_pow] <;> omega

/-- Reading back a 32-bit field. -/
theorem dec_enc_four (o : ByteOrder) (v : Stamp) : dec o 32 (enc o v 4) = v := by
  have hv : v.toNat < 4294967296 := v.isLt
  apply BitVec.eq_of_toNat_eq
  cases o <;>
    simp only [enc_le_four, enc_be_four, dec, List.reverse_cons, List.reverse_nil, List.nil_append, List.cons_append,
      leVal, BitVec.toNat_ofNat, BitVec.extractLsb'_toNat, Nat.shiftRight_eq_div_pow] <;> omega

theorem dec_le_two (v : Sample) : dec .le 16 [v.extractLsb' 0 8, v.extractLsb' 8 8] = v := dec_enc_two .le v

theorem dec_be_two (v : Sample) : dec .be 16 [v.extractLsb' 8 8, v.extractLsb' 0 8] = v := dec_enc_two .be v

theorem dec_le_four (v : Stamp) :
    dec .le 32 [v.extractLsb' 0 8, v.extractLsb' 8 8, v.extractLsb' 16 8, v.extractLsb' 24 8] = v :=
  dec_enc_four .le v

theorem dec_be_four (v : Stamp) :
    dec .be 32 [v.extractLsb' 24 8, v.extractLsb' 16 8, v.extractLsb' 8 8, v.extractLsb' 0 8] = v :=
  dec_enc_four .be v

/-- A 16-bit operand's bytes spell it. -/
theorem enc_dec_two (b0 b1 : Byte) : enc .le (dec .le 16 [b0, b1]) 2 = [b0, b1] := by
  have h0 := b0.isLt
  have h1 := b1.isLt
  rw [enc_le_two]
  simp only [List.cons.injEq, and_true]
  constructor <;> apply BitVec.eq_of_toNat_eq <;>
    simp only [dec, leVal, BitVec.extractLsb'_toNat, BitVec.toNat_ofNat, Nat.shiftRight_eq_div_pow] <;> omega

/-- A 32-bit operand's bytes spell it. -/
theorem enc_dec_four (b0 b1 b2 b3 : Byte) : enc .le (dec .le 32 [b0, b1, b2, b3]) 4 = [b0, b1, b2, b3] := by
  have h0 := b0.isLt
  have h1 := b1.isLt
  have h2 := b2.isLt
  have h3 := b3.isLt
  rw [enc_le_four]
  simp only [List.cons.injEq, and_true]
  refine ⟨?_, ?_, ?_, ?_⟩ <;> apply BitVec.eq_of_toNat_eq <;>
    simp only [dec, leVal, BitVec.extractLsb'_toNat, BitVec.toNat_ofNat, Nat.shiftRight_eq_div_pow] <;> omega

theorem encSamples_length (o : ByteOrder) (l : List Sample) : (encSamples o l).length = 2 * l.length := by
  induction l with
  | nil => rfl
  | cons v l ih =>
    simp only [encSamples, List.flatMap_cons, List.length_append, enc_length, List.length_cons] at ih ⊢
    omega

theorem encSamples_cons (o : ByteOrder) (v : Sample) (l : List Sample) :
    encSamples o (v :: l) = enc o v 2 ++ encSamples o l := rfl

/-- A receiver reads back the samples of a payload. -/
theorem decodeSamples_encSamples (o : ByteOrder) (l : List Sample) :
    decodeSamples o l.length (encSamples o l) = l := by
  induction l with
  | nil => rfl
  | cons v l ih =>
    simp only [List.length_cons, decodeSamples, encSamples_cons]
    rw [List.take_left' (enc_length o v 2), List.drop_left' (enc_length o v 2), dec_enc_two, ih]

/-- The items of an FBN frame are read back. -/
theorem splitItems_flatMap {e : Nat} (items : List Elem) (h : ∀ x ∈ items, x < 256 ^ e) :
    splitItems e items.length (items.flatMap (leBytes e)) = items := by
  induction items with
  | nil => rfl
  | cons x items ih =>
    simp only [List.length_cons, splitItems, List.flatMap_cons]
    rw [List.take_left' (leBytes_length e x), List.drop_left' (leBytes_length e x),
      leVal_leBytes (h x List.mem_cons_self), ih fun y hy => h y (List.mem_cons_of_mem _ hy)]

theorem flatMap_leBytes_length (e : Nat) (items : List Elem) :
    (items.flatMap (leBytes e)).length = items.length * e := by
  induction items with
  | nil => simp
  | cons x items ih =>
    simp only [List.flatMap_cons, List.length_append, leBytes_length, ih, List.length_cons]
    ring

theorem splitItems_length (e n : Nat) (bs : List Byte) : (splitItems e n bs).length = n := by
  induction n generalizing bs with
  | zero => rfl
  | succ n ih => simp [splitItems, ih]

/-- The items of an FBN frame spell the frame's item bytes. -/
theorem flatMap_splitItems {e n : Nat} {bs : List Byte} (h : bs.length = n * e) :
    (splitItems e n bs).flatMap (leBytes e) = bs := by
  induction n generalizing bs with
  | zero =>
    have : bs = [] := List.length_eq_zero_iff.1 (by simpa using h)
    simp [splitItems, this]
  | succ n ih =>
    have hlen : bs.length = n * e + e := by rw [h]; ring
    have htake : (bs.take e).length = e := by rw [List.length_take]; omega
    simp only [splitItems, List.flatMap_cons]
    rw [ih (by rw [List.length_drop]; omega)]
    conv_lhs => rw [← htake]
    rw [htake]
    have := leBytes_leVal (bs.take e)
    rw [htake] at this
    rw [this, List.take_append_drop]

/-- An element's bytes hold every element of its width (30_encoding R96). -/
theorem two_pow_le_elemBytes (w : Nat) : 2 ^ w ≤ 256 ^ elemBytes w := by
  rw [show (256 : Nat) = 2 ^ 8 from rfl, ← pow_mul]
  exact Nat.pow_le_pow_right (by omega) (by unfold elemBytes; omega)

theorem lt_byteLen (v : Nat) : v < 256 ^ byteLen v := by
  rw [show (256 : Nat) = 2 ^ 8 from rfl, ← pow_mul]
  refine lt_of_lt_of_le Nat.lt_log2_self (Nat.pow_le_pow_right (by omega) ?_)
  unfold byteLen
  omega

/-- The encoder's item width holds every item that fits. -/
theorem itemBytesOut_holds {c : Config} {b : Byte} {items : List Elem} {x : Elem} (hx : x ∈ items)
    (hfit : c.itemFits b x = true) : x < 256 ^ c.itemBytesOut b items := by
  unfold Config.itemBytesOut
  unfold Config.itemFits at hfit
  split
  · next p hp =>
    rw [hp] at hfit
    exact lt_of_lt_of_le (by simpa using hfit) (two_pow_le_elemBytes _)
  · refine lt_of_lt_of_le (lt_byteLen x) (Nat.pow_le_pow_right (by omega) ?_)
    induction items with
    | nil => simp at hx
    | cons y items ih =>
      simp only [List.map_cons, List.foldr_cons]
      rcases List.mem_cons.1 hx with rfl | hx
      · exact le_max_left _ _
      · exact (ih hx).trans (le_max_right _ _)

theorem itemBytesOut_pos_of_absent {c : Config} {b : Byte} {items : List Elem} (h : c.rb[b.toNat]? = none) :
    1 ≤ c.itemBytesOut b items := by
  unfold Config.itemBytesOut
  rw [h]
  show 1 ≤ (items.map byteLen).foldr max 1
  induction items with
  | nil => simp
  | cons y items ih =>
    simp only [List.map_cons, List.foldr_cons]
    exact ih.trans (le_max_right _ _)

/-! ## Opcodes and tags -/

/-- Each opcode's byte names that opcode (30_encoding R95). -/
theorem opcode?_byte (o : Opcode) : opcode? o.byte = some o := by cases o <;> decide

/-- Each tag's byte names that tag (30_encoding R81). -/
theorem tag?_byte (t : Tag) : tag? t.byte = some t := by cases t <;> decide

theorem opcode?_some {x : Byte} {o : Opcode} (h : opcode? x = some o) : o.byte = x := by
  simpa using List.find?_some h

theorem tag?_some {x : Byte} {t : Tag} (h : tag? x = some t) : t.byte = x := by
  simpa using List.find?_some h

end Sys2Proof
end

