-- ==== Sys2Proof/Laws/State.lean ====
section
/-! SUPPORT. One lemma per field of State per update: what the update leaves in the field. -/

namespace Sys2Proof.Machine

/-! ## State.setRb -/

@[simp] theorem State.setRb_cfg (s : State) (b : Nat) (r : RB) : (s.setRb b r).cfg = s.cfg := rfl
@[simp] theorem State.setRb_rbs (s : State) (b : Nat) (r : RB) : (s.setRb b r).rbs = s.rbs.set b r := rfl
@[simp] theorem State.setRb_seq (s : State) (b : Nat) (r : RB) : (s.setRb b r).seq = s.seq := rfl
@[simp] theorem State.setRb_dpS (s : State) (b : Nat) (r : RB) : (s.setRb b r).dpS = s.dpS := rfl
@[simp] theorem State.setRb_dpPPP (s : State) (b : Nat) (r : RB) : (s.setRb b r).dpPPP = s.dpPPP := rfl
@[simp] theorem State.setRb_dpIDX (s : State) (b : Nat) (r : RB) : (s.setRb b r).dpIDX = s.dpIDX := rfl
@[simp] theorem State.setRb_dpSTATE (s : State) (b : Nat) (r : RB) : (s.setRb b r).dpSTATE = s.dpSTATE := rfl
@[simp] theorem State.setRb_out (s : State) (b : Nat) (r : RB) : (s.setRb b r).out = s.out := rfl
@[simp] theorem State.setRb_faults (s : State) (b : Nat) (r : RB) : (s.setRb b r).faults = s.faults := rfl
@[simp] theorem State.setRb_replies (s : State) (b : Nat) (r : RB) : (s.setRb b r).replies = s.replies := rfl
@[simp] theorem State.setRb_port (s : State) (b : Nat) (r : RB) : (s.setRb b r).port = s.port := rfl
@[simp] theorem State.setRb_ctx (s : State) (b : Nat) (r : RB) : (s.setRb b r).ctx = s.ctx := rfl
@[simp] theorem State.setRb_sink (s : State) (b : Nat) (r : RB) : (s.setRb b r).sink = s.sink := rfl
@[simp] theorem State.setRb_sinkDraws (s : State) (b : Nat) (r : RB) : (s.setRb b r).sinkDraws = s.sinkDraws := rfl
@[simp] theorem State.setRb_sampleDraws (s : State) (b : Nat) (r : RB) : (s.setRb b r).sampleDraws = s.sampleDraws := rfl
@[simp] theorem State.setRb_rxSeq (s : State) (b : Nat) (r : RB) : (s.setRb b r).rxSeq = s.rxSeq := rfl
@[simp] theorem State.setRb_rxGaps (s : State) (b : Nat) (r : RB) : (s.setRb b r).rxGaps = s.rxGaps := rfl

/-! ## State.raise -/

@[simp] theorem State.raise_cfg (s : State) (k : FaultKind) (op : Byte) (i : FaultInfo) : (s.raise k op i).cfg = s.cfg := rfl
@[simp] theorem State.raise_rbs (s : State) (k : FaultKind) (op : Byte) (i : FaultInfo) : (s.raise k op i).rbs = s.rbs := rfl
@[simp] theorem State.raise_seq (s : State) (k : FaultKind) (op : Byte) (i : FaultInfo) : (s.raise k op i).seq = s.seq := rfl
@[simp] theorem State.raise_dpS (s : State) (k : FaultKind) (op : Byte) (i : FaultInfo) : (s.raise k op i).dpS = s.dpS := rfl
@[simp] theorem State.raise_dpPPP (s : State) (k : FaultKind) (op : Byte) (i : FaultInfo) : (s.raise k op i).dpPPP = s.dpPPP := rfl
@[simp] theorem State.raise_dpIDX (s : State) (k : FaultKind) (op : Byte) (i : FaultInfo) : (s.raise k op i).dpIDX = s.dpIDX := rfl
@[simp] theorem State.raise_dpSTATE (s : State) (k : FaultKind) (op : Byte) (i : FaultInfo) : (s.raise k op i).dpSTATE = s.dpSTATE := rfl
@[simp] theorem State.raise_out (s : State) (k : FaultKind) (op : Byte) (i : FaultInfo) : (s.raise k op i).out = s.out := rfl
@[simp] theorem State.raise_replies (s : State) (k : FaultKind) (op : Byte) (i : FaultInfo) : (s.raise k op i).replies = s.replies := rfl
@[simp] theorem State.raise_port (s : State) (k : FaultKind) (op : Byte) (i : FaultInfo) : (s.raise k op i).port = s.port := rfl
@[simp] theorem State.raise_ctx (s : State) (k : FaultKind) (op : Byte) (i : FaultInfo) : (s.raise k op i).ctx = s.ctx := rfl
@[simp] theorem State.raise_sink (s : State) (k : FaultKind) (op : Byte) (i : FaultInfo) : (s.raise k op i).sink = s.sink := rfl
@[simp] theorem State.raise_sinkDraws (s : State) (k : FaultKind) (op : Byte) (i : FaultInfo) : (s.raise k op i).sinkDraws = s.sinkDraws := rfl
@[simp] theorem State.raise_sampleDraws (s : State) (k : FaultKind) (op : Byte) (i : FaultInfo) : (s.raise k op i).sampleDraws = s.sampleDraws := rfl
@[simp] theorem State.raise_rxSeq (s : State) (k : FaultKind) (op : Byte) (i : FaultInfo) : (s.raise k op i).rxSeq = s.rxSeq := rfl
@[simp] theorem State.raise_rxGaps (s : State) (k : FaultKind) (op : Byte) (i : FaultInfo) : (s.raise k op i).rxGaps = s.rxGaps := rfl

/-! ## State.reply -/

@[simp] theorem State.reply_cfg (s : State) (op : Byte) (b : Option Byte) (r : Response) : (s.reply op b r).cfg = s.cfg := rfl
@[simp] theorem State.reply_rbs (s : State) (op : Byte) (b : Option Byte) (r : Response) : (s.reply op b r).rbs = s.rbs := rfl
@[simp] theorem State.reply_seq (s : State) (op : Byte) (b : Option Byte) (r : Response) : (s.reply op b r).seq = s.seq := rfl
@[simp] theorem State.reply_dpS (s : State) (op : Byte) (b : Option Byte) (r : Response) : (s.reply op b r).dpS = s.dpS := rfl
@[simp] theorem State.reply_dpPPP (s : State) (op : Byte) (b : Option Byte) (r : Response) : (s.reply op b r).dpPPP = s.dpPPP := rfl
@[simp] theorem State.reply_dpIDX (s : State) (op : Byte) (b : Option Byte) (r : Response) : (s.reply op b r).dpIDX = s.dpIDX := rfl
@[simp] theorem State.reply_dpSTATE (s : State) (op : Byte) (b : Option Byte) (r : Response) : (s.reply op b r).dpSTATE = s.dpSTATE := rfl
@[simp] theorem State.reply_out (s : State) (op : Byte) (b : Option Byte) (r : Response) : (s.reply op b r).out = s.out := rfl
@[simp] theorem State.reply_faults (s : State) (op : Byte) (b : Option Byte) (r : Response) : (s.reply op b r).faults = s.faults := rfl
@[simp] theorem State.reply_replies (s : State) (op : Byte) (b : Option Byte) (r : Response) : (s.reply op b r).replies = s.replies ++ [⟨s.ctx, op, b, r⟩] := rfl
@[simp] theorem State.reply_port (s : State) (op : Byte) (b : Option Byte) (r : Response) : (s.reply op b r).port = s.port := rfl
@[simp] theorem State.reply_ctx (s : State) (op : Byte) (b : Option Byte) (r : Response) : (s.reply op b r).ctx = s.ctx := rfl
@[simp] theorem State.reply_sink (s : State) (op : Byte) (b : Option Byte) (r : Response) : (s.reply op b r).sink = s.sink := rfl
@[simp] theorem State.reply_sinkDraws (s : State) (op : Byte) (b : Option Byte) (r : Response) : (s.reply op b r).sinkDraws = s.sinkDraws := rfl
@[simp] theorem State.reply_sampleDraws (s : State) (op : Byte) (b : Option Byte) (r : Response) : (s.reply op b r).sampleDraws = s.sampleDraws := rfl
@[simp] theorem State.reply_rxSeq (s : State) (op : Byte) (b : Option Byte) (r : Response) : (s.reply op b r).rxSeq = s.rxSeq := rfl
@[simp] theorem State.reply_rxGaps (s : State) (op : Byte) (b : Option Byte) (r : Response) : (s.reply op b r).rxGaps = s.rxGaps := rfl

/-! ## State.updateState -/

@[simp] theorem State.updateState_cfg (s : State) : s.updateState.cfg = s.cfg := rfl
@[simp] theorem State.updateState_rbs (s : State) : s.updateState.rbs = s.rbs := rfl
@[simp] theorem State.updateState_seq (s : State) : s.updateState.seq = s.seq := rfl
@[simp] theorem State.updateState_dpS (s : State) : s.updateState.dpS = s.dpS := rfl
@[simp] theorem State.updateState_dpPPP (s : State) : s.updateState.dpPPP = s.dpPPP := rfl
@[simp] theorem State.updateState_dpIDX (s : State) : s.updateState.dpIDX = s.dpIDX := rfl
@[simp] theorem State.updateState_dpSTATE (s : State) : s.updateState.dpSTATE = fillState s.dpSTATE s.dpIDX s.dpPPP := rfl
@[simp] theorem State.updateState_out (s : State) : s.updateState.out = s.out := rfl
@[simp] theorem State.updateState_faults (s : State) : s.updateState.faults = s.faults := rfl
@[simp] theorem State.updateState_replies (s : State) : s.updateState.replies = s.replies := rfl
@[simp] theorem State.updateState_port (s : State) : s.updateState.port = s.port := rfl
@[simp] theorem State.updateState_ctx (s : State) : s.updateState.ctx = s.ctx := rfl
@[simp] theorem State.updateState_sink (s : State) : s.updateState.sink = s.sink := rfl
@[simp] theorem State.updateState_sinkDraws (s : State) : s.updateState.sinkDraws = s.sinkDraws := rfl
@[simp] theorem State.updateState_sampleDraws (s : State) : s.updateState.sampleDraws = s.sampleDraws := rfl
@[simp] theorem State.updateState_rxSeq (s : State) : s.updateState.rxSeq = s.rxSeq := rfl
@[simp] theorem State.updateState_rxGaps (s : State) : s.updateState.rxGaps = s.rxGaps := rfl

/-! ## State.wholeReset -/

@[simp] theorem State.wholeReset_cfg (s : State) : s.wholeReset.cfg = s.cfg := rfl
@[simp] theorem State.wholeReset_rbs (s : State) : s.wholeReset.rbs = s.cfg.rb.map fun _ => RB.initial := rfl
@[simp] theorem State.wholeReset_seq (s : State) : s.wholeReset.seq = 0 := rfl
@[simp] theorem State.wholeReset_dpS (s : State) : s.wholeReset.dpS = [] := rfl
@[simp] theorem State.wholeReset_dpPPP (s : State) : s.wholeReset.dpPPP = s.cfg.pppReset := rfl
@[simp] theorem State.wholeReset_dpIDX (s : State) : s.wholeReset.dpIDX = 0 := rfl
@[simp] theorem State.wholeReset_dpSTATE (s : State) : s.wholeReset.dpSTATE = .empty := rfl
@[simp] theorem State.wholeReset_out (s : State) : s.wholeReset.out = s.out := rfl
@[simp] theorem State.wholeReset_faults (s : State) : s.wholeReset.faults = s.faults := rfl
@[simp] theorem State.wholeReset_replies (s : State) : s.wholeReset.replies = s.replies := rfl
@[simp] theorem State.wholeReset_port (s : State) : s.wholeReset.port = s.port := rfl
@[simp] theorem State.wholeReset_ctx (s : State) : s.wholeReset.ctx = s.ctx := rfl
@[simp] theorem State.wholeReset_sink (s : State) : s.wholeReset.sink = s.sink := rfl
@[simp] theorem State.wholeReset_sinkDraws (s : State) : s.wholeReset.sinkDraws = s.sinkDraws := rfl
@[simp] theorem State.wholeReset_sampleDraws (s : State) : s.wholeReset.sampleDraws = s.sampleDraws := rfl
@[simp] theorem State.wholeReset_rxSeq (s : State) : s.wholeReset.rxSeq = s.rxSeq := rfl
@[simp] theorem State.wholeReset_rxGaps (s : State) : s.wholeReset.rxGaps = s.rxGaps := rfl

/-! ## State.receive -/

@[simp] theorem State.receive_cfg (s : State) (m n q : Byte) : (s.receive m n q).cfg = s.cfg := rfl
@[simp] theorem State.receive_rbs (s : State) (m n q : Byte) : (s.receive m n q).rbs = s.rbs := rfl
@[simp] theorem State.receive_seq (s : State) (m n q : Byte) : (s.receive m n q).seq = s.seq := rfl
@[simp] theorem State.receive_dpS (s : State) (m n q : Byte) : (s.receive m n q).dpS = s.dpS := rfl
@[simp] theorem State.receive_dpPPP (s : State) (m n q : Byte) : (s.receive m n q).dpPPP = s.dpPPP := rfl
@[simp] theorem State.receive_dpIDX (s : State) (m n q : Byte) : (s.receive m n q).dpIDX = s.dpIDX := rfl
@[simp] theorem State.receive_dpSTATE (s : State) (m n q : Byte) : (s.receive m n q).dpSTATE = s.dpSTATE := rfl
@[simp] theorem State.receive_out (s : State) (m n q : Byte) : (s.receive m n q).out = s.out := rfl
@[simp] theorem State.receive_faults (s : State) (m n q : Byte) : (s.receive m n q).faults = s.faults := rfl
@[simp] theorem State.receive_replies (s : State) (m n q : Byte) : (s.receive m n q).replies = s.replies := rfl
@[simp] theorem State.receive_port (s : State) (m n q : Byte) : (s.receive m n q).port = s.port := rfl
@[simp] theorem State.receive_ctx (s : State) (m n q : Byte) : (s.receive m n q).ctx = s.ctx := rfl
@[simp] theorem State.receive_sink (s : State) (m n q : Byte) : (s.receive m n q).sink = s.sink := rfl
@[simp] theorem State.receive_sinkDraws (s : State) (m n q : Byte) : (s.receive m n q).sinkDraws = s.sinkDraws := rfl
@[simp] theorem State.receive_sampleDraws (s : State) (m n q : Byte) : (s.receive m n q).sampleDraws = s.sampleDraws := rfl

/-! ## The accessors of an instance and a cell -/

theorem State.par_congr {s t : State} (h : t.cfg = s.cfg) (b : Nat) : t.par b = s.par b := by
  simp [State.par, h]

theorem State.rb_congr {s t : State} (h : t.rbs = s.rbs) (b : Nat) : t.rb b = s.rb b := by
  simp [State.rb, h]

theorem State.setRb_rb_same (s : State) {b : Nat} (r : RB) (h : b < s.rbs.length) : (s.setRb b r).rb b = r := by
  simp [State.rb, List.getD, h]

theorem State.setRb_rb_other (s : State) {b b' : Nat} (r : RB) (h : b' ≠ b) : (s.setRb b r).rb b' = s.rb b' := by
  simp [State.rb, List.getD, List.getElem?_set_ne (Ne.symm h)]

@[simp] theorem State.reply_rb (s : State) (op : Byte) (i : Option Byte) (x : Response) (b : Nat) :
    (s.reply op i x).rb b = s.rb b := rfl

@[simp] theorem State.reply_par (s : State) (op : Byte) (i : Option Byte) (x : Response) (b : Nat) :
    (s.reply op i x).par b = s.par b := rfl

@[simp] theorem State.setRb_par (s : State) (b : Nat) (r : RB) (b' : Nat) : (s.setRb b r).par b' = s.par b' := rfl

@[simp] theorem State.raise_rb (s : State) (k : FaultKind) (op : Byte) (i : FaultInfo) (b : Nat) :
    (s.raise k op i).rb b = s.rb b := rfl

@[simp] theorem State.raise_par (s : State) (k : FaultKind) (op : Byte) (i : FaultInfo) (b : Nat) :
    (s.raise k op i).par b = s.par b := rfl

/-! ## FAULTS -/

/-- Recording a fault keeps every record and adds this one. -/
theorem State.mem_raise_faults (s : State) (k : FaultKind) (op : Byte) (i : FaultInfo) (f : FaultRecord) :
    f ∈ (s.raise k op i).faults ↔ f ∈ s.faults ∨ f = ⟨k, op, s.ctx, i⟩ := by
  unfold State.raise
  by_cases h : (⟨k, op, s.ctx, i⟩ : FaultRecord) ∈ s.faults
  · simp only [h, if_true]
    exact ⟨Or.inl, fun hf => hf.elim id fun hf => hf ▸ h⟩
  · simp [h]

/-- FAULTS grows at its end. -/
theorem State.raise_faults_prefix (s : State) (k : FaultKind) (op : Byte) (i : FaultInfo) :
    s.faults <+: (s.raise k op i).faults := by
  unfold State.raise
  split
  · exact List.prefix_rfl
  · exact List.prefix_append _ _

/-- FAULTS stays a set. -/
theorem State.raise_faults_nodup {s : State} (h : s.faults.Nodup) (k : FaultKind) (op : Byte) (i : FaultInfo) :
    (s.raise k op i).faults.Nodup := by
  unfold State.raise
  split
  · exact h
  · next hn =>
    rw [List.nodup_append]
    refine ⟨h, List.nodup_singleton _, fun a ha b hb hab => hn ?_⟩
    rw [List.mem_singleton] at hb
    exact hb ▸ hab ▸ ha

/-! ## The end of a run -/

/-- A final run is observed whole, and its FAULTS are empty (60_exceptions R214). -/
theorem State.observe_of_final {s : State} (h : s.Final) :
    s.observe = some ⟨s.replies, s.rbs, s.seq, s.dpS, s.dpPPP, s.dpIDX, s.dpSTATE, s.out, []⟩ := by
  simp only [State.observe, if_pos h, h.2]

/-- Exactly the final runs are observed (60_exceptions R202, R214). -/
theorem State.observe_eq_none_iff {s : State} : s.observe = none ↔ ¬ s.Final := by
  simp only [State.observe, ite_eq_right_iff, reduceCtorEq, imp_false]

end Sys2Proof.Machine
end

