-- ==== Sys2Proof/Laws/Memory.lean ====
section
/-! SUPPORT. What storage operations do: read after write, and that a write keeps the canonical form. -/

namespace Sys2Proof.Machine

variable {α : Type}

@[simp] theorem Memory.read_nil (i : Nat) : Memory.read ([] : Memory α) i = none := rfl

/-- A cell holds what was last stored in it, and a store leaves every other cell alone. -/
theorem Memory.read_write (m : Memory α) (i j : Nat) (v : α) :
    Memory.read (Memory.write m i v) j = if j = i then some v else Memory.read m j := by
  induction m with
  | nil => simp [Memory.write, Memory.read]
  | cons e m ih =>
    obtain ⟨k, u⟩ := e
    simp only [Memory.write]
    split
    · simp [Memory.read]
    · split
      · next h1 h2 =>
        subst h2
        simp only [Memory.read]
        split <;> simp_all
      · next h1 h2 =>
        simp only [Memory.read, ih]
        by_cases hj : j = k
        · subst hj
          simp [Ne.symm h2]
        · simp [hj]

theorem Memory.read_write_same (m : Memory α) (i : Nat) (v : α) :
    Memory.read (Memory.write m i v) i = some v := by
  simp [Memory.read_write]

theorem Memory.read_write_other (m : Memory α) {i j : Nat} (v : α) (h : j ≠ i) :
    Memory.read (Memory.write m i v) j = Memory.read m j := by
  simp [Memory.read_write, h]

/-- An entry of a store is the stored one or was there before. -/
theorem Memory.mem_write {m : Memory α} {i : Nat} {v : α} {e : Nat × α} (h : e ∈ Memory.write m i v) :
    e = (i, v) ∨ e ∈ m := by
  induction m with
  | nil => simpa [Memory.write] using h
  | cons x m ih =>
    obtain ⟨k, u⟩ := x
    simp only [Memory.write] at h
    split at h
    · simpa using h
    · split at h
      · simp only [List.mem_cons] at h ⊢
        tauto
      · simp only [List.mem_cons] at h ⊢
        rcases h with h | h
        · tauto
        · have := ih h
          tauto

/-- A store keeps the canonical form. -/
theorem Memory.wf_write {m : Memory α} (hm : Memory.wf m) (i : Nat) (v : α) : Memory.wf (Memory.write m i v) := by
  induction m with
  | nil => simp [Memory.write, Memory.wf]
  | cons x m ih =>
    obtain ⟨k, u⟩ := x
    have hk : ∀ e ∈ m, k < e.1 := by
      intro e he
      have := (List.pairwise_cons.1 hm).1
      exact this e.1 (List.mem_map_of_mem he)
    have hm' : Memory.wf m := (List.pairwise_cons.1 hm).2
    simp only [Memory.write]
    split
    · next h =>
      refine List.pairwise_cons.2 ⟨?_, hm⟩
      intro a ha
      simp only [List.map_cons, List.mem_cons, List.mem_map] at ha
      rcases ha with rfl | ⟨e, he, rfl⟩
      · exact h
      · exact h.trans (hk e he)
    · split
      · next h1 h2 =>
        subst h2
        exact List.pairwise_cons.2 ⟨(List.pairwise_cons.1 hm).1, hm'⟩
      · next h1 h2 =>
        refine List.pairwise_cons.2 ⟨?_, ih hm'⟩
        intro a ha
        obtain ⟨e, he, rfl⟩ := List.mem_map.1 ha
        rcases Memory.mem_write he with rfl | he
        · show k < i
          omega
        · exact hk e he

/-- Two memories in canonical form that read alike are the same list. -/
theorem Memory.ext_of_wf {m m' : Memory α} (h : Memory.wf m) (h' : Memory.wf m')
    (heq : ∀ i, Memory.read m i = Memory.read m' i) : m = m' := by
  have low : ∀ {x : Memory α} {k i : Nat}, (∀ e ∈ x, k < e.1) → i ≤ k → Memory.read x i = none := by
    intro x k i hx hi
    induction x with
    | nil => rfl
    | cons e x ih =>
      have h0 := hx e List.mem_cons_self
      simp only [Memory.read]
      rw [if_neg (by omega)]
      exact ih fun e' he' => hx e' (List.mem_cons_of_mem _ he')
  have tailLow : ∀ {k : Nat} {u : α} {x : Memory α}, Memory.wf ((k, u) :: x) → ∀ e ∈ x, k < e.1 := fun hx e he =>
    (List.pairwise_cons.1 hx).1 e.1 (List.mem_map_of_mem he)
  induction m generalizing m' with
  | nil =>
    cases m' with
    | nil => rfl
    | cons e x => simpa [Memory.read] using heq e.1
  | cons e m ih =>
    cases m' with
    | nil => simpa [Memory.read] using heq e.1
    | cons e' m' =>
      obtain ⟨k, u⟩ := e
      obtain ⟨k', u'⟩ := e'
      have hkk : k = k' := by
        rcases Nat.lt_trichotomy k k' with hlt | rfl | hlt
        · have := heq k
          rw [low (k := k) (x := (k', u') :: m') (i := k) (by
            intro e he
            rcases List.mem_cons.1 he with rfl | he
            · exact hlt
            · exact hlt.trans (tailLow h' e he)) (Nat.le_refl k)] at this
          simp [Memory.read] at this
        · rfl
        · have := heq k'
          rw [low (k := k') (x := (k, u) :: m) (i := k') (by
            intro e he
            rcases List.mem_cons.1 he with rfl | he
            · exact hlt
            · exact hlt.trans (tailLow h e he)) (Nat.le_refl k')] at this
          simp [Memory.read] at this
      subst hkk
      have hu : u = u' := by simpa [Memory.read] using heq k
      subst hu
      congr 1
      refine ih (List.pairwise_cons.1 h).2 (List.pairwise_cons.1 h').2 fun i => ?_
      by_cases hi : i = k
      · subst hi
        rw [low (tailLow h) (Nat.le_refl _), low (tailLow h') (Nat.le_refl _)]
      · simpa [Memory.read, hi] using heq i

/-- The last of two stores in one cell is the one that counts. -/
theorem Memory.write_write (m : Memory α) (i : Nat) (v v' : α) :
    Memory.write (Memory.write m i v) i v' = Memory.write m i v' := by
  induction m with
  | nil => simp [Memory.write]
  | cons e m ih =>
    obtain ⟨j, u⟩ := e
    simp only [Memory.write]
    split
    · simp [Memory.write]
    · split
      · simp [Memory.write]
      · next h1 h2 => simp [Memory.write, h1, h2, ih]

/-- A cell that holds a value is listed with it. -/
theorem Memory.mem_of_read {m : Memory α} {i : Nat} {v : α} (h : Memory.read m i = some v) : (i, v) ∈ m := by
  induction m with
  | nil => cases h
  | cons e m ih =>
    obtain ⟨j, u⟩ := e
    simp only [Memory.read] at h
    split at h
    · next hj => cases h; subst hj; exact List.mem_cons_self
    · exact List.mem_cons_of_mem _ (ih h)

end Sys2Proof.Machine
end

