-- ==== Sys2Proof/Laws/Ring.lean ====
section
/-! SUPPORT. Cursor arithmetic and storing in slots: what each does, once. -/

namespace Sys2Proof.Machine

/-! ## Count and space -/

/-- With legal cursors the count is a difference of cursors (40_ring_buffer R110, corner cases). -/
theorem occupied_eq {p : RBParams} {r : RB} (h : RB.CursorsLegal p r) :
    occupied p.capacity r = if r.rd ≤ r.wr then r.wr - r.rd else r.wr + p.capacity - r.rd := by
  obtain ⟨hw, hr⟩ := h
  unfold occupied
  split
  · next hle =>
    rw [← Nat.cast_sub hle, ← Int.natCast_mod, Int.toNat_natCast, Nat.mod_eq_of_lt (by omega)]
  · next hgt =>
    have e : ((r.wr : Int) - (r.rd : Int)) % (p.capacity : Int)
        = (((r.wr + p.capacity - r.rd : Nat) : Int)) % (p.capacity : Int) := by
      rw [Nat.cast_sub (by omega), Nat.cast_add, ← Int.add_emod_right]
      congr 1
      omega
    rw [e, ← Int.natCast_mod, Int.toNat_natCast, Nat.mod_eq_of_lt (by omega)]

theorem occupied_lt {p : RBParams} {r : RB} (h : RB.CursorsLegal p r) : occupied p.capacity r < p.capacity := by
  rw [occupied_eq h]
  obtain ⟨hw, hr⟩ := h
  split <;> omega

/-- Only the cursors matter (10_state R27: "no separate count field"). -/
theorem occupied_congr {C : Nat} {r r' : RB} (hw : r'.wr = r.wr) (hr : r'.rd = r.rd) :
    occupied C r' = occupied C r := by
  simp [occupied, hw, hr]

theorem freeSlots_congr {C : Nat} {r r' : RB} (hw : r'.wr = r.wr) (hr : r'.rd = r.rd) :
    freeSlots C r' = freeSlots C r := by
  simp [freeSlots, occupied_congr hw hr]

/-- Empty is cursor equality (10_state R27). -/
theorem occupied_eq_zero {p : RBParams} {r : RB} (h : RB.CursorsLegal p r) :
    occupied p.capacity r = 0 ↔ r.wr = r.rd := by
  rw [occupied_eq h]
  obtain ⟨hw, hr⟩ := h
  split <;> omega

theorem isEmpty_iff {r : RB} : isEmpty r = true ↔ r.wr = r.rd := by simp [isEmpty]

theorem isFull_iff {C : Nat} {r : RB} : isFull C r = true ↔ occupied C r = C - 1 := by simp [isFull]

/-- Full is the write cursor one slot behind the read cursor (10_state R27). -/
theorem isFull_iff_next {p : RBParams} {r : RB} (h : RB.CursorsLegal p r) :
    isFull p.capacity r = true ↔ slotAfter p.capacity r.wr 1 = r.rd := by
  rw [isFull_iff, occupied_eq h]
  obtain ⟨hw, hr⟩ := h
  unfold slotAfter
  rcases Nat.lt_or_ge (r.wr + 1) p.capacity with hlt | hge
  · rw [Nat.mod_eq_of_lt hlt]
    split <;> omega
  · have : r.wr + 1 = p.capacity := by omega
    rw [this, Nat.mod_self]
    split <;> omega

/-- Moving on by less than a capacity, without division. -/
theorem slotAfter_eq {C i k : Nat} (hi : i < C) (hk : k ≤ C) :
    slotAfter C i k = if i + k < C then i + k else i + k - C := by
  unfold slotAfter
  split
  · next h => exact Nat.mod_eq_of_lt h
  · next h =>
    rw [Nat.mod_eq_sub_mod (by omega)]
    exact Nat.mod_eq_of_lt (by omega)

theorem slotAfter_lt {C i k : Nat} (hC : 0 < C) : slotAfter C i k < C := Nat.mod_lt _ hC

/-- Publishing `k` items raises the count by `k` (40_ring_buffer R112, R113). -/
theorem occupied_push {p : RBParams} {r r' : RB} {k : Nat} (h : RB.CursorsLegal p r)
    (hk : k ≤ freeSlots p.capacity r) (hw : r'.wr = slotAfter p.capacity r.wr k) (hr : r'.rd = r.rd) :
    occupied p.capacity r' = occupied p.capacity r + k := by
  have hk' : occupied p.capacity r + k ≤ p.capacity - 1 := by
    have := occupied_lt h
    unfold freeSlots at hk
    omega
  have hC : 0 < p.capacity := by have := h.1; omega
  have hl : RB.CursorsLegal p r' := ⟨by rw [hw]; exact slotAfter_lt hC, by rw [hr]; exact h.2⟩
  rw [occupied_eq hl, hw, hr]
  rw [occupied_eq h] at hk' ⊢
  obtain ⟨h1, h2⟩ := h
  rw [slotAfter_eq h1 (by omega)]
  split_ifs at hk' ⊢ <;> omega

/-- Taking one item lowers the count by one (40_ring_buffer R115, R116). -/
theorem occupied_pop {p : RBParams} {r r' : RB} (h : RB.CursorsLegal p r) (hne : r.wr ≠ r.rd)
    (hr : r'.rd = slotAfter p.capacity r.rd 1) (hw : r'.wr = r.wr) :
    occupied p.capacity r' + 1 = occupied p.capacity r := by
  have hC : 0 < p.capacity := by have := h.1; omega
  have hl : RB.CursorsLegal p r' := ⟨by rw [hw]; exact h.1, by rw [hr]; exact slotAfter_lt hC⟩
  rw [occupied_eq hl, occupied_eq h, hw, hr]
  obtain ⟨h1, h2⟩ := h
  rw [slotAfter_eq h2 (by omega)]
  split <;> split <;> split <;> omega

/-- The slot `j` places after a slot `k` places on. -/
theorem slotAfter_slotAfter (C i k j : Nat) : slotAfter C (slotAfter C i k) j = slotAfter C i (k + j) := by
  simp [slotAfter, Nat.add_assoc]

/-- Slots at different distances below a capacity differ. -/
theorem slotAfter_inj {C i k j : Nat} (hi : i < C) (hk : k < C) (hj : j < C)
    (h : slotAfter C i k = slotAfter C i j) : k = j := by
  rw [slotAfter_eq hi hk.le, slotAfter_eq hi hj.le] at h
  split at h <;> split at h <;> omega

/-- The write cursor stands `count` places after the read cursor. -/
theorem wr_eq_slotAfter {p : RBParams} {r : RB} (h : RB.CursorsLegal p r) :
    r.wr = slotAfter p.capacity r.rd (occupied p.capacity r) := by
  have := occupied_lt h
  rw [slotAfter_eq h.2 this.le]
  rw [occupied_eq h] at *
  obtain ⟨h1, h2⟩ := h
  split_ifs at this ⊢ <;> omega

/-! ## Storing -/

theorem storeWrite_some {p : RBParams} {r : RB} {i : Nat} {item : Elem} (h : i < p.capacity) :
    storeWrite p r i item = some { r with store := Memory.write r.store i (item % 2 ^ p.width) } := by
  simp [storeWrite, h]

theorem storeRead_some {p : RBParams} {r : RB} {i : Nat} (h : i < p.capacity) :
    storeRead p r i = some (Memory.read r.store i) := by
  simp [storeRead, h]

/-- Everything one contiguous range of stores does: it succeeds where every slot exists, leaves the cursors alone, puts
item `j` in slot `i + j` and leaves every other slot alone, keeps the form and the bounds of the storage. -/
theorem storeRange_spec {p : RBParams} (items : List Elem) : ∀ {r : RB} {i : Nat}, i + items.length ≤ p.capacity →
    ∃ r', storeRange p r i items = some r' ∧ r'.wr = r.wr ∧ r'.rd = r.rd ∧
      (∀ j, j < items.length → Memory.read r'.store (i + j) = (items[j]?).map (· % 2 ^ p.width)) ∧
      (∀ j, (j < i ∨ i + items.length ≤ j) → Memory.read r'.store j = Memory.read r.store j) ∧
      (Memory.wf r.store → Memory.wf r'.store) ∧
      ((∀ e ∈ r.store, e.1 < p.capacity ∧ e.2 < 2 ^ p.width) →
        ∀ e ∈ r'.store, e.1 < p.capacity ∧ e.2 < 2 ^ p.width) := by
  induction items with
  | nil =>
    intro r i _
    exact ⟨r, rfl, rfl, rfl, by simp, by simp, id, id⟩
  | cons item items ih =>
    intro r i hle
    simp only [List.length_cons] at hle
    obtain ⟨r', h1, h2, h3, h4, h5, h6, h7⟩ :=
      ih (r := { r with store := Memory.write r.store i (item % 2 ^ p.width) }) (i := i + 1) (by omega)
    refine ⟨r', ?_, h2, h3, ?_, ?_, ?_, ?_⟩
    · simp only [storeRange, storeWrite_some (show i < p.capacity by omega), h1]
    · intro j hj
      cases j with
      | zero =>
        rw [Nat.add_zero, h5 i (by omega)]
        simp [Memory.read_write]
      | succ j =>
        simp only [List.length_cons] at hj
        have := h4 j (by omega)
        rw [show i + (j + 1) = i + 1 + j by omega, this]
        simp
    · intro j hj
      simp only [List.length_cons] at hj
      rw [h5 j (by omega), Memory.read_write_other _ _ (by omega)]
    · exact fun hw => h6 (Memory.wf_write hw _ _)
    · intro hb
      refine h7 fun e he => ?_
      rcases Memory.mem_write he with rfl | he
      · exact ⟨by show i < p.capacity; omega, Nat.mod_lt _ (Nat.two_pow_pos _)⟩
      · exact hb e he

/-! ## Legal instances stay legal -/

/-- Storing `k` items where there is space and publishing the cursor keeps an instance legal (10_state R24, R25). -/
theorem RB.Legal.push {p : RBParams} {r r2 : RB} {k : Nat} (h : RB.Legal p r) (hk : k ≤ freeSlots p.capacity r)
    (hr : r2.rd = r.rd) (hw : r2.wr = slotAfter p.capacity r.wr k) (hwf : Memory.wf r2.store)
    (hb : ∀ e ∈ r2.store, e.1 < p.capacity ∧ e.2 < 2 ^ p.width)
    (hin : ∀ j, j < k → (Memory.read r2.store (slotAfter p.capacity r.wr j)).isSome = true)
    (hout : ∀ j, (∀ l, l < k → j ≠ slotAfter p.capacity r.wr l) →
      Memory.read r2.store j = Memory.read r.store j) : RB.Legal p r2 := by
  have hC : 0 < p.capacity := by have := h.1.1; omega
  refine ⟨⟨by rw [hw]; exact slotAfter_lt hC, by rw [hr]; exact h.1.2⟩, hwf, hb, ?_⟩
  intro j hj
  rw [occupied_push h.1 hk hw hr] at hj
  rw [hr]
  have hfs := occupied_lt h.1
  unfold freeSlots at hk
  by_cases hlt : j < occupied p.capacity r
  · rw [hout]
    · exact h.2.2.2 j hlt
    · intro l hl he
      rw [wr_eq_slotAfter h.1, slotAfter_slotAfter] at he
      have := slotAfter_inj h.1.2 (by omega) (by omega) he
      omega
  · have := hin (j - occupied p.capacity r) (by omega)
    rw [wr_eq_slotAfter h.1, slotAfter_slotAfter] at this
    rwa [show occupied p.capacity r + (j - occupied p.capacity r) = j by omega] at this

/-- Removing the oldest element keeps an instance legal (10_state R26). -/
theorem RB.Legal.pop {p : RBParams} {r : RB} (h : RB.Legal p r) (hne : r.wr ≠ r.rd) :
    RB.Legal p { r with rd := slotAfter p.capacity r.rd 1 } := by
  have hC : 0 < p.capacity := by have := h.1.1; omega
  refine ⟨⟨h.1.1, slotAfter_lt hC⟩, h.2.1, h.2.2.1, ?_⟩
  intro k hk
  have := occupied_pop (r' := { r with rd := slotAfter p.capacity r.rd 1 }) h.1 hne rfl rfl
  simp only [slotAfter_slotAfter]
  rw [show 1 + k = k + 1 by omega]
  exact h.2.2.2 (k + 1) (by omega)

/-- Taking the read cursor to the write cursor keeps an instance legal (40_ring_buffer R117). -/
theorem RB.Legal.clear {p : RBParams} {r : RB} (h : RB.Legal p r) : RB.Legal p { r with rd := r.wr } := by
  refine ⟨⟨h.1.1, h.1.1⟩, h.2.1, h.2.2.1, ?_⟩
  intro k hk
  have : occupied p.capacity { r with rd := r.wr } = 0 := by simp [occupied]
  omega

end Sys2Proof.Machine
end

