-- ==== Sys2Proof/Laws/Ops.lean ====
section
/-! SUPPORT. The shared operations: everything each can do, said once. -/

namespace Sys2Proof.Machine

/-! ## RBCheck -/

/-- RBCheck passes exactly where the instance exists and the context has the role (40_ring_buffer R109). -/
theorem rbCheck_eq_none_iff {s : State} {op : Opcode} {b : Byte} : s.rbCheck op b = none ↔ s.MayIssue op b := by
  unfold State.rbCheck State.MayIssue
  split
  · simp only [reduceCtorEq, false_iff, not_and]
    omega
  · split
    · next h1 h2 => simp [h2]; omega
    · next h1 h2 => simp [h2]

theorem rbCheck_of_mayIssue {s : State} {op : Opcode} {b : Byte} (h : s.MayIssue op b) : s.rbCheck op b = none :=
  rbCheck_eq_none_iff.2 h

theorem rbCheck_of_absent {s : State} {op : Opcode} {b : Byte} (h : s.cfg.numRB ≤ b.toNat) :
    s.rbCheck op b = some (.instanceOutOfRange, .inst b) := by
  simp [State.rbCheck, h]

theorem rbCheck_of_notOwner {s : State} {op : Opcode} {b : Byte} (h : b.toNat < s.cfg.numRB)
    (hr : (Opcode.role op).allows (s.par b.toNat) s.ctx = false) :
    s.rbCheck op b = some (.ownershipViolation, .instCtx b s.ctx) := by
  simp [State.rbCheck, h, hr]

/-- A stopping fault of RBCheck is one of two, by which check fails. -/
theorem rbCheck_some_cases {s : State} {op : Opcode} {b : Byte} {k : FaultKind} {i : FaultInfo}
    (h : s.rbCheck op b = some (k, i)) :
    (s.cfg.numRB ≤ b.toNat ∧ k = .instanceOutOfRange ∧ i = .inst b) ∨
    (b.toNat < s.cfg.numRB ∧ k = .ownershipViolation ∧ i = .instCtx b s.ctx) := by
  unfold State.rbCheck at h
  split at h
  · next h1 => simp only [Option.some.injEq, Prod.mk.injEq] at h; exact .inl ⟨h1, h.1.symm, h.2.symm⟩
  · next h1 =>
    split at h
    · simp at h
    · simp only [Option.some.injEq, Prod.mk.injEq] at h
      exact .inr ⟨by omega, h.1.symm, h.2.symm⟩

/-! ## The byte sink -/

/-- A sink write: an accepted count no longer than the piece, its prefix appended to OUT, nothing else but the sink's own
answers (41_sequencer R145). -/
theorem sinkWrite_spec (s : State) (piece : List Byte) :
    (s.sinkWrite piece).1 ≤ piece.length ∧
    (s.sinkWrite piece).2 =
      { s with
        out := s.out ++ piece.take (s.sinkWrite piece).1
        sink := (s.sinkWrite piece).2.sink
        sinkDraws := (s.sinkWrite piece).2.sinkDraws } := by
  unfold State.sinkWrite State.sinkAnswer
  cases h : s.sink with
  | nil => exact ⟨Nat.min_le_right _ _, rfl⟩
  | cons a rest => exact ⟨Nat.min_le_right _ _, rfl⟩

/-- A sequence of sink writes: OUT gains a subsequence of the pieces' bytes, as long as the sum of the accepted counts,
and nothing else changes but the sink's own answers (41_sequencer R144 to R146). -/
theorem sinkWriteAll_spec (pieces : List (List Byte)) (s : State) :
    ∃ bs, bs.Sublist pieces.flatten ∧ bs.length = (s.sinkWriteAll pieces).1 ∧
      (s.sinkWriteAll pieces).2 =
        { s with
          out := s.out ++ bs
          sink := (s.sinkWriteAll pieces).2.sink
          sinkDraws := (s.sinkWriteAll pieces).2.sinkDraws } := by
  induction pieces generalizing s with
  | nil => exact ⟨[], by simp, rfl, by simp [State.sinkWriteAll]⟩
  | cons piece pieces ih =>
    obtain ⟨hle, hs⟩ := sinkWrite_spec s piece
    obtain ⟨bs, h1, h2, h3⟩ := ih (s.sinkWrite piece).2
    refine ⟨piece.take (s.sinkWrite piece).1 ++ bs, ?_, ?_, ?_⟩
    · rw [List.flatten_cons]
      exact (List.take_sublist _ _).append h1
    · simp only [State.sinkWriteAll, List.length_append, List.length_take, h2]
      omega
    · simp only [State.sinkWriteAll]
      rw [h3, hs]
      simp

/-- A sequence of sink writes, exactly: OUT gains the prefixes the sink's answers accept, and the total is their length
(41_sequencer R144, R145). -/
theorem sinkWriteAll_accepted (pieces : List (List Byte)) (s : State) :
    ∃ answers, s.MayAnswer answers pieces ∧ (s.sinkWriteAll pieces).1 = (acceptedBy answers pieces).length ∧
      (s.sinkWriteAll pieces).2 =
        { s with
          out := s.out ++ acceptedBy answers pieces
          sink := (s.sinkWriteAll pieces).2.sink
          sinkDraws := (s.sinkWriteAll pieces).2.sinkDraws } := by
  induction pieces generalizing s with
  | nil => exact ⟨[], ⟨rfl, fun _ => rfl⟩, rfl, by simp [State.sinkWriteAll, acceptedBy]⟩
  | cons piece pieces ih =>
    obtain ⟨hle, hs⟩ := sinkWrite_spec s piece
    obtain ⟨answers, ⟨h1, h2⟩, h3, h4⟩ := ih (s.sinkWrite piece).2
    cases hk : s.sink with
    | nil =>
      refine ⟨(s.sinkWrite piece).1 :: answers, ⟨by simp [h1], fun h => by simp [hk] at h⟩, ?_, ?_⟩
      · simp only [State.sinkWriteAll, acceptedBy, List.zipWith_cons_cons, List.flatten_cons, List.length_append,
          List.length_take, h3]
        omega
      · simp only [State.sinkWriteAll]
        rw [h4, hs]
        simp [acceptedBy]
    | cons a rest =>
      have ha : (s.sinkWrite piece).1 = min a piece.length := by simp [State.sinkWrite, State.sinkAnswer, hk]
      have hr : (s.sinkWrite piece).2.sink = rest := by simp [State.sinkWrite, State.sinkAnswer, hk]
      have ht : piece.take (min a piece.length) = piece.take a := by
        rcases Nat.le_total a piece.length with h | h
        · rw [Nat.min_eq_left h]
        · rw [Nat.min_eq_right h, List.take_of_length_le h, List.take_length]
      refine ⟨a :: answers, ⟨by simp [h1], fun h => ?_⟩, ?_, ?_⟩
      · rw [hr] at h2
        simp only [hk, List.length_cons, Nat.add_le_add_iff_right] at h
        simp [hk, ← h2 h]
      · simp only [State.sinkWriteAll, acceptedBy, List.zipWith_cons_cons, List.flatten_cons, List.length_append,
          List.length_take, h3, ha]
      · simp only [State.sinkWriteAll]
        rw [h4, hs, ha, ht]
        simp [acceptedBy]

/-- A packet write, exactly: the header's pieces and the payload's, each cut to what the sink accepts (R144). -/
theorem emitPacket_accepted (s : State) (t : Tag) (chunks : List (List Byte)) :
    ∃ answers, s.MayAnswer answers (headerPieces s.cfg t s.seq ++ chunks) ∧
      (s.emitPacket t chunks).1 = (acceptedBy answers (headerPieces s.cfg t s.seq ++ chunks)).length ∧
      (s.emitPacket t chunks).2 =
        { s with
          seq := s.seq + 1
          out := s.out ++ acceptedBy answers (headerPieces s.cfg t s.seq ++ chunks)
          sink := (s.emitPacket t chunks).2.sink
          sinkDraws := (s.emitPacket t chunks).2.sinkDraws } :=
  sinkWriteAll_accepted (headerPieces s.cfg t s.seq ++ chunks) s.seqNext.2

/-- A sink that accepts every piece whole: OUT gains exactly the pieces (41_sequencer R146). -/
theorem sinkWriteAll_whole {pieces : List (List Byte)} {s : State} (h : acceptsWhole s.sink pieces = true) :
    s.sinkWriteAll pieces =
      (pieces.flatten.length, { s with out := s.out ++ pieces.flatten, sink := s.sink.drop pieces.length }) := by
  induction pieces generalizing s with
  | nil => simp [State.sinkWriteAll]
  | cons piece pieces ih =>
    cases hs : s.sink with
    | nil => simp [hs, acceptsWhole] at h
    | cons a rest =>
      simp only [hs, acceptsWhole, Bool.and_eq_true, decide_eq_true_eq] at h
      have hw : s.sinkWrite piece = (piece.length, { s with out := s.out ++ piece, sink := rest }) := by
        simp [State.sinkWrite, State.sinkAnswer, hs, Nat.min_eq_right h.1]
      simp only [State.sinkWriteAll, hw]
      rw [ih (s := { s with out := s.out ++ piece, sink := rest }) h.2]
      simp

/-- A packet write: SEQ advances by one whatever the sink accepts; OUT gains a subsequence of the packet's bytes, as long
as the returned total (41_sequencer R143 to R146). -/
theorem emitPacket_spec (s : State) (t : Tag) (chunks : List (List Byte)) :
    ∃ bs, bs.Sublist ([s.cfg.magic0, s.cfg.magic1, t.byte, s.seq] ++ chunks.flatten) ∧
      bs.length = (s.emitPacket t chunks).1 ∧
      (s.emitPacket t chunks).2 =
        { s with
          seq := s.seq + 1
          out := s.out ++ bs
          sink := (s.emitPacket t chunks).2.sink
          sinkDraws := (s.emitPacket t chunks).2.sinkDraws } := by
  obtain ⟨bs, h1, h2, h3⟩ := sinkWriteAll_spec (headerPieces s.cfg t s.seq ++ chunks) s.seqNext.2
  refine ⟨bs, ?_, h2, h3⟩
  simpa [headerPieces] using h1

/-- A packet write whose every piece is accepted whole: OUT gains exactly the packet (41_sequencer R146). -/
theorem emitPacket_whole {s : State} {t : Tag} {chunks : List (List Byte)}
    (h : acceptsWhole s.sink (headerPieces s.cfg t s.seq ++ chunks) = true) :
    s.emitPacket t chunks =
      (4 + chunks.flatten.length,
        { s with
          seq := s.seq + 1
          out := s.out ++ ([s.cfg.magic0, s.cfg.magic1, t.byte, s.seq] ++ chunks.flatten)
          sink := s.sink.drop (3 + chunks.length) }) := by
  have := sinkWriteAll_whole (s := s.seqNext.2) h
  simp only [State.emitPacket]
  rw [show s.seqNext.1 = s.seq from rfl, this]
  simp [headerPieces, State.seqNext]
  omega

/-! ## The payload of DP_WRITE -/

/-- Building a payload: two bytes a cell, and no change but fault records and draws (42_data_packet R164). -/
theorem payload_frame (op : Byte) (cells : List (Nat × Nat)) (s : State) :
    (s.payload op cells).1.length = 2 * cells.length ∧
    (s.payload op cells).2 =
      { s with faults := (s.payload op cells).2.faults, sampleDraws := (s.payload op cells).2.sampleDraws } := by
  induction cells generalizing s with
  | nil => exact ⟨rfl, rfl⟩
  | cons pc cells ih =>
    obtain ⟨p, c⟩ := pc
    simp only [State.payload]
    split
    · obtain ⟨h1, h2⟩ := ih s
      refine ⟨?_, h2⟩
      simp only [List.length_append, enc_length, h1, List.length_cons]
      omega
    · obtain ⟨h1, h2⟩ := ih { s.raise .undefinedSample op (.cell p c) with sampleDraws := s.sampleDraws + 1 }
      refine ⟨?_, ?_⟩
      · simp only [List.length_append, enc_length, h1, List.length_cons]
        omega
      · exact h2

/-- Where every cell has been written, the payload is their samples and no fault is recorded (30_encoding R82). -/
theorem payload_written {op : Byte} {cells : List (Nat × Nat)} {s : State}
    (h : ∀ pc ∈ cells, (s.dpRead pc.1 pc.2).isSome = true) :
    s.payload op cells = (encSamples s.cfg.byteOrder (cells.filterMap fun pc => s.dpRead pc.1 pc.2), s) := by
  induction cells with
  | nil => rfl
  | cons pc cells ih =>
    obtain ⟨p, c⟩ := pc
    obtain ⟨v, hv⟩ := Option.isSome_iff_exists.1 (h (p, c) List.mem_cons_self)
    simp only at hv
    simp only [State.payload, hv]
    rw [ih fun pc hpc => h pc (List.mem_cons_of_mem _ hpc)]
    simp [hv, encSamples_cons]

/-- The faults of a payload: one UndefinedSample record for each cell that holds no value (60_exceptions R204). -/
theorem mem_payload_faults (op : Byte) (cells : List (Nat × Nat)) (s : State) (f : FaultRecord) :
    f ∈ (s.payload op cells).2.faults ↔
      f ∈ s.faults ∨ ∃ pc ∈ cells, s.dpRead pc.1 pc.2 = none ∧ f = ⟨.undefinedSample, op, s.ctx, .cell pc.1 pc.2⟩ := by
  induction cells generalizing s with
  | nil => simp [State.payload]
  | cons pc cells ih =>
    obtain ⟨p, c⟩ := pc
    simp only [State.payload]
    split
    · next v hv =>
      rw [ih]
      simp [hv]
    · next hv =>
      rw [ih]
      have hr : ∀ pc : Nat × Nat,
          State.dpRead { s.raise .undefinedSample op (.cell p c) with sampleDraws := s.sampleDraws + 1 } pc.1 pc.2
            = s.dpRead pc.1 pc.2 := fun _ => rfl
      simp only [hr, List.exists_mem_cons_iff, hv, true_and]
      rw [show ({ s.raise .undefinedSample op (.cell p c) with sampleDraws := s.sampleDraws + 1 } : State).faults
        = (s.raise .undefinedSample op (.cell p c)).faults from rfl, State.mem_raise_faults]
      tauto

/-- FAULTS grows at its end while a payload is built. -/
theorem payload_faults_prefix (op : Byte) (cells : List (Nat × Nat)) (s : State) :
    s.faults <+: (s.payload op cells).2.faults := by
  induction cells generalizing s with
  | nil => exact List.prefix_rfl
  | cons pc cells ih =>
    obtain ⟨p, c⟩ := pc
    simp only [State.payload]
    split
    · exact ih s
    · exact (State.raise_faults_prefix s _ _ _).trans
        (ih { s.raise .undefinedSample op (.cell p c) with sampleDraws := s.sampleDraws + 1 })

theorem payload_faults_nodup (op : Byte) (cells : List (Nat × Nat)) {s : State} (h : s.faults.Nodup) :
    (s.payload op cells).2.faults.Nodup := by
  induction cells generalizing s with
  | nil => exact h
  | cons pc cells ih =>
    obtain ⟨p, c⟩ := pc
    simp only [State.payload]
    split
    · exact ih h
    · exact ih (s := { s.raise .undefinedSample op (.cell p c) with sampleDraws := s.sampleDraws + 1 })
        (State.raise_faults_nodup h _ _ _)

theorem mem_payloadCells {n ch : Nat} {pc : Nat × Nat} : pc ∈ payloadCells n ch ↔ pc.1 < n ∧ pc.2 < ch := by
  obtain ⟨p, c⟩ := pc
  simp [payloadCells]

theorem payloadCells_length (n ch : Nat) : (payloadCells n ch).length = n * ch := by
  simp [payloadCells]

/-- Different cells of `DP.S` have different indices. -/
theorem dpIndex_inj {ch p c p' c' : Nat} (hc : c < ch) (hc' : c' < ch) (h : dpIndex ch p c = dpIndex ch p' c') :
    p = p' ∧ c = c' := by
  unfold dpIndex at h
  have h1 : c = c' := by
    have := congrArg (· % ch) h
    simpa [Nat.mul_comm p, Nat.mul_comm p', Nat.mod_eq_of_lt hc, Nat.mod_eq_of_lt hc'] using this
  subst h1
  exact ⟨Nat.eq_of_mul_eq_mul_right (by omega) (by omega : p * ch = p' * ch), rfl⟩

/-- Cell `(p, c)` is the `p * CH + c`-th of a payload (30_encoding R82). -/
theorem payloadCells_getElem? {n ch p c : Nat} (hp : p < n) (hc : c < ch) :
    (payloadCells n ch)[p * ch + c]? = some (p, c) := by
  induction n with
  | zero => omega
  | succ n ih =>
    rw [payloadCells, List.range_succ, List.flatMap_append, ← payloadCells]
    by_cases h : p < n
    · rw [List.getElem?_append_left, ih h]
      rw [payloadCells_length]
      calc p * ch + c < p * ch + ch := by omega
        _ = (p + 1) * ch := by rw [Nat.succ_mul]
        _ ≤ n * ch := Nat.mul_le_mul_right _ h
    · have : p = n := by omega
      subst this
      rw [List.getElem?_append_right, payloadCells_length] <;> simp [payloadCells_length, hc]

/-- The `k`-th cell of a payload, where it holds a value, gives bytes `2k` and `2k + 1` (42_data_packet R164). -/
theorem payload_bytes_at (op : Byte) (cells : List (Nat × Nat)) (s : State) (k : Nat) (pc : Nat × Nat) (v : Sample)
    (hk : cells[k]? = some pc) (hv : s.dpRead pc.1 pc.2 = some v) :
    ((s.payload op cells).1.drop (2 * k)).take 2 = enc s.cfg.byteOrder v 2 := by
  induction cells generalizing s k with
  | nil => simp at hk
  | cons a cells ih =>
    obtain ⟨x, y⟩ := a
    have skip : ∀ (w : Sample) (l : List Byte), (enc s.cfg.byteOrder w 2 ++ l).drop (2 * (k - 1) + 2) =
        l.drop (2 * (k - 1)) := by
      intro w l
      rw [show 2 * (k - 1) + 2 = (enc s.cfg.byteOrder w 2).length + 2 * (k - 1) by rw [enc_length]; omega]
      rw [List.drop_append]
      simp
    simp only [State.payload]
    cases k with
    | zero =>
      simp only [List.getElem?_cons_zero, Option.some.injEq] at hk
      subst hk
      simp only at hv
      simp [hv]
    | succ k =>
      simp only [List.getElem?_cons_succ] at hk
      simp only [Nat.add_sub_cancel] at skip
      rw [show 2 * (k + 1) = 2 * k + 2 by omega]
      split
      · simp only [skip]
        exact ih s k hk hv
      · simp only [skip]
        exact ih { s.raise .undefinedSample op (.cell x y) with sampleDraws := s.sampleDraws + 1 } k hk hv

end Sys2Proof.Machine
end

