-- ==== Sys2Proof/Laws/Exec.lean ====
section
/-! SUPPORT. Inversion: what each command can do, once. If it answers a next state, that state is one of those named. -/

namespace Sys2Proof.Machine

/-- The state RB_PUSH leaves where there is space (40_ring_buffer R112). -/
def pushedState (s : State) (b : Byte) (item : Elem) : State :=
  s.setRb b.toNat
    { wr := slotAfter (s.par b.toNat).capacity (s.rb b.toNat).wr 1
      rd := (s.rb b.toNat).rd
      store := Memory.write (s.rb b.toNat).store (s.rb b.toNat).wr (item % 2 ^ (s.par b.toNat).width) }

/-- The state RB_POP and RB_SKIP leave where there is an element (40_ring_buffer R115, R116). -/
def poppedState (s : State) (b : Byte) : State :=
  s.setRb b.toNat { s.rb b.toNat with rd := slotAfter (s.par b.toNat).capacity (s.rb b.toNat).rd 1 }

theorem exec_rbCount_cases {s t : State} {b : Byte} (h : exec (.rbCount b) s = .next t) :
    (∃ k i, s.rbCheck .rbCount b = some (k, i) ∧ t = s.stop k Opcode.rbCount.byte (some b) i) ∨
    (s.MayIssue .rbCount b ∧ t = s.reply Opcode.rbCount.byte (some b)
      (.count (occupied (s.par b.toNat).capacity (s.rb b.toNat)))) := by
  simp only [exec, execRbCount] at h
  split at h
  · next k i hk => cases h; exact .inl ⟨k, i, hk, rfl⟩
  · next hk => cases h; exact .inr ⟨rbCheck_eq_none_iff.1 hk, rfl⟩

theorem exec_rbSpace_cases {s t : State} {b : Byte} (h : exec (.rbSpace b) s = .next t) :
    (∃ k i, s.rbCheck .rbSpace b = some (k, i) ∧ t = s.stop k Opcode.rbSpace.byte (some b) i) ∨
    (s.MayIssue .rbSpace b ∧ t = s.reply Opcode.rbSpace.byte (some b)
      (.count (freeSlots (s.par b.toNat).capacity (s.rb b.toNat)))) := by
  simp only [exec, execRbSpace] at h
  split at h
  · next k i hk => cases h; exact .inl ⟨k, i, hk, rfl⟩
  · next hk => cases h; exact .inr ⟨rbCheck_eq_none_iff.1 hk, rfl⟩

theorem exec_rbPush_cases {s t : State} {b : Byte} {item : Elem} (h : exec (.rbPush b item) s = .next t) :
    (∃ k i, s.rbCheck .rbPush b = some (k, i) ∧ t = s.stop k Opcode.rbPush.byte (some b) i) ∨
    (s.MayIssue .rbPush b ∧ isFull (s.par b.toNat).capacity (s.rb b.toNat) = true ∧
      t = s.reply Opcode.rbPush.byte (some b) (.ok false)) ∨
    (s.MayIssue .rbPush b ∧ isFull (s.par b.toNat).capacity (s.rb b.toNat) = false ∧
      (s.rb b.toNat).wr < (s.par b.toNat).capacity ∧
      t = (pushedState s b item).reply Opcode.rbPush.byte (some b) (.ok true)) := by
  simp only [exec, execRbPush] at h
  split at h
  · next k i hk => cases h; exact .inl ⟨k, i, hk, rfl⟩
  · next hk =>
    have hm := rbCheck_eq_none_iff.1 hk
    split at h
    · next hf => cases h; exact .inr (.inl ⟨hm, hf, rfl⟩)
    · next hf =>
      by_cases hw : (s.rb b.toNat).wr < (s.par b.toNat).capacity
      · rw [storeWrite_some hw] at h
        cases h
        exact .inr (.inr ⟨hm, by simpa using hf, hw, rfl⟩)
      · simp [storeWrite, hw] at h

theorem exec_rbPushN_cases {s t : State} {b : Byte} {items : List Elem} (h : exec (.rbPushN b items) s = .next t) :
    (∃ k i, s.rbCheck .rbPushN b = some (k, i) ∧ t = s.stop k Opcode.rbPushN.byte (some b) i) ∨
    (s.MayIssue .rbPushN b ∧ ∃ r1 r2 k k1,
      k = min items.length (freeSlots (s.par b.toNat).capacity (s.rb b.toNat)) ∧
      k1 = min k ((s.par b.toNat).capacity - (s.rb b.toNat).wr) ∧
      storeRange (s.par b.toNat) (s.rb b.toNat) (s.rb b.toNat).wr (items.take k1) = some r1 ∧
      storeRange (s.par b.toNat) r1 0 ((items.take k).drop k1) = some r2 ∧
      t = (s.setRb b.toNat { r2 with wr := slotAfter (s.par b.toNat).capacity (s.rb b.toNat).wr k }).reply
        Opcode.rbPushN.byte (some b) (.pushed k)) := by
  simp only [exec, execRbPushN] at h
  split at h
  · next k i hk => cases h; exact .inl ⟨k, i, hk, rfl⟩
  · next hk =>
    split at h
    · cases h
    · next r1 h1 =>
      split at h
      · cases h
      · next r2 h2 =>
        cases h
        exact .inr ⟨rbCheck_eq_none_iff.1 hk, r1, r2, _, _, rfl, rfl, h1, h2, rfl⟩

theorem exec_rbPeek_cases {s t : State} {b : Byte} (h : exec (.rbPeek b) s = .next t) :
    (∃ k i, s.rbCheck .rbPeek b = some (k, i) ∧ t = s.stop k Opcode.rbPeek.byte (some b) i) ∨
    (s.MayIssue .rbPeek b ∧ (s.rb b.toNat).wr = (s.rb b.toNat).rd ∧
      t = s.reply Opcode.rbPeek.byte (some b) (.item false none)) ∨
    (s.MayIssue .rbPeek b ∧ (s.rb b.toNat).wr ≠ (s.rb b.toNat).rd ∧
      (s.rb b.toNat).rd < (s.par b.toNat).capacity ∧
      t = s.reply Opcode.rbPeek.byte (some b)
        (.item true (Memory.read (s.rb b.toNat).store (s.rb b.toNat).rd))) := by
  simp only [exec, execRbPeek] at h
  split at h
  · next k i hk => cases h; exact .inl ⟨k, i, hk, rfl⟩
  · next hk =>
    have hm := rbCheck_eq_none_iff.1 hk
    split at h
    · next he => cases h; exact .inr (.inl ⟨hm, isEmpty_iff.1 he, rfl⟩)
    · next he =>
      by_cases hr : (s.rb b.toNat).rd < (s.par b.toNat).capacity
      · rw [storeRead_some hr] at h
        cases h
        exact .inr (.inr ⟨hm, fun e => he (isEmpty_iff.2 e), hr, rfl⟩)
      · simp [storeRead, hr] at h

theorem exec_rbPop_cases {s t : State} {b : Byte} (h : exec (.rbPop b) s = .next t) :
    (∃ k i, s.rbCheck .rbPop b = some (k, i) ∧ t = s.stop k Opcode.rbPop.byte (some b) i) ∨
    (s.MayIssue .rbPop b ∧ (s.rb b.toNat).wr = (s.rb b.toNat).rd ∧
      t = s.reply Opcode.rbPop.byte (some b) (.item false none)) ∨
    (s.MayIssue .rbPop b ∧ (s.rb b.toNat).wr ≠ (s.rb b.toNat).rd ∧
      (s.rb b.toNat).rd < (s.par b.toNat).capacity ∧
      t = (poppedState s b).reply Opcode.rbPop.byte (some b)
        (.item true (Memory.read (s.rb b.toNat).store (s.rb b.toNat).rd))) := by
  simp only [exec, execRbPop] at h
  split at h
  · next k i hk => cases h; exact .inl ⟨k, i, hk, rfl⟩
  · next hk =>
    have hm := rbCheck_eq_none_iff.1 hk
    split at h
    · next he => cases h; exact .inr (.inl ⟨hm, isEmpty_iff.1 he, rfl⟩)
    · next he =>
      by_cases hr : (s.rb b.toNat).rd < (s.par b.toNat).capacity
      · rw [storeRead_some hr] at h
        cases h
        exact .inr (.inr ⟨hm, fun e => he (isEmpty_iff.2 e), hr, rfl⟩)
      · simp [storeRead, hr] at h

theorem exec_rbSkip_cases {s t : State} {b : Byte} (h : exec (.rbSkip b) s = .next t) :
    (∃ k i, s.rbCheck .rbSkip b = some (k, i) ∧ t = s.stop k Opcode.rbSkip.byte (some b) i) ∨
    (s.MayIssue .rbSkip b ∧ (s.rb b.toNat).wr = (s.rb b.toNat).rd ∧
      t = s.reply Opcode.rbSkip.byte (some b) (.ok false)) ∨
    (s.MayIssue .rbSkip b ∧ (s.rb b.toNat).wr ≠ (s.rb b.toNat).rd ∧
      t = (poppedState s b).reply Opcode.rbSkip.byte (some b) (.ok true)) := by
  simp only [exec, execRbSkip] at h
  split at h
  · next k i hk => cases h; exact .inl ⟨k, i, hk, rfl⟩
  · next hk =>
    have hm := rbCheck_eq_none_iff.1 hk
    split at h
    · next he => cases h; exact .inr (.inl ⟨hm, isEmpty_iff.1 he, rfl⟩)
    · next he => cases h; exact .inr (.inr ⟨hm, fun e => he (isEmpty_iff.2 e), rfl⟩)

theorem exec_rbClear_cases {s t : State} {b : Byte} (h : exec (.rbClear b) s = .next t) :
    (∃ k i, s.rbCheck .rbClear b = some (k, i) ∧ t = s.stop k Opcode.rbClear.byte (some b) i) ∨
    (s.MayIssue .rbClear b ∧
      t = (s.setRb b.toNat { s.rb b.toNat with rd := (s.rb b.toNat).wr }).reply
        Opcode.rbClear.byte (some b) .ack) := by
  simp only [exec, execRbClear] at h
  split at h
  · next k i hk => cases h; exact .inl ⟨k, i, hk, rfl⟩
  · next hk => cases h; exact .inr ⟨rbCheck_eq_none_iff.1 hk, rfl⟩

theorem exec_dpConfig_cases {s t : State} {n : Half} (h : exec (.dpConfig n) s = .next t) :
    ((n.toNat < 1 ∨ s.cfg.maxPoints < n.toNat) ∧
      t = s.stop .configOutOfRange Opcode.dpConfig.byte none (.count n)) ∨
    (1 ≤ n.toNat ∧ n.toNat ≤ s.cfg.maxPoints ∧
      t = State.reply { s with dpPPP := n.toNat } Opcode.dpConfig.byte none .ack) := by
  simp only [exec, execDpConfig] at h
  split at h
  · next hn => cases h; exact .inl ⟨hn, rfl⟩
  · next hn => cases h; exact .inr ⟨by omega, by omega, rfl⟩

theorem exec_dpAdd_cases {s t : State} {ch : Byte} {v : Sample} (h : exec (.dpAdd ch v) s = .next t) :
    (s.cfg.ch ≤ ch.toNat ∧ t = s.stop .channelOutOfRange Opcode.dpAdd.byte none (.channel ch)) ∨
    (ch.toNat < s.cfg.ch ∧ s.dpPPP ≤ s.dpIDX ∧ t = s.reply Opcode.dpAdd.byte none (.ok false)) ∨
    (ch.toNat < s.cfg.ch ∧ s.dpIDX < s.dpPPP ∧ s.dpIDX < s.cfg.maxPoints ∧
      t = State.reply
        { s with
          dpS := Memory.write s.dpS (dpIndex s.cfg.ch s.dpIDX ch.toNat) v
          dpSTATE := fillState s.dpSTATE s.dpIDX s.dpPPP }
        Opcode.dpAdd.byte none (.ok true)) := by
  simp only [exec, execDpAdd] at h
  split at h
  · next hc => cases h; exact .inl ⟨hc, rfl⟩
  · next hc =>
    split at h
    · next hl => cases h; exact .inr (.inl ⟨by omega, hl, rfl⟩)
    · next hl =>
      by_cases hi : s.dpIDX < s.cfg.maxPoints
      · rw [show s.dpStore s.dpIDX ch.toNat v =
            some { s with dpS := Memory.write s.dpS (dpIndex s.cfg.ch s.dpIDX ch.toNat) v } by
          simp [State.dpStore, Config.hasCell, hi, Nat.lt_of_not_le hc]] at h
        cases h
        exact .inr (.inr ⟨by omega, by omega, hi, rfl⟩)
      · simp [State.dpStore, Config.hasCell, hi] at h

theorem exec_dpAdvance_cases {s t : State} (h : exec .dpAdvance s = .next t) :
    (s.dpIDX = s.cfg.maxPoints ∧ t = s.stop .pointOverflow Opcode.dpAdvance.byte none .none) ∨
    (s.dpIDX ≠ s.cfg.maxPoints ∧
      t = State.reply
        { s with dpIDX := s.dpIDX + 1, dpSTATE := fillState s.dpSTATE (s.dpIDX + 1) s.dpPPP }
        Opcode.dpAdvance.byte none .ack) := by
  simp only [exec, execDpAdvance] at h
  split at h
  · next hi => cases h; exact .inl ⟨hi, rfl⟩
  · next hi => cases h; exact .inr ⟨hi, rfl⟩

/-- The state fault of DP_WRITE is a fault record and no other change. -/
theorem writeFault_frame (s : State) : s.writeFault = { s with faults := s.writeFault.faults } := by
  unfold State.writeFault
  split
  · rfl
  · split <;> rfl

theorem mem_writeFault_faults (s : State) (f : FaultRecord) :
    f ∈ s.writeFault.faults ↔ f ∈ s.faults ∨
      (s.dpSTATE = .empty ∧ f = ⟨.writeEmpty, Opcode.dpWrite.byte, s.ctx, .none⟩) ∨
      (s.dpSTATE = .written ∧ f = ⟨.packetReuse, Opcode.dpWrite.byte, s.ctx, .none⟩) := by
  unfold State.writeFault
  split
  · next h => simp [State.mem_raise_faults, h]
  · split
    · next h => simp [State.mem_raise_faults, h]
    · next h1 h2 => simp [h1, h2]

theorem writeFault_faults_prefix (s : State) : s.faults <+: s.writeFault.faults := by
  unfold State.writeFault
  split
  · exact State.raise_faults_prefix _ _ _ _
  · split
    · exact State.raise_faults_prefix _ _ _ _
    · exact List.prefix_rfl

theorem writeFault_faults_nodup {s : State} (h : s.faults.Nodup) : s.writeFault.faults.Nodup := by
  unfold State.writeFault
  split
  · exact State.raise_faults_nodup h _ _ _
  · split
    · exact State.raise_faults_nodup h _ _ _
    · exact h

/-- Everything DP_WRITE can do: the fields it leaves alone, and what it writes in the others (42_data_packet R164). -/
theorem exec_dpWrite_cases {s t : State} (h : exec .dpWrite s = .next t) :
    s.dpPPP ≤ s.cfg.maxPoints ∧ ∃ bs p,
      p = s.writeFault.payload Opcode.dpWrite.byte (payloadCells s.dpPPP s.cfg.ch) ∧
      bs.Sublist ([s.cfg.magic0, s.cfg.magic1, (dataTag s.dpPPP).byte, s.seq] ++ p.1) ∧
      t = { s with
        seq := s.seq + 1
        out := s.out ++ bs
        sink := t.sink
        sinkDraws := t.sinkDraws
        faults := p.2.faults
        sampleDraws := p.2.sampleDraws
        dpSTATE := .written
        replies := s.replies ++ [⟨s.ctx, Opcode.dpWrite.byte, none, .total bs.length⟩] } := by
  simp only [exec, execDpWrite] at h
  split at h
  · cases h
  · next hp =>
    have hf := writeFault_frame s
    obtain ⟨_, h2⟩ := payload_frame Opcode.dpWrite.byte (payloadCells s.dpPPP s.cfg.ch) s.writeFault
    generalize hpay : s.writeFault.payload Opcode.dpWrite.byte (payloadCells s.dpPPP s.cfg.ch) = p at h h2
    have h2' : p.2 = { s with faults := p.2.faults, sampleDraws := p.2.sampleDraws } := by
      rw [h2]
      conv_lhs => rw [hf]
    obtain ⟨bs, g1, g2, g3⟩ := emitPacket_spec p.2 (dataTag s.dpPPP) [p.1]
    refine ⟨Nat.le_of_not_lt hp, bs, p, rfl, ?_, ?_⟩
    · rw [h2'] at g1
      simpa using g1
    · rw [← g2] at h
      rw [g3] at h
      cases h
      rw [h2']
      rfl

/-- Everything a time-packet write can do (41_sequencer R144, 43_time R190 to R192). -/
theorem emitPacket_reply_cases {s t : State} {tag : Tag} {chunks : List (List Byte)} {op : Byte}
    (h : t = (s.emitPacket tag chunks).2.reply op none (.total (s.emitPacket tag chunks).1)) :
    ∃ bs, bs.Sublist ([s.cfg.magic0, s.cfg.magic1, tag.byte, s.seq] ++ chunks.flatten) ∧
      t = { s with
        seq := s.seq + 1
        out := s.out ++ bs
        sink := t.sink
        sinkDraws := t.sinkDraws
        replies := s.replies ++ [⟨s.ctx, op, none, .total bs.length⟩] } := by
  obtain ⟨bs, g1, g2, g3⟩ := emitPacket_spec s tag chunks
  refine ⟨bs, g1, ?_⟩
  rw [← g2, g3] at h
  subst h
  rfl

theorem exec_tpWrite_eq (s : State) (req : Byte) (ts : Stamp) :
    exec (.tpWrite req ts) s =
      .next ((s.emitPacket .n [[req], enc s.cfg.byteOrder ts 4]).2.reply Opcode.tpWrite.byte none
        (.total (s.emitPacket .n [[req], enc s.cfg.byteOrder ts 4]).1)) := rfl

theorem exec_fstWrite_eq (s : State) (ts : Stamp) :
    exec (.fstWrite ts) s =
      .next ((s.emitPacket .f [enc s.cfg.byteOrder ts 4]).2.reply Opcode.fstWrite.byte none
        (.total (s.emitPacket .f [enc s.cfg.byteOrder ts 4]).1)) := rfl

theorem exec_lufWrite_eq (s : State) (req : Byte) (ts : Stamp) (fid : Half) (fts : Stamp) :
    exec (.lufWrite req ts fid fts) s =
      .next ((s.emitPacket .l [[req], enc s.cfg.byteOrder ts 4, enc s.cfg.byteOrder fid 2,
          enc s.cfg.byteOrder fts 4]).2.reply Opcode.lufWrite.byte none
        (.total (s.emitPacket .l [[req], enc s.cfg.byteOrder ts 4, enc s.cfg.byteOrder fid 2,
          enc s.cfg.byteOrder fts 4]).1)) := rfl

/-! ## What a legal state gives the commands -/

theorem State.Inv.legal {s : State} (h : s.Inv) {b : Nat} (hb : b < s.cfg.numRB) : RB.Legal (s.par b) (s.rb b) :=
  h.2.2.1 b hb

theorem State.par_mem {s : State} {b : Nat} (hb : b < s.cfg.numRB) : s.par b ∈ s.cfg.rb := by
  simp only [State.par, List.getD_eq_getElem?_getD, List.getElem?_eq_getElem (show b < s.cfg.rb.length from hb),
    Option.getD_some]
  exact List.getElem_mem _

theorem State.Inv.two_le_capacity {s : State} (h : s.Inv) {b : Nat} (hb : b < s.cfg.numRB) :
    2 ≤ (s.par b).capacity := (h.1.2.2.1 _ (State.par_mem hb)).1

/-- Both ranges of RB_PUSHN exist, and together they put item `j` in the slot `j` places after `WR` and leave every other
slot alone (40_ring_buffer R113). -/
theorem pushN_ranges {s : State} (h : s.Inv) {b : Byte} (hb : b.toNat < s.cfg.numRB) (items : List Elem) {k k1 : Nat}
    (hk : min items.length (freeSlots (s.par b.toNat).capacity (s.rb b.toNat)) = k)
    (hk1 : min k ((s.par b.toNat).capacity - (s.rb b.toNat).wr) = k1) :
    ∃ r1 r2, storeRange (s.par b.toNat) (s.rb b.toNat) (s.rb b.toNat).wr (items.take k1) = some r1 ∧
      storeRange (s.par b.toNat) r1 0 ((items.take k).drop k1) = some r2 ∧
      r2.rd = (s.rb b.toNat).rd ∧ Memory.wf r2.store ∧
      (∀ e ∈ r2.store, e.1 < (s.par b.toNat).capacity ∧ e.2 < 2 ^ (s.par b.toNat).width) ∧
      (∀ j, j < k → Memory.read r2.store (slotAfter (s.par b.toNat).capacity (s.rb b.toNat).wr j) =
        (items[j]?).map (· % 2 ^ (s.par b.toNat).width)) ∧
      (∀ j, (∀ l, l < k → j ≠ slotAfter (s.par b.toNat).capacity (s.rb b.toNat).wr l) →
        Memory.read r2.store j = Memory.read (s.rb b.toNat).store j) := by
  obtain ⟨⟨hw, hr⟩, hwf, hbd, hocc⟩ := h.legal hb
  generalize s.par b.toNat = p at *
  generalize s.rb b.toNat = r at *
  have hfs : freeSlots p.capacity r ≤ p.capacity - 1 := by unfold freeSlots; omega
  obtain ⟨r1, a1, a2, a3, a4, a5, a6, a7⟩ :=
    storeRange_spec (p := p) (items.take k1) (r := r) (i := r.wr) (by rw [List.length_take]; omega)
  obtain ⟨r2, b1, b2, b3, b4, b5, b6, b7⟩ :=
    storeRange_spec (p := p) ((items.take k).drop k1) (r := r1) (i := 0)
      (by rw [List.length_drop, List.length_take]; omega)
  have l1 : (items.take k1).length = k1 := by rw [List.length_take]; omega
  have l2 : ((items.take k).drop k1).length = k - k1 := by rw [List.length_drop, List.length_take]; omega
  rw [l1] at a4 a5
  rw [l2] at b4 b5
  refine ⟨r1, r2, a1, b1, by rw [b3, a3], b6 (a6 hwf), b7 (a7 hbd), ?_, ?_⟩
  · intro j hj
    rw [slotAfter_eq hw (by omega)]
    split
    · next hlt => rw [b5 _ (by omega), a4 j (by omega), List.getElem?_take_of_lt (by omega)]
    · next hge =>
      have := b4 (j - k1) (by omega)
      rw [Nat.zero_add] at this
      rw [show r.wr + j - p.capacity = j - k1 by omega, this, List.getElem?_drop,
        List.getElem?_take_of_lt (by omega)]
      congr 2
      omega
  · intro j hj
    rw [b5, a5]
    · by_contra hc
      have h1 : r.wr ≤ j ∧ j < r.wr + k1 := by omega
      refine hj (j - r.wr) (by omega) ?_
      rw [slotAfter_eq hw (by omega), if_pos (by omega)]; omega
    · by_contra hc
      have h1 : j < k - k1 := by omega
      refine hj (j + k1) (by omega) ?_
      rw [slotAfter_eq hw (by omega), if_neg (by omega)]; omega

/-- The use of read data is at most a fault record (60_exceptions R204, code 10). -/
theorem useData_frame (s : State) (b : Byte) :
    s.useData b = { s with faults := (s.useData b).faults } ∧ s.faults <+: (s.useData b).faults ∧
      (s.faults.Nodup → (s.useData b).faults.Nodup) := by
  unfold State.useData
  split
  · exact ⟨rfl, State.raise_faults_prefix _ _ _ _, fun h => State.raise_faults_nodup h _ _ _⟩
  · exact ⟨rfl, List.prefix_rfl, id⟩

/-- Replacements of two different instances commute (10_state R23). -/
theorem State.setRb_comm (s : State) {b b' : Nat} (r r' : RB) (h : b' ≠ b) :
    (s.setRb b' r').setRb b r = (s.setRb b r).setRb b' r' := by
  simp [State.setRb, List.set_comm _ _ h]

end Sys2Proof.Machine
end

