-- ==== Sys2Proof/Laws/PerInstr.lean ====
section
/-! SUPPORT. Statements made once per instruction. EncodeShape: how long an encoding is and which byte it starts with
(30_encoding R80, R86, R95, R96). -/

/-- An instruction's encoding has its format's length; a command's starts with its opcode byte, a packet's with its first
magic byte. -/
def Sys2Proof.Laws.EncodeShape.Statement (i : Sys2Proof.Instr) : Prop :=
  ∀ c : Sys2Proof.Config, (Sys2Proof.encode c i).length = Sys2Proof.frameLength c i ∧
    (∀ op, i.opcode = some op → (Sys2Proof.encode c i).head? = some op.byte) ∧
    (i.isCommand = false → 4 ≤ (Sys2Proof.encode c i).length)

namespace Sys2Proof.Laws.EncodeShape

theorem rbPush (b : Byte) (item : Elem) :
    Sys2Proof.Laws.EncodeShape.Statement (.rbPush b item) := by
  intro c
  refine ⟨?_, fun _ h => by cases h; rfl, fun h => by cases h⟩
  simp only [encode, frameLength, List.length_cons, leBytes_length]
  omega

theorem rbPushN (b : Byte) (items : List Elem) :
    Sys2Proof.Laws.EncodeShape.Statement (.rbPushN b items) := by
  intro c
  refine ⟨?_, fun _ h => by cases h; rfl, fun h => by cases h⟩
  simp only [encode, frameLength, List.length_cons, List.length_append, leBytes_length, flatMap_leBytes_length]
  omega

theorem rbCount (b : Byte) :
    Sys2Proof.Laws.EncodeShape.Statement (.rbCount b) := by
  intro c
  refine ⟨?_, fun _ h => by cases h; rfl, fun h => by cases h⟩
  simp [encode, frameLength]

theorem rbSpace (b : Byte) :
    Sys2Proof.Laws.EncodeShape.Statement (.rbSpace b) := by
  intro c
  refine ⟨?_, fun _ h => by cases h; rfl, fun h => by cases h⟩
  simp [encode, frameLength]

theorem rbPeek (b : Byte) :
    Sys2Proof.Laws.EncodeShape.Statement (.rbPeek b) := by
  intro c
  refine ⟨?_, fun _ h => by cases h; rfl, fun h => by cases h⟩
  simp [encode, frameLength]

theorem rbPop (b : Byte) :
    Sys2Proof.Laws.EncodeShape.Statement (.rbPop b) := by
  intro c
  refine ⟨?_, fun _ h => by cases h; rfl, fun h => by cases h⟩
  simp [encode, frameLength]

theorem rbSkip (b : Byte) :
    Sys2Proof.Laws.EncodeShape.Statement (.rbSkip b) := by
  intro c
  refine ⟨?_, fun _ h => by cases h; rfl, fun h => by cases h⟩
  simp [encode, frameLength]

theorem rbClear (b : Byte) :
    Sys2Proof.Laws.EncodeShape.Statement (.rbClear b) := by
  intro c
  refine ⟨?_, fun _ h => by cases h; rfl, fun h => by cases h⟩
  simp [encode, frameLength]

theorem seqReset :
    Sys2Proof.Laws.EncodeShape.Statement (.seqReset) := by
  intro c
  refine ⟨?_, fun _ h => by cases h; rfl, fun h => by cases h⟩
  simp [encode, frameLength]

theorem dpConfig (n : Half) :
    Sys2Proof.Laws.EncodeShape.Statement (.dpConfig n) := by
  intro c
  refine ⟨?_, fun _ h => by cases h; rfl, fun h => by cases h⟩
  simp [encode, frameLength]

theorem dpReset :
    Sys2Proof.Laws.EncodeShape.Statement (.dpReset) := by
  intro c
  refine ⟨?_, fun _ h => by cases h; rfl, fun h => by cases h⟩
  simp [encode, frameLength]

theorem dpAdd (ch : Byte) (value : Sample) :
    Sys2Proof.Laws.EncodeShape.Statement (.dpAdd ch value) := by
  intro c
  refine ⟨?_, fun _ h => by cases h; rfl, fun h => by cases h⟩
  simp [encode, frameLength]

theorem dpAdvance :
    Sys2Proof.Laws.EncodeShape.Statement (.dpAdvance) := by
  intro c
  refine ⟨?_, fun _ h => by cases h; rfl, fun h => by cases h⟩
  simp [encode, frameLength]

theorem dpWrite :
    Sys2Proof.Laws.EncodeShape.Statement (.dpWrite) := by
  intro c
  refine ⟨?_, fun _ h => by cases h; rfl, fun h => by cases h⟩
  simp [encode, frameLength]

theorem tpWrite (req : Byte) (ts : Stamp) :
    Sys2Proof.Laws.EncodeShape.Statement (.tpWrite req ts) := by
  intro c
  refine ⟨?_, fun _ h => by cases h; rfl, fun h => by cases h⟩
  simp [encode, frameLength]

theorem fstWrite (ts : Stamp) :
    Sys2Proof.Laws.EncodeShape.Statement (.fstWrite ts) := by
  intro c
  refine ⟨?_, fun _ h => by cases h; rfl, fun h => by cases h⟩
  simp [encode, frameLength]

theorem lufWrite (req : Byte) (ts : Stamp) (frameId : Half) (frameTs : Stamp) :
    Sys2Proof.Laws.EncodeShape.Statement (.lufWrite req ts frameId frameTs) := by
  intro c
  refine ⟨?_, fun _ h => by cases h; rfl, fun h => by cases h⟩
  simp [encode, frameLength]

theorem pktD (m n s : Byte) (samples : List Sample) :
    Sys2Proof.Laws.EncodeShape.Statement (.pktD m n s samples) := by
  intro c
  refine ⟨?_, (fun _ h => by cases h), fun _ => ?_⟩ <;>
    simp [encode, frameLength, headerBytes, encSamples_length]
  omega

theorem pktM (m n s : Byte) (samples : List Sample) :
    Sys2Proof.Laws.EncodeShape.Statement (.pktM m n s samples) := by
  intro c
  refine ⟨?_, (fun _ h => by cases h), fun _ => ?_⟩ <;>
    simp [encode, frameLength, headerBytes, encSamples_length]
  omega

theorem pktN (m n s req : Byte) (ts : Stamp) :
    Sys2Proof.Laws.EncodeShape.Statement (.pktN m n s req ts) := by
  intro c
  refine ⟨?_, (fun _ h => by cases h), fun _ => ?_⟩ <;> simp [encode, frameLength, headerBytes]

theorem pktF (m n s : Byte) (ts : Stamp) :
    Sys2Proof.Laws.EncodeShape.Statement (.pktF m n s ts) := by
  intro c
  refine ⟨?_, (fun _ h => by cases h), fun _ => ?_⟩ <;> simp [encode, frameLength, headerBytes]

theorem pktL (m n s req : Byte) (ts : Stamp) (frameId : Half) (frameTs : Stamp) :
    Sys2Proof.Laws.EncodeShape.Statement (.pktL m n s req ts frameId frameTs) := by
  intro c
  refine ⟨?_, (fun _ h => by cases h), fun _ => ?_⟩ <;> simp [encode, frameLength, headerBytes]

end Sys2Proof.Laws.EncodeShape
end

