-- ==== Sys2Proof/Laws/Step.lean ====
section
/-! SUPPORT. Inversion of the step: everything one step can do, once. -/

namespace Sys2Proof.Machine

/-- The first request decides: if a step answers a next state, it is one of these. -/
theorem step_cases {s t : State} (h : step s = .next t) :
    s.cfg.WF ∧ ((s.port = [] ∧ t = s) ∨ ∃ r q, s.port = r :: q ∧
      ((∃ ctx f i, r = .command ctx f ∧ ctx ∈ s.cfg.ctxs ∧ decodeFrame s.cfg f = .instr i ∧
          exec i { s with port := q, ctx := ctx } = .next t) ∨
        (∃ ctx f op, r = .command ctx f ∧ ctx ∈ s.cfg.ctxs ∧ decodeFrame s.cfg f = .reserved op ∧
          t = State.illegalCommand { s with port := q, ctx := ctx } op) ∨
        (r = .reset ∧ t = State.wholeReset { s with port := q }) ∨
        (∃ ctx b, r = .useData ctx b ∧ ctx ∈ s.cfg.ctxs ∧ t = State.useData { s with port := q, ctx := ctx } b) ∨
        (∃ ppp bs i, r = .packet ppp bs ∧ decodePacket s.cfg ppp bs = some i ∧
          exec i { s with port := q } = .next t) ∨
        (∃ ppp bs, r = .packet ppp bs ∧ decodePacket s.cfg ppp bs = none ∧ t = { s with port := q }))) := by
  unfold step at h
  split at h
  · next hw =>
    refine ⟨hw, ?_⟩
    split at h
    · next hp => cases h; exact .inl ⟨hp, rfl⟩
    · next ctx f q hp =>
      split at h
      · next hc =>
        unfold stepFrame at h
        split at h
        · next i hd => exact .inr ⟨_, _, hp, .inl ⟨_, _, _, rfl, hc, hd, h⟩⟩
        · next i hd => cases h; exact .inr ⟨_, _, hp, .inr (.inl ⟨_, _, _, rfl, hc, hd, rfl⟩)⟩
        · cases h
      · cases h
    · next q hp => cases h; exact .inr ⟨_, _, hp, .inr (.inr (.inl ⟨rfl, rfl⟩))⟩
    · next ctx b q hp =>
      split at h
      · next hc => cases h; exact .inr ⟨_, _, hp, .inr (.inr (.inr (.inl ⟨_, _, rfl, hc, rfl⟩)))⟩
      · cases h
    · next ppp bs q hp =>
      unfold stepPacket at h
      split at h
      · next i hd => exact .inr ⟨_, _, hp, .inr (.inr (.inr (.inr (.inl ⟨_, _, _, rfl, hd, h⟩))))⟩
      · next hd => cases h; exact .inr ⟨_, _, hp, .inr (.inr (.inr (.inr (.inr ⟨_, _, rfl, hd, rfl⟩))))⟩
  · cases h

/-- A step with a request before it, where the parameters are a configuration, without unfolding `step` again. -/
theorem step_useData {s : State} {ctx : Ctx} {b : Byte} {q : List Request} (hw : s.cfg.WF)
    (hp : s.port = .useData ctx b :: q) (hc : ctx ∈ s.cfg.ctxs) :
    step s = .next (State.useData { s with port := q, ctx := ctx } b) := by
  unfold step
  rw [if_pos hw, hp]
  simp only [hc, if_true]

end Sys2Proof.Machine
end

