-- ==== Sys2Proof/Tests/Slice0.lean ====
section
/-! SUPPORT. Tests. Expected results come from spec/95_test_vectors.md (the vector's name stands beside each test) or, for
the model's own conventions, from the log entry named. Then the witnesses: for each obligation with hypotheses, a state
and operands that meet all of them, for each clause. -/

namespace Sys2Proof.Tests

open Sys2Proof.Machine

/-! ## Helpers -/

/-- K0 of 95_test_vectors with two magic bytes of no significance, little-endian. -/
def le : Config := Config.k0 0xA5 0x5A .le

/-- The same, big-endian. -/
def be : Config := Config.k0 0xA5 0x5A .be

/-- Two instances whose elements are not whole bytes: `W_0 = 12`, `W_1 = 1`. -/
def narrow : Config := { le with rb := [⟨4, 12, .producer, .consumer⟩, ⟨2, 1, .producer, .consumer⟩] }

/-- After reset, with a sink that accepts the next pieces whole. -/
def fresh (c : Config) : State := { State.resetOf c with sink := [100, 100, 100, 100, 100, 100, 100] }

/-- `fresh le` with instance 0 replaced, the consumer issuing. -/
def ring0 (wr rd : Nat) (store : Memory Elem) : State :=
  { fresh le with rbs := [⟨wr, rd, store⟩, RB.initial], ctx := .consumer }

/-- `fresh le` with instance 1 replaced, the consumer issuing. -/
def ring1 (wr rd : Nat) (store : Memory Elem) : State :=
  { fresh le with rbs := [RB.initial, ⟨wr, rd, store⟩], ctx := .consumer }

/-- The same, the producer issuing. -/
def byProducer (s : State) : State := { s with ctx := .producer }

/-- The next state, if there is one. -/
def next? (o : Host.Outcome State Fault Refusal) : Option State :=
  match o with
  | .next t => some t
  | .fault _ => none
  | .refused _ => none

/-- The refusal, if there is one. -/
def refusal? (o : Host.Outcome State Fault Refusal) : Option Refusal :=
  match o with
  | .next _ => none
  | .fault _ => none
  | .refused r => some r

/-- The cursors and storage of instance `b` after an instruction, and the last response. -/
def ringAfter (b : Nat) (o : Host.Outcome State Fault Refusal) : Option (Nat × Nat × Memory Elem × Option Response) :=
  (next? o).map fun t => ((t.rb b).wr, (t.rb b).rd, (t.rb b).store, t.replies.getLast?.map Reply.resp)

/-- The output, the sequence counter and the last response after an instruction. -/
def outAfter (o : Host.Outcome State Fault Refusal) : Option (List Byte × Byte × Option Response) :=
  (next? o).map fun t => (t.out, t.seq, t.replies.getLast?.map Reply.resp)

/-- The DataPacket registers, the last response and the fault kinds after an instruction. -/
def dpAfter (o : Host.Outcome State Fault Refusal) :
    Option (Nat × Nat × DPState × Option Response × List FaultKind) :=
  (next? o).map fun t =>
    (t.dpPPP, t.dpIDX, t.dpSTATE, t.replies.getLast?.map Reply.resp, t.faults.map FaultRecord.kind)

/-- The tag of a packet. -/
def tagOf : Instr → Option Tag
  | .pktD _ _ _ _ => some .d
  | .pktM _ _ _ _ => some .m
  | .pktN _ _ _ _ _ => some .n
  | .pktF _ _ _ _ => some .f
  | .pktL _ _ _ _ _ _ _ => some .l
  | _ => none

/-! ## WellFormed refuses ill-formed terms (30_encoding R86, R96) -/

theorem test_wellFormed_refuses_wide_item :
    (Instr.rbPush 0 65536).wellFormed le = false ∧ (Instr.rbPush 0 65535).wellFormed le = true ∧
      (Instr.rbPush 0 4096).wellFormed narrow = false ∧ (Instr.rbPush 0 4095).wellFormed narrow = true := by decide

theorem test_wellFormed_refuses_wide_bulk_item :
    (Instr.rbPushN 1 [1, 2]).wellFormed narrow = false ∧ (Instr.rbPushN 1 [1, 0]).wellFormed narrow = true := by decide

theorem test_wellFormed_refuses_too_many_items :
    (Instr.rbPushN 0 (List.replicate 65536 0)).wellFormed le = false := by
  rw [Instr.wellFormed, List.length_replicate]
  rfl

theorem test_wellFormed_refuses_short_D : (Instr.pktD 0 0 0 [1]).wellFormed le = false := by decide

theorem test_wellFormed_refuses_one_point_M : (Instr.pktM 0 0 0 [1, 2]).wellFormed le = false := by decide

theorem test_wellFormed_refuses_broken_point_M : (Instr.pktM 0 0 0 [1, 2, 3, 4, 5]).wellFormed le = false := by decide

theorem test_wellFormed_refuses_long_M :
    (Instr.pktM 0 0 0 [1, 2, 3, 4, 5, 6, 7, 8, 9, 10]).wellFormed le = false ∧
      (Instr.pktM 0 0 0 [1, 2, 3, 4, 5, 6, 7, 8]).wellFormed le = true := by decide

/-! ## Decoding: the frames of L2.1, the packets of L1 and L2.6, written out -/

theorem test_decode_rbPush : decodeFrame le [0x01, 0x00, 0xCD, 0xAB] = .instr (.rbPush 0 0xABCD) := by decide

theorem test_decode_rbPushN :
    decodeFrame le [0x02, 0x01, 0x03, 0x00, 0x0A, 0x00, 0x0B, 0x00, 0x0C, 0x00] = .instr (.rbPushN 1 [10, 11, 12]) ∧
      decodeFrame le [0x02, 0x00, 0x00, 0x00] = .instr (.rbPushN 0 []) := by decide

theorem test_decode_rbCount : decodeFrame le [0x03, 0x01] = .instr (.rbCount 1) := by decide

theorem test_decode_rbSpace : decodeFrame le [0x04, 0x00] = .instr (.rbSpace 0) := by decide

theorem test_decode_rbPeek : decodeFrame le [0x05, 0x00] = .instr (.rbPeek 0) := by decide

theorem test_decode_rbPop : decodeFrame le [0x06, 0x01] = .instr (.rbPop 1) := by decide

theorem test_decode_rbSkip : decodeFrame le [0x07, 0x00] = .instr (.rbSkip 0) := by decide

theorem test_decode_rbClear : decodeFrame le [0x08, 0x01] = .instr (.rbClear 1) := by decide

theorem test_decode_seqReset : decodeFrame le [0x10] = .instr .seqReset := by decide

theorem test_decode_dpConfig :
    decodeFrame be [0x20, 0x2C, 0x01] = .instr (.dpConfig 300) ∧
      decodeFrame le [0x20, 0x02, 0x00] = .instr (.dpConfig 2) := by decide

theorem test_decode_dpReset : decodeFrame le [0x21] = .instr .dpReset := by decide

theorem test_decode_dpAdd :
    decodeFrame be [0x22, 0x01, 0xCE, 0xFF] = .instr (.dpAdd 1 (-50)) ∧
      decodeFrame le [0x22, 0x00, 0x00, 0x80] = .instr (.dpAdd 0 (-32768)) := by decide

theorem test_decode_dpAdvance : decodeFrame le [0x23] = .instr .dpAdvance := by decide

theorem test_decode_dpWrite : decodeFrame le [0x24] = .instr .dpWrite := by decide

theorem test_decode_tpWrite :
    decodeFrame be [0x30, 0x07, 0x78, 0x56, 0x34, 0x12] = .instr (.tpWrite 0x07 0x12345678) := by decide

theorem test_decode_fstWrite : decodeFrame be [0x31, 0xFF, 0x00, 0x00, 0x00] = .instr (.fstWrite 0x000000FF) := by decide

theorem test_decode_lufWrite :
    decodeFrame be [0x32, 0x01, 0x10, 0x00, 0x00, 0x00, 0x03, 0x02, 0x20, 0x00, 0x00, 0x00] =
      .instr (.lufWrite 0x01 0x00000010 0x0203 0x00000020) := by decide

/-- T1.8. -/
theorem test_decode_pktD :
    decodePacket le 1 [0xA5, 0x5A, 0x44, 0x00, 0x64, 0x00, 0xCE, 0xFF] = some (.pktD 0xA5 0x5A 0 [100, -50]) ∧
      decodePacket be 1 [0xA5, 0x5A, 0x44, 0x00, 0x00, 0x64, 0xFF, 0xCE] = some (.pktD 0xA5 0x5A 0 [100, -50]) := by
  decide

/-- DP8. -/
theorem test_decode_pktM :
    decodePacket be 2 [0xA5, 0x5A, 0x4D, 0x03, 0x00, 0x01, 0x00, 0x02, 0xFF, 0xFF, 0x7F, 0xFF] =
      some (.pktM 0xA5 0x5A 3 [1, 2, -1, 32767]) := by decide

/-- TM1. -/
theorem test_decode_pktN :
    decodePacket be 1 [0xA5, 0x5A, 0x4E, 0x05, 0x07, 0x12, 0x34, 0x56, 0x78] =
      some (.pktN 0xA5 0x5A 5 0x07 0x12345678) := by decide

/-- TM4. -/
theorem test_decode_pktF :
    decodePacket le 1 [0xA5, 0x5A, 0x46, 0xFF, 0xFF, 0x00, 0x00, 0x00] = some (.pktF 0xA5 0x5A 255 0x000000FF) := by
  decide

/-- TM7. -/
theorem test_decode_pktL :
    decodePacket le 1
        [0xA5, 0x5A, 0x4C, 0x07, 0x07, 0x78, 0x56, 0x34, 0x12, 0xFF, 0xFF, 0xEF, 0xBE, 0xAD, 0xDE] =
      some (.pktL 0xA5 0x5A 7 0x07 0x12345678 0xFFFF 0xDEADBEEF) := by decide

/-- L2.2: reserved opcodes. -/
theorem test_decode_reserved :
    decodeFrame le [0x00] = .reserved 0x00 ∧ decodeFrame le [0x09] = .reserved 0x09 ∧
      decodeFrame le [0x25] = .reserved 0x25 ∧ decodeFrame le [0xFF] = .reserved 0xFF := by decide

/-- L2.1: ill-formed frames. -/
theorem test_decode_illFormed :
    decodeFrame le [0x03] = .illFormed ∧ decodeFrame le [0x24, 0x00] = .illFormed ∧
      decodeFrame le [0x30, 0x07, 0x78, 0x56, 0x34] = .illFormed ∧
      decodeFrame narrow [0x01, 0x00, 0x00, 0xF0] = .illFormed ∧ decodeFrame le [] = .illFormed := by decide

/-! ## The table's words (the table's "fixed" bits; every other bit 0 but for the packets' header) -/

theorem test_tableWord_ring :
    decodeTableWord 8 0x01 = some (.rbPush 0 0) ∧ decodeTableWord 8 0x02 = some (.rbPushN 0 []) ∧
      decodeTableWord 8 0x03 = some (.rbCount 0) ∧ decodeTableWord 8 0x04 = some (.rbSpace 0) ∧
      decodeTableWord 8 0x05 = some (.rbPeek 0) ∧ decodeTableWord 8 0x06 = some (.rbPop 0) ∧
      decodeTableWord 8 0x07 = some (.rbSkip 0) ∧ decodeTableWord 8 0x08 = some (.rbClear 0) := by decide

theorem test_tableWord_packets_written :
    decodeTableWord 8 0x10 = some .seqReset ∧ decodeTableWord 24 0x012C20 = some (.dpConfig 300) ∧
      decodeTableWord 8 0x21 = some .dpReset ∧ decodeTableWord 8 0x22 = some (.dpAdd 0 0) ∧
      decodeTableWord 8 0x23 = some .dpAdvance ∧ decodeTableWord 8 0x24 = some .dpWrite ∧
      decodeTableWord 8 0x30 = some (.tpWrite 0 0) ∧ decodeTableWord 8 0x31 = some (.fstWrite 0) ∧
      decodeTableWord 8 0x32 = some (.lufWrite 0 0 0 0) := by decide

/-- Bits 31 to 24 are `m`, 23 to 16 `n`, 15 to 8 the tag, 7 to 0 `s`. -/
theorem test_tableWord_wire :
    (decodeTableWord 32 0b10100101010110100100010000000111).map tagOf = some (some .d) ∧
      (decodeTableWord 32 0b10100101010110100100110100000111).map tagOf = some (some .m) ∧
      (decodeTableWord 32 0b10100101010110100100111000000111).map tagOf = some (some .n) ∧
      (decodeTableWord 32 0b10100101010110100100011000000111).map tagOf = some (some .f) ∧
      (decodeTableWord 32 0b10100101010110100100110000000111).map tagOf = some (some .l) := by decide

/-- Every row's word runs as the first request after reset. -/
theorem test_tableWord_runs :
    ([0x01, 0x02, 0x03, 0x04, 0x05, 0x06, 0x07, 0x08, 0x10, 0x20, 0x21, 0x22, 0x23, 0x24, 0x30, 0x31, 0x32].all
        fun w => (next? (step (State.reset.withFetchWord 8 w))).isSome) = true ∧
      ([0xA55A4407, 0xA55A4D07, 0xA55A4E07, 0xA55A4607, 0xA55A4C07].all
        fun w => (next? (step (State.reset.withFetchWord 32 w))).isSome) = true := by decide

/-! ## Ring buffers: the vectors of L2.3 -/

/-- V9: the write cursor wraps at `C = 4`. -/
theorem test_rbPush_wraps :
    ringAfter 0 (exec (.rbPush 0 7) (byProducer (ring0 3 1 [(1, 5), (2, 6)]))) =
      some (0, 1, [(1, 5), (2, 6), (3, 7)], some (.ok true)) := by decide

/-- V11: full and wrapped, the slot at `WR` keeps its unread value. -/
theorem test_rbPush_full :
    ringAfter 0 (exec (.rbPush 0 7) (byProducer (ring0 1 2 [(0, 3), (2, 1), (3, 2)]))) =
      some (1, 2, [(0, 3), (2, 1), (3, 2)], some (.ok false)) := by decide

/-- V15: two ranges. -/
theorem test_rbPushN_two_ranges :
    ringAfter 0 (exec (.rbPushN 0 [10, 11, 12]) (byProducer (ring0 3 3 []))) =
      some (2, 3, [(0, 11), (1, 12), (3, 10)], some (.pushed 3)) := by decide

/-- V20: the items without space are dropped. -/
theorem test_rbPushN_truncates :
    ringAfter 1 (exec (.rbPushN 1 [1, 2, 3, 4, 5, 6]) (byProducer (ring1 0 0 []))) =
      some (4, 0, [(0, 1), (1, 2), (2, 3), (3, 4)], some (.pushed 4)) := by decide

/-- V4: `(1 - 3) mod 5`. -/
theorem test_rbCount_wrapped :
    ringAfter 1 (exec (.rbCount 1) (ring1 1 3 [(0, 6), (3, 4), (4, 5)])) =
      some (1, 3, [(0, 6), (3, 4), (4, 5)], some (.count 3)) := by decide

/-- V7. -/
theorem test_rbSpace_full :
    ringAfter 0 (exec (.rbSpace 0) (ring0 1 2 [(0, 3), (2, 1), (3, 2)])) =
      some (1, 2, [(0, 3), (2, 1), (3, 2)], some (.count 0)) := by decide

/-- V22 and V21. -/
theorem test_rbPeek :
    ringAfter 0 (exec (.rbPeek 0) (ring0 2 1 [(1, 5)])) = some (2, 1, [(1, 5)], some (.item true (some 5))) ∧
      ringAfter 0 (exec (.rbPeek 0) (ring0 2 2 [])) = some (2, 2, [], some (.item false none)) := by
  constructor <;> decide

/-- V25: the read cursor wraps at `C = 5`, the slot keeps its value. -/
theorem test_rbPop_wraps :
    ringAfter 1 (exec (.rbPop 1) (ring1 0 4 [(4, 0xFFCE)])) =
      some (0, 0, [(4, 0xFFCE)], some (.item true (some 0xFFCE))) := by decide

/-- V24. -/
theorem test_rbPop_empty :
    ringAfter 1 (exec (.rbPop 1) (ring1 3 3 [])) = some (3, 3, [], some (.item false none)) := by decide

/-- V26 and V27. -/
theorem test_rbSkip :
    ringAfter 0 (exec (.rbSkip 0) (ring0 1 0 [(0, 9)])) = some (1, 1, [(0, 9)], some (.ok true)) ∧
      ringAfter 0 (exec (.rbSkip 0) (ring0 2 2 [])) = some (2, 2, [], some (.ok false)) := by
  constructor <;> decide

/-- V30: slots keep their values. -/
theorem test_rbClear :
    ringAfter 1 (exec (.rbClear 1) (ring1 1 3 [(0, 6), (3, 4), (4, 5)])) =
      some (1, 1, [(0, 6), (3, 4), (4, 5)], some .ack) := by decide

/-- L2.2: the instance is checked before ownership, and nothing is stored. -/
theorem test_fault_order :
    (next? (exec (.rbPush 2 5) (ring0 0 0 []))).map (·.faults) =
        some [⟨.instanceOutOfRange, 0x01, .consumer, .inst 2⟩] ∧
      (next? (exec (.rbPush 0 5) (ring0 0 0 []))).map (fun t => (t.faults, (t.rb 0).store)) =
        some ([⟨.ownershipViolation, 0x01, .consumer, .instCtx 0 .consumer⟩], []) := by decide

/-! ## Sequencer and sink: the vectors of L2.4 -/

/-- S2, first command. -/
theorem test_seqReset : outAfter (exec .seqReset { fresh le with seq := 200 }) = some ([], 0, some .ack) := by decide

/-- S6: the sink accepts one magic byte. -/
theorem test_tpWrite_short :
    outAfter (exec (.tpWrite 0x07 0x12345678) { fresh le with seq := 5, sink := [1, 1, 1, 1, 4] }) =
      some ([0xA5, 0x4E, 0x05, 0x07, 0x78, 0x56, 0x34, 0x12], 6, some (.total 8)) := by decide

/-- TM1, big-endian. -/
theorem test_tpWrite_be :
    outAfter (exec (.tpWrite 0x07 0x12345678) { fresh be with seq := 5 }) =
      some ([0xA5, 0x5A, 0x4E, 0x05, 0x07, 0x12, 0x34, 0x56, 0x78], 6, some (.total 9)) := by decide

/-- TM4: the counter wraps; both byte orders. -/
theorem test_fstWrite :
    outAfter (exec (.fstWrite 0x000000FF) { fresh le with seq := 255 }) =
        some ([0xA5, 0x5A, 0x46, 0xFF, 0xFF, 0x00, 0x00, 0x00], 0, some (.total 8)) ∧
      outAfter (exec (.fstWrite 0x000000FF) { fresh be with seq := 255 }) =
        some ([0xA5, 0x5A, 0x46, 0xFF, 0x00, 0x00, 0x00, 0xFF], 0, some (.total 8)) := by decide

/-- TM6, big-endian. -/
theorem test_lufWrite_be :
    outAfter (exec (.lufWrite 0x01 0x00000010 0x0203 0x00000020) (fresh be)) =
      some ([0xA5, 0x5A, 0x4C, 0x00, 0x01, 0x00, 0x00, 0x00, 0x10, 0x02, 0x03, 0x00, 0x00, 0x00, 0x20], 1,
        some (.total 15)) := by decide

/-- TM7, little-endian. -/
theorem test_lufWrite_le :
    outAfter (exec (.lufWrite 0x07 0x12345678 0xFFFF 0xDEADBEEF) { fresh le with seq := 7 }) =
      some ([0xA5, 0x5A, 0x4C, 0x07, 0x07, 0x78, 0x56, 0x34, 0x12, 0xFF, 0xFF, 0xEF, 0xBE, 0xAD, 0xDE], 8,
        some (.total 15)) := by decide

/-! ## DataPacket: the vectors of L2.5 -/

/-- DP1 and DP3. -/
theorem test_dpConfig :
    dpAfter (exec (.dpConfig 4) (fresh le)) = some (4, 0, .empty, some .ack, []) ∧
      dpAfter (exec (.dpConfig 5) (fresh le)) = some (1, 0, .empty, some .noValue, [.configOutOfRange]) := by
  constructor <;> decide

/-- DP2. -/
theorem test_dpConfig_zero :
    dpAfter (exec (.dpConfig 0) (fresh le)) = some (1, 0, .empty, some .noValue, [.configOutOfRange]) := by decide

/-- DP11, first command: the samples stay. -/
theorem test_dpReset :
    (next? (exec .dpReset
        { fresh le with dpS := [(0, 100), (1, -50)], dpIDX := 1, dpSTATE := .written })).map
      (fun t => (t.dpIDX, t.dpSTATE, t.dpS)) = some (0, .empty, [(0, 100), (1, -50)]) := by decide

/-- DP5, third command: the limit is `DP.PPP`; DP4. -/
theorem test_dpAdd_limits :
    dpAfter (exec (.dpAdd 0 5) { fresh le with dpIDX := 1, dpSTATE := .ready }) =
        some (1, 1, .ready, some (.ok false), []) ∧
      dpAfter (exec (.dpAdd 2 1) (fresh le)) = some (1, 0, .empty, some .noValue, [.channelOutOfRange]) := by
  constructor <;> decide

/-- DP13: a written packet stays written. -/
theorem test_dpAdd_written :
    (next? (exec (.dpAdd 0 9) { fresh le with dpS := [(0, 100), (1, -50)], dpSTATE := .written })).map
      (fun t => (t.dpSTATE, t.dpS)) = some (.written, [(0, 9), (1, -50)]) := by decide

/-- DP7; DP6, last command. -/
theorem test_dpAdvance :
    dpAfter (exec .dpAdvance (fresh le)) = some (1, 1, .ready, some .ack, []) ∧
      dpAfter (exec .dpAdvance { fresh le with dpIDX := 4, dpSTATE := .ready }) =
        some (1, 4, .ready, some .noValue, [.pointOverflow]) := by
  constructor <;> decide

/-- DP8, last command, big-endian. -/
theorem test_dpWrite_be :
    outAfter (exec .dpWrite
        { fresh be with
          seq := 3, dpPPP := 2, dpIDX := 2, dpSTATE := .ready, dpS := [(0, 1), (1, 2), (2, -1), (3, 32767)] }) =
      some ([0xA5, 0x5A, 0x4D, 0x03, 0x00, 0x01, 0x00, 0x02, 0xFF, 0xFF, 0x7F, 0xFF], 4, some (.total 12)) := by decide

/-- DP9: the faults in their order, the total, the registers; the four sample bytes are free values. -/
theorem test_dpWrite_empty :
    dpAfter (exec .dpWrite (fresh le)) =
        some (1, 0, .written, some (.total 8), [.writeEmpty, .undefinedSample, .undefinedSample]) ∧
      (next? (exec .dpWrite (fresh le))).map (fun t => (t.out.take 4, t.out.length, t.seq)) =
        some ([0xA5, 0x5A, 0x44, 0x00], 8, 1) := by
  constructor <;> decide

/-! ## The receiver: the gaps of L2.4 -/

/-- The receiver after a packet: the sequence byte and the gaps. -/
def rxAfter (o : Host.Outcome State Fault Refusal) : Option (Option Byte × List Byte) :=
  (next? o).map fun t => (t.rxSeq, t.rxGaps)

theorem test_pktD_gap :
    rxAfter (exec (.pktD 0xA5 0x5A 0x06 [1, 2]) { fresh le with rxSeq := some 0x05 }) = some (some 0x06, [0]) := by decide

theorem test_pktM_gap :
    rxAfter (exec (.pktM 0xA5 0x5A 0x01 [1, 2, 3, 4]) { fresh le with rxSeq := some 0xFE }) =
      some (some 0x01, [2]) := by decide

theorem test_pktN_gap :
    rxAfter (exec (.pktN 0xA5 0x5A 0x00 0 0) { fresh le with rxSeq := some 0x10 }) = some (some 0x00, [239]) := by decide

theorem test_pktF_gap :
    rxAfter (exec (.pktF 0xA5 0x5A 0x07 0) { fresh le with rxSeq := some 0x07 }) = some (some 0x07, [255]) := by decide

/-- The first packet concludes no gap; bytes without the magic prefix conclude nothing (log 13). -/
theorem test_pktL_gap :
    rxAfter (exec (.pktL 0xA5 0x5A 0x07 0 0 0 0) (fresh le)) = some (some 0x07, []) ∧
      rxAfter (exec (.pktL 0xA5 0x5B 0x07 0 0 0 0) { fresh le with rxSeq := some 0x05 }) = some (some 0x05, []) := by
  decide

/-! ## The step -/

/-- P4, step 6: frame `09`. -/
theorem test_step_reserved :
    (next? (step { fresh le with port := [.command .consumer [0x09]] })).map (fun t => (t.faults, t.port)) =
      some ([⟨.illegalCommand, 0x09, .consumer, .opcode 0x09⟩], []) := by decide

/-- 00_scope R10, 30_encoding R94, R96. -/
theorem test_step_refusals :
    refusal? (step { fresh le with port := [.command .consumer [0x03]] }) = some .illFormedFrame ∧
      refusal? (step { fresh le with port := [.command (.other 0) [0x10]] }) = some .notAContext ∧
      refusal? (step { fresh { le with rb := [] } with port := [.reset] }) = some .notAConfiguration := by decide

/-- 70_reset R231. -/
theorem test_step_reset :
    next? (step { fresh le with
        port := [.reset], seq := 7, dpIDX := 2, dpPPP := 3, dpSTATE := .ready, dpS := [(0, 1)],
        rbs := [⟨2, 1, [(1, 5)]⟩, RB.initial], out := [1, 2] }) =
      some { fresh le with out := [1, 2] } := by decide

/-- 60_exceptions R204, code 10. -/
theorem test_step_emptyRead :
    (next? (step { fresh le with
        port := [.useData .consumer 0],
        replies := [⟨.consumer, 0x06, some 0, .item false none⟩] })).map (·.faults) =
      some [⟨.emptyRead, 0x06, .consumer, .inst 0⟩] := by decide

/-! ## Witnesses: states -/

/-- Instance 0 full, instance 1 wrapped with three elements, one point of samples written. -/
def busy : State :=
  { fresh le with
    rbs := [⟨3, 0, [(0, 1), (1, 2), (2, 3)]⟩, ⟨1, 3, [(0, 6), (3, 4), (4, 5)]⟩]
    dpS := [(0, 100), (1, -50)], dpSTATE := .filling }

/-- The same, the consumer issuing. -/
def busyC : State := { busy with ctx := .consumer }

/-- Instance 0 with one element in the last slot, the write cursor at 0; two points of samples written. -/
def edge : State :=
  { fresh le with
    rbs := [⟨0, 3, [(3, 9)]⟩, ⟨4, 1, [(1, 1), (2, 2), (3, 3)]⟩]
    dpS := [(0, 1), (1, 2), (2, -1), (3, 32767)], dpPPP := 2, dpIDX := 1, dpSTATE := .filling }

/-- `edge` with the consumer issuing. -/
def edgeC : State := { edge with ctx := .consumer }

theorem busy_inv : busy.Inv := by decide
theorem busyC_inv : busyC.Inv := by decide
theorem edge_inv : edge.Inv := by decide
theorem edgeC_inv : edgeC.Inv := by decide
theorem fresh_inv : (fresh le).Inv := by decide
theorem reset_inv : State.reset.Inv := by decide

/-! ## Witnesses: decoding and encoding -/

theorem witness_CommandFramesRoundTrip :
    ((Instr.rbPush 0 65535).isCommand = true ∧ (Instr.rbPush 0 65535).wellFormed le = true) ∧
      ((Instr.rbPush 0 4095).isCommand = true ∧ (Instr.rbPush 0 4095).wellFormed narrow = true) ∧
      (Instr.rbPushN 7 [300]).isCommand = true ∧ (Instr.rbPushN 7 [300]).wellFormed le = true := by decide

theorem witness_WirePacketsRoundTrip :
    le.WF ∧ be.WF ∧ narrow.WF ∧
      ((Instr.pktD 1 2 3 [4, 5]).isCommand = false ∧ (Instr.pktD 1 2 3 [4, 5]).wellFormed be = true) ∧
      ((Instr.pktM 1 2 3 [4, 5, 6, 7]).isCommand = false ∧ (Instr.pktM 1 2 3 [4, 5, 6, 7]).wellFormed be = true ∧
        2 = be.pointsOf [4, 5, 6, 7]) := by decide

theorem witness_DecodedFramesAreEncodings :
    decodeFrame narrow [0x01, 0x00, 0xFF, 0x0F] = .instr (.rbPush 0 4095) ∧
      Instr.pushesToExisting narrow (.rbPush 0 4095) := by
  refine ⟨by decide, ?_⟩
  show (0 : Byte).toNat < narrow.numRB
  decide

/-- The vectors of L2.1: `03`, too short; `30 07 78 56 34`, too short, its second byte past the instances; and
`01 00 00 F0` with `W_0 = 12`, an RB_PUSH on an instance that exists with an item that does not fit. -/
theorem witness_IllFormedFramesAreRefused :
    (le.WF ∧ narrow.WF ∧ Ctx.consumer ∈ le.ctxs ∧ Ctx.producer ∈ narrow.ctxs) ∧
      (∀ i : Instr, i.isCommand = true → encode le i ≠ [0x03]) ∧
      (le.numRB ≤ (0x07 : Byte).toNat ∧
        ∀ i : Instr, i.isCommand = true → encode le i ≠ [0x30, 0x07, 0x78, 0x56, 0x34]) ∧
      ((0x01 : Byte) = Opcode.rbPush.byte ∧ (0x00 : Byte).toNat < narrow.numRB ∧
        ∀ i : Instr, i.isCommand = true → i.wellFormed narrow = true → encode narrow i ≠ [0x01, 0x00, 0x00, 0xF0]) := by
  refine ⟨by decide, fun i hc h => ?_, ⟨by decide, fun i hc h => ?_⟩, rfl, by decide, fun i hc hw h => ?_⟩
  · cases i <;> simp [encode, Opcode.byte, headerBytes] at h
  · cases i <;> simp [encode, Opcode.byte, headerBytes, enc, Instr.isCommand, Instr.opcode] at h hc
    simpa using congrArg List.length h.2
  · cases i <;> simp [encode, Opcode.byte, headerBytes, Instr.isCommand, Instr.opcode] at h hc
    next b item =>
      obtain ⟨rfl, h⟩ := h
      have hi : @LT.lt Nat _ item 4096 := by simpa [Instr.wellFormed, Config.itemFits, narrow] using hw
      have h2 : leBytes 2 item = [0x00, 0xF0] := h
      simp [leBytes] at h2
      have := congrArg BitVec.toNat h2.2
      simp at this
      omega

/-- Both ends of every reserved range. -/
theorem witness_ReservedOpcodesRecordIllegalCommand :
    le.WF ∧ Ctx.consumer ∈ le.ctxs ∧
      ∀ x ∈ ([0x00, 0x09, 0x0F, 0x11, 0x1F, 0x25, 0x2F, 0x33, 0xFF] : List Byte),
        x.toNat = 0x00 ∨ (0x09 ≤ x.toNat ∧ x.toNat ≤ 0x0F) ∨ (0x11 ≤ x.toNat ∧ x.toNat ≤ 0x1F) ∨
          (0x25 ≤ x.toNat ∧ x.toNat ≤ 0x2F) ∨ 0x33 ≤ x.toNat := by decide

/-! ## Witnesses: the step -/

theorem witness_StepRunsTheDecodedCommand :
    le.WF ∧ Ctx.producer ∈ le.ctxs ∧ decodeFrame le [0x01, 0x01, 0x07, 0x00] = .instr (.rbPush 1 7) := by decide

theorem witness_StepRunsTheDecodedPacket :
    le.WF ∧ decodePacket le 1 [0xA5, 0x5A, 0x46, 0x00, 0x01, 0x00, 0x00, 0x00] = some (.pktF 0xA5 0x5A 0 1) := by decide

/-- A legal state whose step runs a command with a request behind it: for PendingRequestsAreNotRead,
StepKeepsLegalStates, ConfigurationIsFixed and FaultsAreNeverCleared. -/
theorem witness_steps :
    let s := { busy with port := [.command .producer [0x01, 0x01, 0x07, 0x00], .reset] }
    s.Inv ∧ ∃ t, step s = .next t ∧ t ≠ s := by
  refine ⟨by decide, _, rfl, ?_⟩
  decide

theorem witness_WholeBlockResetState : ({ busy with port := [.reset] } : State).cfg.WF := by decide

theorem witness_ResetStateIsLegal : le.WF ∧ be.WF ∧ narrow.WF := by decide

/-- Legal states of both refusals. -/
theorem witness_LegalStatesStopOnlyAtThePort :
    ({ busy with port := [.command .consumer [0x03]] } : State).Inv ∧
      refusal? (step { busy with port := [.command .consumer [0x03]] }) = some .illFormedFrame ∧
      refusal? (step { busy with port := [.useData (.other 3) 0] }) = some .notAContext := by decide

/-! ## Witnesses: ring buffers -/

/-- The first instance number that does not exist, the last of a byte, and a context without the role. -/
theorem witness_RingBufferPrologue :
    (Instr.rbPop 2).instanceNo = some 2 ∧ (Instr.rbPop 2).opcode = some .rbPop ∧ busy.cfg.numRB ≤ (2 : Byte).toNat ∧
      busy.cfg.numRB ≤ (255 : Byte).toNat ∧ (1 : Byte).toNat < busy.cfg.numRB ∧
      (Opcode.role .rbPop).allows (busy.par (1 : Byte).toNat) busy.ctx = false ∧
      (Opcode.role .rbPush).allows (busyC.par (1 : Byte).toNat) busyC.ctx = false := by decide

/-- The least capacity, full; a wrapped one; empty at the last slot. -/
theorem witness_CountAndSpaceOfCursors :
    2 ≤ 2 ∧ 2 ≤ 5 ∧ RB.CursorsLegal ⟨2, 16, .producer, .consumer⟩ ⟨1, 0, []⟩ ∧ RB.CursorsLegal ⟨5, 16, .producer, .consumer⟩ ⟨0, 4, []⟩ ∧
      RB.CursorsLegal ⟨5, 16, .producer, .consumer⟩ ⟨4, 4, []⟩ := by decide

/-- RB_COUNT and RB_SPACE: cursors equal, write cursor above, write cursor below. -/
theorem witness_RbCountResult_RbSpaceResult :
    (fresh le).Inv ∧ busy.Inv ∧ busyC.Inv ∧
      ((fresh le).MayIssue .rbCount 0 ∧ (fresh le).MayIssue .rbSpace 0 ∧
        ((fresh le).rb (0 : Byte).toNat).rd ≤ ((fresh le).rb (0 : Byte).toNat).wr) ∧
      (busy.MayIssue .rbCount 0 ∧ busy.MayIssue .rbSpace 0 ∧
        (busy.rb (0 : Byte).toNat).rd ≤ (busy.rb (0 : Byte).toNat).wr) ∧
      (busyC.MayIssue .rbCount 1 ∧ busyC.MayIssue .rbSpace 1 ∧
        (busyC.rb (1 : Byte).toNat).wr < (busyC.rb (1 : Byte).toNat).rd) :=
  ⟨fresh_inv, busy_inv, busyC_inv, by decide⟩

/-- Full, and with one free slot and the write cursor at the last slot. -/
theorem witness_RbPushResult :
    busy.Inv ∧ edge.Inv ∧
      (busy.MayIssue .rbPush 0 ∧ (Instr.rbPush 0 65535).wellFormed busy.cfg = true ∧
        occupied (busy.par (0 : Byte).toNat).capacity (busy.rb (0 : Byte).toNat) =
          (busy.par (0 : Byte).toNat).capacity - 1) ∧
      (edge.MayIssue .rbPush 1 ∧ (Instr.rbPush 1 7).wellFormed edge.cfg = true ∧
        occupied (edge.par (1 : Byte).toNat).capacity (edge.rb (1 : Byte).toNat) ≠
          (edge.par (1 : Byte).toNat).capacity - 1) :=
  ⟨busy_inv, edge_inv, by decide⟩

/-- No item, and more items than space. -/
theorem witness_RbPushNResult :
    edge.Inv ∧
      (edge.MayIssue .rbPushN 1 ∧ (Instr.rbPushN 1 []).wellFormed edge.cfg = true) ∧
      edge.MayIssue .rbPushN 0 ∧ (Instr.rbPushN 0 [1, 2, 3, 65535]).wellFormed edge.cfg = true :=
  ⟨edge_inv, by decide⟩

theorem witness_RbPushNIsRepeatedPush : edge.Inv ∧ edge.MayIssue .rbPushN 0 := by decide

/-- RB_PEEK, RB_POP and RB_SKIP: empty, and one element in the last slot; RB_CLEAR. -/
theorem witness_RbPeekResult_RbPopResult_RbSkipResult_RbClearResult :
    edgeC.Inv ∧
      (ring0 2 2 []).Inv ∧ (ring0 2 2 []).MayIssue .rbPeek 0 ∧ (ring0 2 2 []).MayIssue .rbPop 0 ∧
      (ring0 2 2 []).MayIssue .rbSkip 0 ∧ ((ring0 2 2 []).rb (0 : Byte).toNat).wr = ((ring0 2 2 []).rb (0 : Byte).toNat).rd ∧
      edgeC.MayIssue .rbPeek 0 ∧ edgeC.MayIssue .rbPop 0 ∧ edgeC.MayIssue .rbSkip 0 ∧ edgeC.MayIssue .rbClear 0 ∧
      (edgeC.rb (0 : Byte).toNat).wr ≠ (edgeC.rb (0 : Byte).toNat).rd :=
  ⟨edgeC_inv, by decide⟩

theorem witness_RingBufferIsAQueue :
    edge.Inv ∧ edgeC.Inv ∧
      edge.MayIssue .rbPush 0 ∧ (Instr.rbPush 0 65535).wellFormed edge.cfg = true ∧
      (RB.queue (edge.par (0 : Byte).toNat) (edge.rb (0 : Byte).toNat)).length < (edge.par (0 : Byte).toNat).capacity - 1 ∧
      edge.MayIssue .rbPushN 0 ∧ (Instr.rbPushN 0 [1, 2, 3]).wellFormed edge.cfg = true ∧
      RB.queue (edgeC.par (0 : Byte).toNat) (edgeC.rb (0 : Byte).toNat) = some 9 :: [] ∧
      edgeC.MayIssue .rbPeek 0 ∧ edgeC.MayIssue .rbPop 0 ∧ edgeC.MayIssue .rbSkip 0 ∧ edgeC.MayIssue .rbClear 0 :=
  ⟨edge_inv, edgeC_inv, by decide⟩

theorem witness_BufferFillsToCapacityMinusOne :
    (fresh le).Inv ∧
      (fresh le).MayIssue .rbPush 1 ∧ ((fresh le).rb (1 : Byte).toNat).wr = ((fresh le).rb (1 : Byte).toNat).rd ∧
      [1, 2, 3, 4].length = ((fresh le).par (1 : Byte).toNat).capacity - 1 :=
  ⟨fresh_inv, by decide⟩

theorem witness_PeekIsStableUnderPush :
    edgeC.Inv ∧ edgeC.MayIssue .rbPeek 0 ∧ (edgeC.rb (0 : Byte).toNat).wr ≠ (edgeC.rb (0 : Byte).toNat).rd ∧
      Memory.read (edgeC.rb (0 : Byte).toNat).store (edgeC.rb (0 : Byte).toNat).rd = some 9 ∧
      ∃ u, exec (.rbPushN 0 [1, 2, 3]) { edgeC with ctx := (edgeC.par (0 : Byte).toNat).prodOwner } = .next u := by
  exact ⟨edgeC_inv, by decide, by decide, by decide, _, rfl⟩

theorem witness_InstancesAreIndependent :
    (Instr.rbPush 1 7).instanceNo = some 1 ∧ 0 ≠ (1 : Byte).toNat ∧ ∃ t, exec (.rbPush 1 7) busy = .next t :=
  ⟨rfl, by decide, _, rfl⟩

/-- A command that moves a write cursor, and one that moves a read cursor. -/
theorem witness_CursorsMoveByOwnersOnly :
    (∃ t, exec (.rbPush 1 7) busy = .next t ∧ (t.rb 1).wr ≠ (busy.rb 1).wr) ∧
      ∃ t, exec (.rbPop 0) busyC = .next t ∧ (t.rb 0).rd ≠ (busyC.rb 0).rd :=
  ⟨⟨_, rfl, by decide⟩, _, rfl, by decide⟩

/-! ## Witnesses: the sequencer and the byte sink -/

/-- A packet write, SEQ_RESET and another command: for SequenceCounterWriters, OutputOnlyGrows, FaultsSteerNothing and
OneResponsePerCommand. -/
theorem witness_execs :
    ((Instr.fstWrite 1).isPacketWrite = true ∧ ∃ t, exec (.fstWrite 1) busy = .next t) ∧
      (∃ t, exec .seqReset busy = .next t) ∧
      ((Instr.rbPush 1 7).isPacketWrite = false ∧ Instr.rbPush 1 7 ≠ .seqReset ∧ ∃ t, exec (.rbPush 1 7) busy = .next t) ∧
      ((Instr.pktF 1 2 3 4).isCommand = false ∧ ∃ t, exec (.pktF 1 2 3 4) busy = .next t) :=
  ⟨⟨rfl, _, rfl⟩, ⟨_, rfl⟩, ⟨rfl, by decide, _, rfl⟩, rfl, _, rfl⟩

theorem witness_SequenceCountsPacketWrites :
    Instr.seqReset ∉ [Instr.fstWrite 1, .dpReset, .tpWrite 2 3] ∧
      ∃ t, execAll [Instr.fstWrite 1, .dpReset, .tpWrite 2 3] busy = .next t := ⟨by decide, _, rfl⟩

/-- TP_WRITE, FST_WRITE and LUF_WRITE with a sink that accepts each piece and no byte more. -/
theorem witness_TpWriteResult_FstWriteResult_LufWriteResult :
    acceptsWhole [2, 1, 1, 1, 4] [[le.magic0, le.magic1], [0x4E], [0xFF], [0x07], enc le.byteOrder (0x12345678 : Stamp) 4] =
        true ∧
      acceptsWhole [2, 1, 1, 4] [[le.magic0, le.magic1], [0x46], [0xFF], enc le.byteOrder (0x12345678 : Stamp) 4] = true ∧
      acceptsWhole [2, 1, 1, 1, 4, 2, 4]
        [[le.magic0, le.magic1], [0x4C], [0xFF], [0x07], enc le.byteOrder (0x12345678 : Stamp) 4,
          enc le.byteOrder (0x0203 : Half) 2, enc le.byteOrder (0xDEADBEEF : Stamp) 4] = true := by decide

/-! ## Witnesses: DataPacket -/

/-- Both ends of the accepted range and both values next to it. -/
theorem witness_DpConfigResult :
    (1 ≤ (1 : Half).toNat ∧ (1 : Half).toNat ≤ le.maxPoints) ∧ (1 ≤ (4 : Half).toNat ∧ (4 : Half).toNat ≤ le.maxPoints) ∧
      (0 : Half).toNat < 1 ∧ le.maxPoints < (5 : Half).toNat := by decide

/-- The first channel that does not exist; the limit reached; the last channel below the limit. -/
theorem witness_DpAddResult :
    (edge.Inv ∧ edge.cfg.ch ≤ (2 : Byte).toNat) ∧
      (({ busy with dpIDX := 1 } : State).Inv ∧ (1 : Byte).toNat < busy.cfg.ch ∧ busy.dpPPP ≤ 1) ∧
      (edge.Inv ∧ (1 : Byte).toNat < edge.cfg.ch ∧ edge.dpIDX < edge.dpPPP) :=
  ⟨⟨edge_inv, by decide⟩, ⟨by decide, by decide⟩, edge_inv, by decide⟩

theorem witness_LastSampleWins :
    edge.Inv ∧ ∃ t u w, exec (.dpAdd 1 7) edge = .next t ∧ exec (.dpAdd 1 8) t = .next u ∧ exec (.dpAdd 1 8) edge = .next w :=
  ⟨edge_inv, _, _, _, rfl, rfl, rfl⟩

theorem witness_DpAdvanceResult :
    ({ edge with dpIDX := 4 } : State).dpIDX = edge.cfg.maxPoints ∧ edge.dpIDX ≠ edge.cfg.maxPoints := by decide

/-- `edge` with the samples in between missing and a sink that accepts each piece and no byte more. -/
def gappy : State := { edge with dpS := [(0, 1), (3, 32767)], sink := [2, 1, 1, 8] }

/-- Legal states of every fault clause; the first and the last cell, beside cells that hold no value. -/
theorem witness_DpWriteResult :
    ((fresh le).Inv ∧ (fresh le).dpSTATE = .empty ∧ (fresh le).dpRead 0 1 = none) ∧
      ({ busy with dpSTATE := .written } : State).Inv ∧
      (gappy.Inv ∧ gappy.dpRead 0 1 = none) ∧
      (0 < gappy.dpPPP ∧ 0 < gappy.cfg.ch ∧ gappy.dpRead 0 0 = some 1) ∧
      (1 < gappy.dpPPP ∧ 1 < gappy.cfg.ch ∧ gappy.dpRead 1 1 = some 32767) :=
  ⟨⟨fresh_inv, by decide⟩, by decide, ⟨by decide, by decide⟩, by decide, by decide⟩

/-- `edge` and `busy` with a sink that accepts each piece of their packets and no byte more. -/
def edgeTight : State := { edge with sink := [2, 1, 1, 8] }

def busyTight : State := { busy with sink := [2, 1, 1, 4] }

/-- A packet of two points and one of one point, every sample written. -/
theorem witness_DpWriteTagAndLength :
    (edgeTight.Inv ∧ edgeTight.sink = [2, 1, 1, 8] ∧ edgeTight.dpPPP * edgeTight.cfg.ch * 2 ≤ 8 ∧
        1 < edgeTight.dpPPP ∧ edgeTight.SamplesWritten) ∧
      busyTight.Inv ∧ busyTight.sink = [2, 1, 1, 4] ∧ busyTight.dpPPP * busyTight.cfg.ch * 2 ≤ 4 ∧
      busyTight.dpPPP = 1 ∧ busyTight.SamplesWritten :=
  ⟨⟨by decide, rfl, by decide⟩, by decide, rfl, by decide⟩

/-- The clauses of the transitions and of the writers: a sample stored, an advance below and at the limit, an advance
past it, a write, a reset, a new points per packet. -/
theorem witness_DataPacketTransitions_DataPacketWriters :
    (∃ t, exec (.dpAdd 1 7) edge = .next t ∧ t.dpS ≠ edge.dpS) ∧
      (∃ t, exec .dpAdvance edge = .next t ∧ t.dpIDX ≠ edge.dpIDX) ∧
      (∃ t, exec .dpAdvance { edge with dpIDX := 4 } = .next t) ∧
      (∃ t, exec .dpWrite edge = .next t) ∧ (∃ t, exec .dpReset edge = .next t) ∧
      (∃ t, exec (.dpConfig 1) edge = .next t ∧ t.dpPPP ≠ edge.dpPPP) :=
  ⟨⟨_, rfl, by decide⟩, ⟨_, rfl, by decide⟩, ⟨_, rfl⟩, ⟨_, rfl⟩, ⟨_, rfl⟩, _, rfl, by decide⟩

/-! ## Witnesses: responses and the receiver -/

/-- A failed read that is used after a later read of the other instance, and a successful one. -/
theorem witness_EmptyReadIsRecorded :
    le.WF ∧ Ctx.consumer ∈ le.ctxs ∧ (0x06 : Byte) = Opcode.rbPop.byte ∧ (0x05 : Byte) = Opcode.rbPeek.byte ∧
      ∀ r ∈ [(⟨.consumer, 0x06, some 1, .item true (some 4)⟩ : Reply)], r.isReadOf .consumer 0 = false := by decide

/-- Both clauses of the receiver: the magic bytes match, with and without a packet before, and do not. -/
theorem witness_ReceiverConcludesTheGap :
    (0xA5 : Byte) = busy.cfg.magic0 ∧ (0x5A : Byte) = busy.cfg.magic1 ∧ busy.rxSeq = none ∧
      ({ busy with rxSeq := some 0xFF } : State).rxSeq = some 0xFF ∧ (0x5B : Byte) ≠ busy.cfg.magic1 := by decide

theorem witness_EmittedPacketsDecode :
    edge.Inv ∧
      (acceptsWhole edge.sink (headerPieces edge.cfg .n edge.seq ++ [[0x07], enc edge.cfg.byteOrder (9 : Stamp) 4]) = true ∧
        ∃ t, exec (.tpWrite 0x07 9) edge = .next t) ∧
      (acceptsWhole edge.sink (headerPieces edge.cfg .f edge.seq ++ [enc edge.cfg.byteOrder (9 : Stamp) 4]) = true ∧
        ∃ t, exec (.fstWrite 9) edge = .next t) ∧
      (acceptsWhole edge.sink (headerPieces edge.cfg .l edge.seq ++
          [[0x07], enc edge.cfg.byteOrder (9 : Stamp) 4, enc edge.cfg.byteOrder (8 : Half) 2,
            enc edge.cfg.byteOrder (7 : Stamp) 4]) = true ∧
        ∃ t, exec (.lufWrite 0x07 9 8 7) edge = .next t) ∧
      (edge.SamplesWritten ∧
        acceptsWhole edge.sink
          (headerPieces edge.cfg (dataTag edge.dpPPP) edge.seq ++ [encSamples edge.cfg.byteOrder edge.samples]) = true ∧
        ∃ t, exec .dpWrite edge = .next t) :=
  ⟨edge_inv, ⟨by decide, _, rfl⟩, ⟨by decide, _, rfl⟩, ⟨by decide, _, rfl⟩, by decide, by decide, _, rfl⟩

/-- Three packets lost, the counter wrapping among them; the next to arrive is of each tag in turn. -/
theorem witness_LostPacketsAreCounted :
    let s := { busy with seq := 0xFE, rxSeq := some 0xFD }
    let lost := [Instr.tpWrite 1 2, .fstWrite 3, .dpWrite]
    (∀ i ∈ lost, i.isCommand = true) ∧ Instr.seqReset ∉ lost ∧ (lost.filter Instr.isPacketWrite).length < 256 ∧
      s.rxSeq = some (s.seq - 1) ∧ ∃ t, execAll lost s = .next t :=
  ⟨by decide, by decide, by decide, by decide, _, rfl⟩

/-! ## Witnesses: the end of a run -/

/-- A push, a failed read, and a packet write whose first pieces the sink accepts: a run without a fault. -/
def fairRun : List (Ctx × Instr) := [(.producer, .rbPush 1 7), (.producer, .tpWrite 1 2), (.consumer, .rbPeek 0)]

/-- A read by the producer, and a push on an instance that does not exist: a run that records both. -/
def faultyRun : List (Ctx × Instr) := [(.producer, .rbPop 0), (.producer, .rbPush 7 1)]

/-- `fresh le` with a run of commands before it. -/
def started (cmds : List (Ctx × Instr)) : State := { fresh le with port := commandRequests le cmds }

theorem witness_FinalRunsAreObserved :
    ((started fairRun).Inv ∧ (started fairRun).InContract ∧
        ∀ x ∈ fairRun, x.1 ∈ le.ctxs ∧ x.2.isCommand = true ∧ x.2.wellFormed le = true) ∧
      ((started faultyRun).Inv ∧ (started faultyRun).InContract ∧
        ∀ x ∈ faultyRun, x.1 ∈ le.ctxs ∧ x.2.isCommand = true ∧ x.2.wellFormed le = true) :=
  ⟨⟨by decide, by decide, by decide⟩, by decide, by decide, by decide⟩

/-- The first run is final and observed, the second is not (60_exceptions R202, R214). -/
theorem test_final_runs :
    (∃ t, Sys2Proof.core.run 3 (started fairRun) = .next t ∧ State.InContract t ∧ State.Final t) ∧
      ∃ t, Sys2Proof.core.run 2 (started faultyRun) = .next t ∧ ¬ State.InContract t ∧ State.observe t = none :=
  ⟨⟨_, rfl, by decide, by decide⟩, _, rfl, by decide, by decide⟩

/-- A state with a record and a step from it; and a final run of two steps and one more. -/
theorem witness_FaultedRunsAreNeverFinal :
    (∃ s t : State, ¬ s.InContract ∧ Sys2Proof.core.run 1 s = .next t) ∧
      ∃ t, Sys2Proof.core.run (2 + 1) (started fairRun) = .next t ∧ State.Final t :=
  ⟨⟨{ started fairRun with faults := [⟨.writeEmpty, 0x24, .producer, .none⟩] }, _, by decide, rfl⟩,
    _, rfl, by decide⟩

end Sys2Proof.Tests
end

section
/-! PROOFS. The bytes of a wire field (00_scope R13). -/

namespace Sys2Proof

/-- Byte `k` of a little-endian field by arithmetic: the value without its low `8 * k` bits, cut to a byte. -/
theorem enc_le_getElem? {w : Nat} (v : BitVec w) {n k : Nat} (h : k < n) :
    (enc .le v n)[k]? = some (BitVec.ofNat 8 (v.toNat / 2 ^ (8 * k))) := by
  have hbyte : v.extractLsb' (8 * k) 8 = BitVec.ofNat 8 (v.toNat / 2 ^ (8 * k)) := by
    rw [BitVec.extractLsb', Nat.shiftRight_eq_div_pow]
  simp [enc, List.getElem?_range h, hbyte]

/-- Big-endian bytes are the little-endian ones counted from the other end. -/
theorem enc_be_getElem? {w : Nat} (v : BitVec w) {n k : Nat} (h : k < n) :
    (enc .be v n)[k]? = some (BitVec.ofNat 8 (v.toNat / 2 ^ (8 * (n - 1 - k)))) := by
  rw [enc_be_eq_reverse, List.getElem?_reverse (by rwa [enc_length]), enc_length,
    enc_le_getElem? v (by omega)]

/-- Settles O39: LE by the bits each byte of `enc` takes, BE as the LE bytes reversed. -/
theorem fieldBytesInEachOrder : Obligations.FieldBytesInEachOrder := by
  unfold Obligations.FieldBytesInEachOrder
  intro w v n k h
  exact ⟨enc_le_getElem? v h, enc_be_getElem? v h, enc_length .le v n, enc_length .be v n⟩

end Sys2Proof
end

section
/-! PROOFS. What a ring-buffer command can do, for all eight rows at once: it stops, it only answers, the producer stores
in its buffer, or the consumer takes from it (40_ring_buffer R109 to R117). -/

namespace Sys2Proof.Machine

/-- A contiguous range of stores leaves both cursors alone, also where it does not reach the space's end. -/
theorem storeRange_cursors {p : RBParams} {items : List Elem} {r r' : RB} {i : Nat}
    (h : storeRange p r i items = some r') : r'.wr = r.wr ∧ r'.rd = r.rd := by
  induction items generalizing r i with
  | nil => cases h; exact ⟨rfl, rfl⟩
  | cons item items ih =>
    by_cases hi : i < p.capacity
    · simp only [storeRange, storeWrite_some hi] at h
      exact (ih h :)
    · simp [storeRange, storeWrite, hi] at h

/-- A ring buffer after RB_PUSH where there is space, as `pushedState` has it (40_ring_buffer R112). -/
def RB.pushed (r : RB) (p : RBParams) (item : Elem) : RB :=
  { wr := slotAfter p.capacity r.wr 1, rd := r.rd, store := Memory.write r.store r.wr (item % 2 ^ p.width) }

theorem pushedState_eq_setRb (s : State) (b : Byte) (item : Elem) :
    pushedState s b item = s.setRb b.toNat ((s.rb b.toNat).pushed (s.par b.toNat) item) := rfl

/-- Storing one item where there is space and publishing the cursor keeps a ring buffer legal (40_ring_buffer R112). -/
theorem RB.Legal.pushOne {p : RBParams} {r : RB} (h : RB.Legal p r) (hf : isFull p.capacity r = false) (item : Elem) :
    RB.Legal p (r.pushed p item) := by
  have hspace : 1 ≤ freeSlots p.capacity r := by
    have hlt := occupied_lt h.1
    have hne : occupied p.capacity r ≠ p.capacity - 1 := fun e => by simp [isFull_iff.2 e] at hf
    unfold freeSlots
    omega
  have hslot : slotAfter p.capacity r.wr 0 = r.wr := Nat.mod_eq_of_lt h.1.1
  have ⟨⟨hw, _⟩, hwf, hbounds, _⟩ := h
  refine h.push hspace rfl rfl (Memory.wf_write hwf _ _) (fun e he => ?_) (fun j hj => ?_) fun j hj => ?_
  · rcases Memory.mem_write he with rfl | he
    · exact ⟨hw, Nat.mod_lt _ (Nat.two_pow_pos _)⟩
    · exact hbounds e he
  · obtain rfl : j = 0 := by omega
    simp only [hslot, RB.pushed, Memory.read_write_same, Option.isSome_some]
  · exact Memory.read_write_other _ _ (hslot ▸ hj 0 Nat.one_pos)

/-- The two ranges RB_PUSHN stores, with the cursor published, are a legal ring buffer (40_ring_buffer R113). -/
theorem State.Inv.pushN_legal {s : State} (h : s.Inv) {b : Byte} (hb : b.toNat < s.cfg.numRB) {items : List Elem}
    {k k1 : Nat} {r1 r2 : RB} (hk : k = min items.length (freeSlots (s.par b.toNat).capacity (s.rb b.toNat)))
    (hk1 : k1 = min k ((s.par b.toNat).capacity - (s.rb b.toNat).wr))
    (h1 : storeRange (s.par b.toNat) (s.rb b.toNat) (s.rb b.toNat).wr (items.take k1) = some r1)
    (h2 : storeRange (s.par b.toNat) r1 0 ((items.take k).drop k1) = some r2) :
    RB.Legal (s.par b.toNat) { r2 with wr := slotAfter (s.par b.toNat).capacity (s.rb b.toNat).wr k } := by
  obtain ⟨_, _, g1, g2, hrd, hwf, hbounds, hin, hout⟩ := pushN_ranges h hb items hk.symm hk1.symm
  obtain rfl := Option.some.inj (h1.symm.trans g1)
  obtain rfl := Option.some.inj (h2.symm.trans g2)
  refine (h.legal hb).push (hk ▸ Nat.min_le_right _ _) hrd rfl hwf hbounds (fun j hj => ?_) hout
  have hlen : j < items.length := hj.trans_le (hk ▸ Nat.min_le_left _ _)
  simp only [hin j hj, List.getElem?_eq_getElem hlen, Option.map_some, Option.isSome_some]

/-- What a ring-buffer command `i` on ring buffer `b` leads to from `s`, if it answers `t`. -/
inductive RingResult (s t : State) (b : Byte) (i : Instr) : Prop
  /-- RBCheck stops it (R109). -/
  | stopped (op : Byte) (k : FaultKind) (info : FaultInfo) (ht : t = s.stop k op (some b) info)
  /-- It answers and moves nothing. -/
  | answered (op : Byte) (x : Response) (ht : t = s.reply op (some b) x)
  /-- The producer's RB_PUSH or RB_PUSHN stores and publishes `WR`; `RD` stays. -/
  | produced (op : Byte) (x : Response) (r : RB) (hissue : s.MayIssue .rbPush b)
      (hi : (∃ item, i = .rbPush b item) ∨ ∃ items, i = .rbPushN b items)
      (hrd : r.rd = (s.rb b.toNat).rd) (hlegal : s.Inv → RB.Legal (s.par b.toNat) r)
      (ht : t = (s.setRb b.toNat r).reply op (some b) x)
  /-- The consumer's RB_POP, RB_SKIP or RB_CLEAR moves `RD`; `WR` and the storage stay. -/
  | consumed (op : Byte) (x : Response) (r : RB) (hissue : s.MayIssue .rbPop b)
      (hi : i = .rbPop b ∨ i = .rbSkip b ∨ i = .rbClear b)
      (hwr : r.wr = (s.rb b.toNat).wr) (hstore : r.store = (s.rb b.toNat).store)
      (hlegal : s.Inv → RB.Legal (s.par b.toNat) r)
      (ht : t = (s.setRb b.toNat r).reply op (some b) x)

/-- RB_POP and RB_SKIP of an element are a consumer's move. -/
theorem RingResult.of_popped {s t : State} {b : Byte} {i : Instr} {op : Byte} {x : Response}
    (hissue : s.MayIssue .rbPop b) (hi : i = .rbPop b ∨ i = .rbSkip b ∨ i = .rbClear b)
    (hne : (s.rb b.toNat).wr ≠ (s.rb b.toNat).rd) (ht : t = (poppedState s b).reply op (some b) x) :
    RingResult s t b i :=
  .consumed op x { s.rb b.toNat with rd := slotAfter (s.par b.toNat).capacity (s.rb b.toNat).rd 1 } hissue hi rfl rfl
    (fun h => (h.legal hissue.1).pop hne) ht

/-- Every ring-buffer command that answers has one of the four results. -/
theorem exec_ring_result {s t : State} {i : Instr} {b : Byte} (hb : i.instanceNo = some b)
    (h : exec i s = .next t) : RingResult s t b i := by
  cases i with
  | rbPush b' item =>
    cases hb
    obtain ⟨k, info, _, ht⟩ | ⟨_, _, ht⟩ | ⟨hm, hf, _, ht⟩ := exec_rbPush_cases h
    · exact .stopped _ k info ht
    · exact .answered _ _ ht
    · exact .produced _ _ ((s.rb b.toNat).pushed (s.par b.toNat) item) hm (.inl ⟨item, rfl⟩) rfl
        (fun hs => (hs.legal hm.1).pushOne hf item) (pushedState_eq_setRb s b item ▸ ht)
  | rbPushN b' items =>
    cases hb
    obtain ⟨k, info, _, ht⟩ | ⟨hm, r1, r2, k, k1, hk, hk1, h1, h2, ht⟩ := exec_rbPushN_cases h
    · exact .stopped _ k info ht
    · have hrd : r2.rd = (s.rb b.toNat).rd := (storeRange_cursors h2).2.trans (storeRange_cursors h1).2
      exact .produced _ _ { r2 with wr := slotAfter _ _ k } hm (.inr ⟨items, rfl⟩) hrd
        (fun hs => hs.pushN_legal hm.1 hk hk1 h1 h2) ht
  | rbCount b' =>
    cases hb
    obtain ⟨k, info, _, ht⟩ | ⟨_, ht⟩ := exec_rbCount_cases h
    · exact .stopped _ k info ht
    · exact .answered _ _ ht
  | rbSpace b' =>
    cases hb
    obtain ⟨k, info, _, ht⟩ | ⟨_, ht⟩ := exec_rbSpace_cases h
    · exact .stopped _ k info ht
    · exact .answered _ _ ht
  | rbPeek b' =>
    cases hb
    obtain ⟨k, info, _, ht⟩ | ⟨_, _, ht⟩ | ⟨_, _, _, ht⟩ := exec_rbPeek_cases h
    · exact .stopped _ k info ht
    · exact .answered _ _ ht
    · exact .answered _ _ ht
  | rbPop b' =>
    cases hb
    obtain ⟨k, info, _, ht⟩ | ⟨_, _, ht⟩ | ⟨hm, hne, _, ht⟩ := exec_rbPop_cases h
    · exact .stopped _ k info ht
    · exact .answered _ _ ht
    · exact .of_popped hm (.inl rfl) hne ht
  | rbSkip b' =>
    cases hb
    obtain ⟨k, info, _, ht⟩ | ⟨_, _, ht⟩ | ⟨hm, hne, ht⟩ := exec_rbSkip_cases h
    · exact .stopped _ k info ht
    · exact .answered _ _ ht
    · exact .of_popped hm (.inr (.inl rfl)) hne ht
  | rbClear b' =>
    cases hb
    obtain ⟨k, info, _, ht⟩ | ⟨hm, ht⟩ := exec_rbClear_cases h
    · exact .stopped _ k info ht
    · exact .consumed _ _ { s.rb b.toNat with rd := (s.rb b.toNat).wr } hm (.inr (.inr rfl)) rfl rfl
        (fun hs => (hs.legal hm.1).clear) ht
  | seqReset | dpConfig | dpReset | dpAdd | dpAdvance | dpWrite | tpWrite | fstWrite | lufWrite
  | pktD | pktM | pktN | pktF | pktL => cases hb

/-- What an update of instances, FAULTS and responses leaves alone. -/
theorem same_outside_rings {s t : State} {rbs : List RB} {faults : List FaultRecord} {replies : List Reply}
    (ht : t = { s with rbs := rbs, faults := faults, replies := replies }) :
    SameDP s t ∧ SameStream s t ∧ SameAround s t := by
  subst ht
  exact ⟨⟨rfl, rfl, rfl, rfl⟩, ⟨rfl, rfl, rfl, rfl⟩, rfl, rfl, rfl, rfl, rfl⟩

/-- Ring buffer `b` apart, a ring-buffer command changes only responses and FAULTS (10_state R23, R34). -/
theorem exec_ring_frame {s t : State} {i : Instr} {b : Byte} (hb : i.instanceNo = some b) (h : exec i s = .next t) :
    SameOtherRings b.toNat s t ∧ SameDP s t ∧ SameStream s t ∧ SameAround s t := by
  have others : ∀ (r : RB) (op : Byte) (x : Response),
      SameOtherRings b.toNat s ((s.setRb b.toNat r).reply op (some b) x) := fun r _ _ =>
    ⟨List.length_set, fun _ hne => s.setRb_rb_other r hne⟩
  cases exec_ring_result hb h with
  | stopped op k info ht => exact ⟨ht ▸ ⟨rfl, fun _ _ => rfl⟩, same_outside_rings ht⟩
  | answered op x ht => exact ⟨ht ▸ ⟨rfl, fun _ _ => rfl⟩, same_outside_rings ht⟩
  | produced op x r _ _ _ _ ht => exact ⟨ht ▸ others r op x, same_outside_rings ht⟩
  | consumed op x r _ _ _ _ _ ht => exact ⟨ht ▸ others r op x, same_outside_rings ht⟩

end Sys2Proof.Machine
end

section
/-! PROOFS. The families of rows of the opcode table, and what the packet writes and the wire packets can do. Proofs about
every instruction go by these families. -/

namespace Sys2Proof.Machine

/-- The rows of the opcode table by what they can change: a ring buffer, the stream, `SEQ`, the DataPacket buffer, or the
receiver. -/
inductive RowFamily (i : Instr) : Prop
  | ring (b : Byte) (hb : i.instanceNo = some b)
  | packetWrite (hw : i.isPacketWrite = true)
  | seqReset (hi : i = .seqReset)
  | dpConfig (n : Half) (hi : i = .dpConfig n)
  | dpReset (hi : i = .dpReset)
  | dpAdd (ch : Byte) (v : Sample) (hi : i = .dpAdd ch v)
  | dpAdvance (hi : i = .dpAdvance)
  | wire (hc : i.opcode = none)

theorem rowFamily (i : Instr) : RowFamily i := by
  cases i with
  | rbPush b | rbPushN b | rbCount b | rbSpace b | rbPeek b | rbPop b | rbSkip b | rbClear b => exact .ring b rfl
  | dpWrite | tpWrite | fstWrite | lufWrite => exact .packetWrite rfl
  | seqReset => exact .seqReset rfl
  | dpConfig n => exact .dpConfig n rfl
  | dpReset => exact .dpReset rfl
  | dpAdd ch v => exact .dpAdd ch v rfl
  | dpAdvance => exact .dpAdvance rfl
  | pktD | pktM | pktN | pktF | pktL => exact .wire rfl

/-- A wire packet is its reception, whatever its tag (30_encoding R88, log 12). -/
theorem exec_wire_eq {i : Instr} (hc : i.opcode = none) : ∃ m n q, ∀ s, exec i s = .next (s.receive m n q) := by
  cases i with
  | pktD m n q | pktM m n q | pktN m n q | pktF m n q | pktL m n q => exact ⟨m, n, q, fun _ => rfl⟩
  | rbPush | rbPushN | rbCount | rbSpace | rbPeek | rbPop | rbSkip | rbClear | seqReset | dpConfig | dpReset | dpAdd
  | dpAdvance | dpWrite | tpWrite | fstWrite | lufWrite => cases hc

/-- What a packet write under opcode `op` of which the sink accepted `bs` makes of `s` (41_sequencer R143, R144): the
stream, the response, and what stays of the block; DP_WRITE may also change `DP.STATE` and add records to FAULTS. -/
structure PacketWritten (s t : State) (op : Opcode) (bs : List Byte) : Prop where
  seq : t.seq = s.seq + 1
  out : t.out = s.out ++ bs
  replied : Replied s t op none (.total bs.length)
  cfg : t.cfg = s.cfg
  rbs : t.rbs = s.rbs
  dpS : t.dpS = s.dpS
  dpPPP : t.dpPPP = s.dpPPP
  dpIDX : t.dpIDX = s.dpIDX
  faults_nodup : s.faults.Nodup → t.faults.Nodup

theorem packetWritten_of_eq {s t : State} {op : Opcode} {bs : List Byte} {sink : List Nat} {sinkDraws sampleDraws : Nat}
    {dpSTATE : DPState} {faults : List FaultRecord}
    (ht : t = { s with
      seq := s.seq + 1
      out := s.out ++ bs
      sink := sink
      sinkDraws := sinkDraws
      faults := faults
      sampleDraws := sampleDraws
      dpSTATE := dpSTATE
      replies := s.replies ++ [⟨s.ctx, op.byte, none, .total bs.length⟩] })
    (hfaults : s.faults.Nodup → faults.Nodup) : PacketWritten s t op bs := by
  subst ht
  exact ⟨rfl, rfl, rfl, rfl, rfl, rfl, rfl, rfl, hfaults⟩

/-- The three time-packet writes (43_time R190 to R192). -/
theorem packetWritten_of_emitted {s t : State} {tag : Tag} {chunks : List (List Byte)} {op : Opcode}
    (h : .next ((s.emitPacket tag chunks).2.reply op.byte none (.total (s.emitPacket tag chunks).1)) =
      (.next t : Host.Outcome State Fault Refusal)) :
    ∃ bs, PacketWritten s t op bs := by
  obtain ⟨bs, _, ht⟩ := emitPacket_reply_cases (Host.Outcome.next.inj h).symm
  exact ⟨bs, packetWritten_of_eq ht id⟩

/-- DP_WRITE (42_data_packet R164). -/
theorem packetWritten_of_dpWrite {s t : State} (h : exec .dpWrite s = .next t) :
    ∃ bs, PacketWritten s t .dpWrite bs := by
  obtain ⟨_, bs, p, hp, _, ht⟩ := exec_dpWrite_cases h
  refine ⟨bs, packetWritten_of_eq ht fun hs => ?_⟩
  rw [hp]
  exact payload_faults_nodup _ _ (writeFault_faults_nodup hs)

/-- Every packet write. -/
theorem exec_packetWrite {s t : State} {i : Instr} (hw : i.isPacketWrite = true) (h : exec i s = .next t) :
    ∃ op bs, i.opcode = some op ∧ PacketWritten s t op bs := by
  cases i with
  | dpWrite => exact ⟨_, (packetWritten_of_dpWrite h).imp fun _ hp => ⟨rfl, hp⟩⟩
  | tpWrite req ts => exact ⟨_, (packetWritten_of_emitted h).imp fun _ hp => ⟨rfl, hp⟩⟩
  | fstWrite ts => exact ⟨_, (packetWritten_of_emitted h).imp fun _ hp => ⟨rfl, hp⟩⟩
  | lufWrite req ts fid fts => exact ⟨_, (packetWritten_of_emitted h).imp fun _ hp => ⟨rfl, hp⟩⟩
  | rbPush | rbPushN | rbCount | rbSpace | rbPeek | rbPop | rbSkip | rbClear | seqReset | dpConfig | dpReset | dpAdd
  | dpAdvance | pktD | pktM | pktN | pktF | pktL => cases hw

end Sys2Proof.Machine
end

section
/-! PROOFS. The legal states are kept by every step (10_state R24 to R36). -/

namespace Sys2Proof.Machine

/-! ## What keeps a state legal -/

/-- With the parameters and the instances of a legal state, only the DataPacket buffer and FAULTS are left to look at. -/
theorem State.Inv.of_sameRings {s t : State} (h : s.Inv) (hcfg : t.cfg = s.cfg) (hrbs : t.rbs = s.rbs)
    (hdp : t.DPLegal) (hfaults : t.faults.Nodup) : t.Inv := by
  obtain ⟨hwf, hlen, hrings, _, _⟩ := h
  refine ⟨hcfg ▸ hwf, ?_, fun b hb => ?_, hdp, hfaults⟩
  · rw [hrbs, hcfg, hlen]
  · rw [State.par_congr hcfg, State.rb_congr hrbs]
    exact hrings b (hcfg ▸ hb)

theorem State.Inv.dpLegal {s : State} (h : s.Inv) : s.DPLegal := h.2.2.2.1

theorem State.Inv.faults_nodup {s : State} (h : s.Inv) : s.faults.Nodup := h.2.2.2.2

/-- A stopping fault keeps a state legal: FAULTS stays a set (10_state R36). -/
theorem State.Inv.stop {s : State} (h : s.Inv) (k : FaultKind) (op : Byte) (inst : Option Byte) (info : FaultInfo) :
    (s.stop k op inst info).Inv :=
  h.of_sameRings rfl rfl h.dpLegal (State.raise_faults_nodup h.faults_nodup k op info)

/-- Replacing an existing ring buffer by a legal one keeps a state legal. -/
theorem State.Inv.setRb {s : State} (h : s.Inv) {b : Nat} {r : RB} (hb : b < s.cfg.numRB)
    (hr : RB.Legal (s.par b) r) : (s.setRb b r).Inv := by
  obtain ⟨hwf, hlen, hrings, hdp, hfaults⟩ := h
  refine ⟨hwf, (List.length_set).trans hlen, fun b' hb' => ?_, hdp, hfaults⟩
  rw [State.setRb_par]
  by_cases hbb : b' = b
  · subst hbb
    rwa [State.setRb_rb_same s r (hlen ▸ hb)]
  · rw [State.setRb_rb_other s r hbb]
    exact hrings b' hb'

/-- An empty ring buffer is legal (70_reset R231). -/
theorem RB.initial_legal {p : RBParams} (h : 2 ≤ p.capacity) : RB.Legal p RB.initial := by
  have hempty : occupied p.capacity RB.initial = 0 := by simp [occupied, RB.initial]
  have hC : 0 < p.capacity := by omega
  exact ⟨⟨hC, hC⟩, List.Pairwise.nil, fun e he => (List.not_mem_nil he).elim, fun k hk => by omega⟩

/-- Whole-block reset leads to a legal state (70_reset R231). -/
theorem State.Inv.wholeReset {s : State} (h : s.Inv) : s.wholeReset.Inv := by
  have ⟨hwf, _, _, _, hfaults⟩ := h
  have ⟨_, _, _, _, _, _, _, hppp, hppp'⟩ := hwf
  refine ⟨hwf, List.length_map _, fun b hb => ?_, ⟨⟨hppp, hppp'⟩, Nat.zero_le _, List.Pairwise.nil,
    fun e he => (List.not_mem_nil he).elim⟩, hfaults⟩
  have hrb : s.wholeReset.rb b = RB.initial := by
    simp [State.rb, List.getD_eq_getElem?_getD]
  rw [hrb]
  exact RB.initial_legal (h.two_le_capacity hb)

/-! ## What each family of rows keeps -/

theorem ring_keeps_inv {s t : State} {i : Instr} {b : Byte} (hs : s.Inv) (hb : i.instanceNo = some b)
    (h : exec i s = .next t) : t.Inv := by
  cases exec_ring_result hb h with
  | stopped op k info ht => exact ht ▸ hs.stop k op (some b) info
  | answered op x ht => exact ht ▸ hs
  | produced op x r hissue _ _ hlegal ht => exact ht ▸ hs.setRb hissue.1 (hlegal hs)
  | consumed op x r hissue _ _ _ hlegal ht => exact ht ▸ hs.setRb hissue.1 (hlegal hs)

theorem packetWrite_keeps_inv {s t : State} {i : Instr} (hs : s.Inv) (hw : i.isPacketWrite = true)
    (h : exec i s = .next t) : t.Inv := by
  obtain ⟨op, bs, _, hp⟩ := exec_packetWrite hw h
  refine hs.of_sameRings hp.cfg hp.rbs ?_ (hp.faults_nodup hs.faults_nodup)
  unfold State.DPLegal
  rw [hp.cfg, hp.dpS, hp.dpPPP, hp.dpIDX]
  exact hs.dpLegal

theorem dpConfig_keeps_inv {s t : State} {n : Half} (hs : s.Inv) (h : exec (.dpConfig n) s = .next t) : t.Inv := by
  obtain ⟨_, ht⟩ | ⟨hn, hn', ht⟩ := exec_dpConfig_cases h
  · exact ht ▸ hs.stop _ _ _ _
  · obtain ⟨_, hidx, hmem⟩ := hs.dpLegal
    subst ht
    exact hs.of_sameRings rfl rfl ⟨⟨hn, hn'⟩, hidx, hmem⟩ hs.faults_nodup

theorem dpReset_keeps_inv {s t : State} (hs : s.Inv) (h : exec .dpReset s = .next t) : t.Inv := by
  obtain ⟨hppp, _, hmem⟩ := hs.dpLegal
  cases h
  exact hs.of_sameRings rfl rfl ⟨hppp, Nat.zero_le _, hmem⟩ hs.faults_nodup

/-- An existing cell has an index below `MAX_POINTS * CH`. -/
theorem dpIndex_lt {n ch p c : Nat} (hp : p < n) (hc : c < ch) : dpIndex ch p c < n * ch :=
  calc dpIndex ch p c < p * ch + ch := Nat.add_lt_add_left hc _
    _ = (p + 1) * ch := (Nat.succ_mul p ch).symm
    _ ≤ n * ch := Nat.mul_le_mul_right ch hp

theorem dpAdd_keeps_inv {s t : State} {ch : Byte} {v : Sample} (hs : s.Inv) (h : exec (.dpAdd ch v) s = .next t) :
    t.Inv := by
  obtain ⟨_, ht⟩ | ⟨_, _, ht⟩ | ⟨hch, _, hidx, ht⟩ := exec_dpAdd_cases h
  · exact ht ▸ hs.stop _ _ _ _
  · exact ht ▸ hs
  · obtain ⟨hppp, hle, hwf, hcells⟩ := hs.dpLegal
    subst ht
    refine hs.of_sameRings rfl rfl ⟨hppp, hle, Memory.wf_write hwf _ _, fun e he => ?_⟩ hs.faults_nodup
    rcases Memory.mem_write he with rfl | he
    · exact dpIndex_lt hidx hch
    · exact hcells e he

theorem dpAdvance_keeps_inv {s t : State} (hs : s.Inv) (h : exec .dpAdvance s = .next t) : t.Inv := by
  obtain ⟨_, ht⟩ | ⟨hne, ht⟩ := exec_dpAdvance_cases h
  · exact ht ▸ hs.stop _ _ _ _
  · obtain ⟨hppp, hle, hmem⟩ := hs.dpLegal
    subst ht
    exact hs.of_sameRings rfl rfl ⟨hppp, Nat.lt_of_le_of_ne hle hne, hmem⟩ hs.faults_nodup

/-- Every instruction keeps the legal states. -/
theorem exec_keeps_inv {s t : State} {i : Instr} (hs : s.Inv) (h : exec i s = .next t) : t.Inv := by
  cases rowFamily i with
  | ring b hb => exact ring_keeps_inv hs hb h
  | packetWrite hw => exact packetWrite_keeps_inv hs hw h
  | seqReset hi => subst hi; cases h; exact hs
  | dpConfig n hi => subst hi; exact dpConfig_keeps_inv hs h
  | dpReset hi => subst hi; exact dpReset_keeps_inv hs h
  | dpAdd ch v hi => subst hi; exact dpAdd_keeps_inv hs h
  | dpAdvance hi => subst hi; exact dpAdvance_keeps_inv hs h
  | wire hc =>
    obtain ⟨m, n, q, hr⟩ := exec_wire_eq hc
    rw [hr] at h
    cases h
    exact hs

/-- Settles O12: a request taken leaves a legal state, which every instruction, a reserved opcode, whole-block reset and
the use of read data keep. -/
theorem stepKeepsLegalStates : Obligations.StepKeepsLegalStates := by
  unfold Obligations.StepKeepsLegalStates
  intro s t hs h
  obtain ⟨_, ⟨_, ht⟩ | ⟨_, q, _, ⟨ctx, _, i, _, _, _, hx⟩ | ⟨ctx, _, op, _, _, _, ht⟩ | ⟨_, ht⟩ |
    ⟨ctx, b, _, _, ht⟩ | ⟨_, _, i, _, _, hx⟩ | ⟨_, _, _, _, ht⟩⟩⟩ := step_cases h
  · exact ht ▸ hs
  · exact exec_keeps_inv (s := { s with port := q, ctx := ctx }) hs hx
  · exact ht ▸ State.Inv.stop (s := { s with port := q, ctx := ctx }) hs _ _ _ _
  · exact ht ▸ State.Inv.wholeReset (s := { s with port := q }) hs
  · obtain ⟨hframe, _, hnodup⟩ := useData_frame { s with port := q, ctx := ctx } b
    rw [ht, hframe]
    exact hs.of_sameRings rfl rfl hs.dpLegal (hnodup hs.faults_nodup)
  · exact exec_keeps_inv (s := { s with port := q }) hs hx
  · exact ht ▸ hs

end Sys2Proof.Machine
end

section
/-! PROOFS. Which instructions move the cursors, `SEQ`, OUT and the DataPacket buffer (10_state R24 to R35). -/

namespace Sys2Proof.Machine

/-! ## Cursors and storage of the instances -/

/-- Only the ring-buffer commands touch the instances. -/
theorem exec_sameRings {s t : State} {i : Instr} (hb : i.instanceNo = none) (h : exec i s = .next t) :
    SameRings s t := by
  cases rowFamily i with
  | ring b hb' => rw [hb] at hb'; cases hb'
  | packetWrite hw =>
    obtain ⟨op, bs, _, hp⟩ := exec_packetWrite hw h
    exact hp.rbs
  | seqReset hi => subst hi; cases h; rfl
  | dpConfig n hi => subst hi; obtain ⟨_, rfl⟩ | ⟨_, _, rfl⟩ := exec_dpConfig_cases h <;> rfl
  | dpReset hi => subst hi; cases h; rfl
  | dpAdd ch v hi => subst hi; obtain ⟨_, rfl⟩ | ⟨_, _, rfl⟩ | ⟨_, _, _, rfl⟩ := exec_dpAdd_cases h <;> rfl
  | dpAdvance hi => subst hi; obtain ⟨_, rfl⟩ | ⟨_, rfl⟩ := exec_dpAdvance_cases h <;> rfl
  | wire hc =>
    obtain ⟨m, n, q, hr⟩ := exec_wire_eq hc
    rw [hr] at h
    cases h
    rfl

/-- Replacing a ring buffer changes it or, where it does not exist, nothing. -/
theorem setRb_rb_cases (s : State) (b b' : Nat) (r : RB) :
    (s.setRb b r).rb b' = s.rb b' ∨ b' = b ∧ (s.setRb b r).rb b' = r := by
  by_cases hbb : b' = b
  · subst hbb
    by_cases hlen : b' < s.rbs.length
    · exact .inr ⟨rfl, State.setRb_rb_same s r hlen⟩
    · exact .inl (State.rb_congr (List.set_eq_of_length_le (Nat.le_of_not_lt hlen)) b')
  · exact .inl (State.setRb_rb_other s r hbb)

/-- Settles O31: a ring buffer differs after an instruction only where a producer's or a consumer's command replaced it. -/
theorem cursorsMoveByOwnersOnly : Obligations.CursorsMoveByOwnersOnly := by
  unfold Obligations.CursorsMoveByOwnersOnly
  intro s t i b h
  by_cases hsame : t.rb b = s.rb b
  · simp [hsame]
  cases hi : i.instanceNo with
  | none => exact absurd (State.rb_congr (exec_sameRings hi h) b) hsame
  | some b8 =>
    cases exec_ring_result hi h with
    | stopped op k info ht => exact absurd (ht ▸ rfl) hsame
    | answered op x ht => exact absurd (ht ▸ rfl) hsame
    | produced op x r hissue hcmd hrd _ ht =>
      subst ht
      obtain hkept | ⟨rfl, hr⟩ := setRb_rb_cases s b8.toNat b r
      · exact absurd hkept hsame
      · refine ⟨fun _ => ⟨of_decide_eq_true hissue.2, ?_⟩, fun hne => absurd ?_ hne⟩
        · exact hcmd.imp (fun ⟨item, e⟩ => ⟨b8, item, e, rfl⟩) fun ⟨items, e⟩ => ⟨b8, items, e, rfl⟩
        · rw [State.reply_rb, hr, hrd]
    | consumed op x r hissue hcmd hwr hstore _ ht =>
      subst ht
      obtain hkept | ⟨rfl, hr⟩ := setRb_rb_cases s b8.toNat b r
      · exact absurd hkept hsame
      · refine ⟨fun hne => ?_, fun _ => ⟨of_decide_eq_true hissue.2, b8, rfl, hcmd⟩⟩
        rw [State.reply_rb, hr, hwr, hstore] at hne
        exact absurd hne (by simp)

/-! ## The stream: SEQ and OUT -/

/-- Packet writes and SEQ_RESET apart, no instruction touches `SEQ`, OUT or the sink. -/
theorem exec_sameStream {s t : State} {i : Instr} (hw : i.isPacketWrite = false) (hne : i ≠ .seqReset)
    (h : exec i s = .next t) : SameStream s t := by
  cases rowFamily i with
  | ring b hb =>
    obtain ⟨_, _, hstream, _⟩ := exec_ring_frame hb h
    exact hstream
  | packetWrite hw' => rw [hw] at hw'; cases hw'
  | seqReset hi => exact absurd hi hne
  | dpConfig n hi =>
    subst hi
    obtain ⟨_, rfl⟩ | ⟨_, _, rfl⟩ := exec_dpConfig_cases h <;> exact ⟨rfl, rfl, rfl, rfl⟩
  | dpReset hi => subst hi; cases h; exact ⟨rfl, rfl, rfl, rfl⟩
  | dpAdd ch v hi =>
    subst hi
    obtain ⟨_, rfl⟩ | ⟨_, _, rfl⟩ | ⟨_, _, _, rfl⟩ := exec_dpAdd_cases h <;> exact ⟨rfl, rfl, rfl, rfl⟩
  | dpAdvance hi =>
    subst hi
    obtain ⟨_, rfl⟩ | ⟨_, rfl⟩ := exec_dpAdvance_cases h <;> exact ⟨rfl, rfl, rfl, rfl⟩
  | wire hc =>
    obtain ⟨m, n, q, hr⟩ := exec_wire_eq hc
    rw [hr] at h
    cases h
    exact ⟨rfl, rfl, rfl, rfl⟩

/-- Settles O33: `SEQ` by the packet writes, by SEQ_RESET, and by no other row. -/
theorem sequenceCounterWriters : Obligations.SequenceCounterWriters := by
  unfold Obligations.SequenceCounterWriters
  intro s t i h
  refine ⟨fun hw => ?_, fun hi => ?_, fun hw hne => (exec_sameStream hw hne h).1⟩
  · obtain ⟨op, bs, _, hp⟩ := exec_packetWrite hw h
    rw [hp.seq, BitVec.toNat_add]
    rfl
  · subst hi
    cases h
    rfl

/-- Settles O35: OUT by the packet writes, each appending what the sink accepted, and by no other row. -/
theorem outputOnlyGrows : Obligations.OutputOnlyGrows := by
  unfold Obligations.OutputOnlyGrows
  intro s t i h
  refine ⟨fun hw => ?_, fun hw => ?_⟩
  · by_cases hi : i = .seqReset
    · subst hi
      cases h
      rfl
    · obtain ⟨_, hout, _, _⟩ := exec_sameStream hw hi h
      exact hout
  · obtain ⟨op, bs, hop, hp⟩ := exec_packetWrite hw h
    exact ⟨bs, op, hp.out, hop, hp.replied⟩

/-! ## The DataPacket buffer -/

@[simp] theorem State.stop_dpS (s : State) (k : FaultKind) (op : Byte) (inst : Option Byte) (info : FaultInfo) :
    (s.stop k op inst info).dpS = s.dpS := rfl
@[simp] theorem State.stop_dpPPP (s : State) (k : FaultKind) (op : Byte) (inst : Option Byte) (info : FaultInfo) :
    (s.stop k op inst info).dpPPP = s.dpPPP := rfl
@[simp] theorem State.stop_dpIDX (s : State) (k : FaultKind) (op : Byte) (inst : Option Byte) (info : FaultInfo) :
    (s.stop k op inst info).dpIDX = s.dpIDX := rfl

/-- Settles O49: of the rows only the four DataPacket commands can change the buffer's storage, `DP.PPP` or `DP.IDX`, and
each of them changes its own part. -/
theorem dataPacketWriters : Obligations.DataPacketWriters := by
  unfold Obligations.DataPacketWriters
  intro s t i h
  cases rowFamily i with
  | ring b hb =>
    obtain ⟨_, ⟨hS, hPPP, hIDX, _⟩, _, _⟩ := exec_ring_frame hb h
    simp [hS, hPPP, hIDX]
  | packetWrite hw =>
    obtain ⟨op, bs, _, hp⟩ := exec_packetWrite hw h
    simp [hp.dpS, hp.dpPPP, hp.dpIDX]
  | seqReset hi => subst hi; cases h; simp
  | dpConfig n hi => subst hi; obtain ⟨_, rfl⟩ | ⟨_, _, rfl⟩ := exec_dpConfig_cases h <;> simp
  | dpReset hi => subst hi; cases h; simp
  | dpAdd ch v hi =>
    subst hi
    obtain ⟨_, rfl⟩ | ⟨_, _, rfl⟩ | ⟨_, _, _, rfl⟩ := exec_dpAdd_cases h <;> simp
  | dpAdvance hi => subst hi; obtain ⟨_, rfl⟩ | ⟨_, rfl⟩ := exec_dpAdvance_cases h <;> simp
  | wire hc =>
    obtain ⟨m, n, q, hr⟩ := exec_wire_eq hc
    rw [hr] at h
    cases h
    simp

end Sys2Proof.Machine
end

section
/-! PROOFS. Occupancy as a function of the cursors (10_state R27). -/

namespace Sys2Proof.Machine

/-- The count is the mathematical remainder of the cursors' difference; it is never negative (00_scope R11). -/
theorem occupied_eq_emod {C : Nat} (r : RB) (hC : 0 < C) : (occupied C r : Int) = ((r.wr : Int) - r.rd) % C :=
  Int.toNat_of_nonneg (Int.emod_nonneg _ (by omega))

/-- Settles O17: the count's range, its complement, and the cursor conditions for empty and full. -/
theorem countAndSpaceOfCursors : Obligations.CountAndSpaceOfCursors := by
  unfold Obligations.CountAndSpaceOfCursors
  intro p r hC hr
  have hlt := occupied_lt hr
  have hle : occupied p.capacity r ≤ p.capacity - 1 := by omega
  exact ⟨occupied_eq_emod r (by omega), rfl, hle, Nat.add_sub_cancel' hle, occupied_eq_zero hr,
    isFull_iff.symm.trans (isFull_iff_next hr)⟩

end Sys2Proof.Machine
end

section
/-! PROOFS. What the instructions read: a ring-buffer command its own buffer only (10_state R23), none of them FAULTS
(10_state R36, 60_exceptions R202). -/

namespace Sys2Proof.Machine

/-! ## The common form of the ring-buffer commands -/

/-- What a ring-buffer command does to its buffer once RBCheck has passed, and its response; `none` is an access to a
slot that does not exist (40_ring_buffer R110 to R117). -/
def ringEffect (i : Instr) (p : RBParams) (r : RB) : Option (RB × Response) :=
  match i with
  | .rbPush _ item =>
    if isFull p.capacity r then some (r, .ok false)
    else (storeWrite p r r.wr item).map fun r1 => ({ r1 with wr := slotAfter p.capacity r.wr 1 }, .ok true)
  | .rbPushN _ items =>
    let k := min items.length (freeSlots p.capacity r)
    let k1 := min k (p.capacity - r.wr)
    (storeRange p r r.wr (items.take k1)).bind fun r1 =>
      (storeRange p r1 0 ((items.take k).drop k1)).map fun r2 =>
        ({ r2 with wr := slotAfter p.capacity r.wr k }, .pushed k)
  | .rbCount _ => some (r, .count (occupied p.capacity r))
  | .rbSpace _ => some (r, .count (freeSlots p.capacity r))
  | .rbPeek _ =>
    if isEmpty r then some (r, .item false none) else (storeRead p r r.rd).map fun v => (r, .item true v)
  | .rbPop _ =>
    if isEmpty r then some (r, .item false none)
    else (storeRead p r r.rd).map fun v => ({ r with rd := slotAfter p.capacity r.rd 1 }, .item true v)
  | .rbSkip _ =>
    if isEmpty r then some (r, .ok false) else some ({ r with rd := slotAfter p.capacity r.rd 1 }, .ok true)
  | .rbClear _ => some ({ r with rd := r.wr }, .ack)
  | _ => none

/-- A command on ring buffer `b` with this effect: RBCheck, then the effect on the buffer and the response. -/
def ringCommand (op : Opcode) (b : Byte) (effect : RBParams → RB → Option (RB × Response)) (s : State) :
    Host.Outcome State Fault Refusal :=
  match s.rbCheck op b with
  | some (k, info) => .next (s.stop k op.byte (some b) info)
  | none =>
    match effect (s.par b.toNat) (s.rb b.toNat) with
    | none => .fault .noSuchCell
    | some (r, x) => .next ((s.setRb b.toNat r).reply op.byte (some b) x)

/-- Putting back the ring buffer that stands there changes nothing. -/
theorem State.setRb_self (s : State) (b : Nat) : s.setRb b (s.rb b) = s := by
  have hset : s.rbs.set b (s.rb b) = s.rbs := by
    refine List.ext_getElem (List.length_set) fun j hj hj' => ?_
    by_cases hb : b = j
    · subst hb
      simp [State.rb, hj']
    · simp [hb]
  simp [State.setRb, hset]

/-- Every ring-buffer command has the common form. -/
theorem exec_ring_eq {i : Instr} {b : Byte} (hb : i.instanceNo = some b) :
    ∃ op, ∀ s, exec i s = ringCommand op b (ringEffect i) s := by
  cases i with
  | rbPush b' item =>
    cases hb
    refine ⟨.rbPush, fun s => ?_⟩
    simp only [exec, execRbPush, ringCommand, ringEffect]
    cases s.rbCheck .rbPush b with
    | some ki => rfl
    | none =>
      cases isFull (s.par b.toNat).capacity (s.rb b.toNat) with
      | true => simp [State.setRb_self]
      | false => cases storeWrite (s.par b.toNat) (s.rb b.toNat) (s.rb b.toNat).wr item <;> rfl
  | rbPushN b' items =>
    cases hb
    refine ⟨.rbPushN, fun s => ?_⟩
    simp only [exec, execRbPushN, ringCommand, ringEffect]
    cases s.rbCheck .rbPushN b with
    | some ki => rfl
    | none =>
      cases storeRange _ (s.rb b.toNat) (s.rb b.toNat).wr _ with
      | none => rfl
      | some r1 =>
        simp only [Option.bind_some]
        cases storeRange _ r1 0 _ <;> rfl
  | rbCount b' =>
    cases hb
    refine ⟨.rbCount, fun s => ?_⟩
    simp only [exec, execRbCount, ringCommand, ringEffect]
    cases s.rbCheck .rbCount b with
    | some ki => rfl
    | none => simp only [State.setRb_self]
  | rbSpace b' =>
    cases hb
    refine ⟨.rbSpace, fun s => ?_⟩
    simp only [exec, execRbSpace, ringCommand, ringEffect]
    cases s.rbCheck .rbSpace b with
    | some ki => rfl
    | none => simp only [State.setRb_self]
  | rbPeek b' =>
    cases hb
    refine ⟨.rbPeek, fun s => ?_⟩
    simp only [exec, execRbPeek, ringCommand, ringEffect]
    cases s.rbCheck .rbPeek b with
    | some ki => rfl
    | none =>
      cases isEmpty (s.rb b.toNat) with
      | true => simp [State.setRb_self]
      | false => cases storeRead (s.par b.toNat) (s.rb b.toNat) (s.rb b.toNat).rd <;> simp [State.setRb_self]
  | rbPop b' =>
    cases hb
    refine ⟨.rbPop, fun s => ?_⟩
    simp only [exec, execRbPop, ringCommand, ringEffect]
    cases s.rbCheck .rbPop b with
    | some ki => rfl
    | none =>
      cases isEmpty (s.rb b.toNat) with
      | true => simp [State.setRb_self]
      | false => cases storeRead (s.par b.toNat) (s.rb b.toNat) (s.rb b.toNat).rd <;> rfl
  | rbSkip b' =>
    cases hb
    refine ⟨.rbSkip, fun s => ?_⟩
    simp only [exec, execRbSkip, ringCommand, ringEffect]
    cases s.rbCheck .rbSkip b with
    | some ki => rfl
    | none =>
      cases isEmpty (s.rb b.toNat) with
      | true => simp [State.setRb_self]
      | false => rfl
  | rbClear b' => cases hb; exact ⟨.rbClear, fun _ => rfl⟩
  | seqReset | dpConfig | dpReset | dpAdd | dpAdvance | dpWrite | tpWrite | fstWrite | lufWrite
  | pktD | pktM | pktN | pktF | pktL => cases hb

/-- A command that has the common form depends only on RBCheck, the parameters and its own buffer: in a state `u` that
shares them it answers in the same way, with `P` between the answers if `P` holds for both ways. -/
theorem ringCommand_congr {op : Opcode} {b : Byte} {effect : RBParams → RB → Option (RB × Response)} {s t u : State}
    {P : State → State → Prop} (hcheck : u.rbCheck op b = s.rbCheck op b) (hpar : u.par b.toNat = s.par b.toNat)
    (hrb : u.rb b.toNat = s.rb b.toNat)
    (hstop : ∀ k info, P (s.stop k op.byte (some b) info) (u.stop k op.byte (some b) info))
    (hdone : ∀ r x, P ((s.setRb b.toNat r).reply op.byte (some b) x) ((u.setRb b.toNat r).reply op.byte (some b) x))
    (h : ringCommand op b effect s = .next t) : ∃ t', P t t' ∧ ringCommand op b effect u = .next t' := by
  unfold ringCommand at h ⊢
  rw [hcheck, hpar, hrb]
  cases hk : s.rbCheck op b with
  | some ki =>
    rw [hk] at h
    cases h
    exact ⟨_, hstop ki.1 ki.2, rfl⟩
  | none =>
    cases he : effect (s.par b.toNat) (s.rb b.toNat) with
    | none => simp only [hk, he] at h; cases h
    | some rx =>
      simp only [hk, he] at h
      cases h
      exact ⟨_, hdone rx.1 rx.2, rfl⟩

/-- Settles O30: a ring-buffer command reads of the instances its own one, and replacements of different instances
commute. -/
theorem instancesAreIndependent : Obligations.InstancesAreIndependent := by
  unfold Obligations.InstancesAreIndependent
  intro s t i b b' r' hb hne h
  obtain ⟨⟨_, hothers⟩, _, _, _⟩ := exec_ring_frame hb h
  obtain ⟨op, hform⟩ := exec_ring_eq hb
  rw [hform] at h ⊢
  obtain ⟨t', rfl, ht'⟩ := ringCommand_congr (s := s) (u := s.setRb b' r')
    (P := fun t t' => t' = t.setRb b' r') rfl rfl
    (s.setRb_rb_other r' hne.symm) (fun _ _ => rfl)
    (fun r x => congrArg (State.reply · op.byte (some b) x) (s.setRb_comm r r' hne)) h
  exact ⟨hothers b' hne, ht'⟩

/-! ## FAULTS -/

/-- A state with other records in FAULTS. -/
def State.withFaults (s : State) (fs : List FaultRecord) : State := { s with faults := fs }

/-- A ring-buffer command does not read FAULTS: RBCheck does not, and its buffer is the same. -/
theorem ring_faults {s t : State} {i : Instr} {b : Byte} (hb : i.instanceNo = some b) (fs : List FaultRecord)
    (h : exec i s = .next t) : ∃ fs', exec i (s.withFaults fs) = .next (t.withFaults fs') := by
  obtain ⟨op, hform⟩ := exec_ring_eq hb
  rw [hform] at h ⊢
  obtain ⟨_, ⟨fs', rfl⟩, ht'⟩ := ringCommand_congr (s := s) (u := s.withFaults fs)
    (P := fun t t' => ∃ fs', t' = t.withFaults fs') rfl rfl rfl (fun _ _ => ⟨_, rfl⟩) (fun _ _ => ⟨_, rfl⟩) h
  exact ⟨fs', ht'⟩

/-- The sink's answers do not depend on FAULTS. -/
theorem sinkWriteAll_withFaults (pieces : List (List Byte)) (s : State) (fs : List FaultRecord) :
    (s.withFaults fs).sinkWriteAll pieces =
      ((s.sinkWriteAll pieces).1, (s.sinkWriteAll pieces).2.withFaults fs) := by
  induction pieces generalizing s with
  | nil => rfl
  | cons piece pieces ih =>
    have hwrite : (s.withFaults fs).sinkWrite piece =
        ((s.sinkWrite piece).1, (s.sinkWrite piece).2.withFaults fs) := by
      simp only [State.sinkWrite, State.sinkAnswer, State.withFaults]
      cases s.sink <;> rfl
    simp only [State.sinkWriteAll, hwrite, ih]

/-- Nor does a packet write. -/
theorem emitPacket_withFaults (s : State) (tag : Tag) (chunks : List (List Byte)) (fs : List FaultRecord) :
    (s.withFaults fs).emitPacket tag chunks =
      ((s.emitPacket tag chunks).1, (s.emitPacket tag chunks).2.withFaults fs) :=
  sinkWriteAll_withFaults (headerPieces s.cfg tag s.seq ++ chunks) s.seqNext.2 fs

/-- Nor do the bytes of DP_WRITE's payload. -/
theorem payload_withFaults (op : Byte) (cells : List (Nat × Nat)) (s : State) (fs : List FaultRecord) :
    ∃ fs', (s.withFaults fs).payload op cells = ((s.payload op cells).1, (s.payload op cells).2.withFaults fs') := by
  induction cells generalizing s fs with
  | nil => exact ⟨fs, rfl⟩
  | cons pc cells ih =>
    obtain ⟨p, c⟩ := pc
    have hread : (s.withFaults fs).dpRead p c = s.dpRead p c := rfl
    simp only [State.payload, hread]
    cases s.dpRead p c with
    | some v =>
      obtain ⟨fs', he⟩ := ih s fs
      exact ⟨fs', by rw [he]; rfl⟩
    | none =>
      obtain ⟨fs', he⟩ := ih { s.raise .undefinedSample op (.cell p c) with sampleDraws := s.sampleDraws + 1 }
        ((s.withFaults fs).raise .undefinedSample op (.cell p c)).faults
      exact ⟨fs', congrArg (fun x => (enc s.cfg.byteOrder (Config.sampleDraw s.sampleDraws) 2 ++ x.1, x.2)) he⟩

/-- DP_WRITE records its state fault and the unwritten cells, and writes the same packet. -/
theorem dpWrite_faults {s t : State} (fs : List FaultRecord) (h : exec .dpWrite s = .next t) :
    ∃ fs', exec .dpWrite (s.withFaults fs) = .next (t.withFaults fs') := by
  have hfault : (s.withFaults fs).writeFault = s.writeFault.withFaults (s.withFaults fs).writeFault.faults := by
    conv_lhs => rw [writeFault_frame]
    rw [writeFault_frame s]
    rfl
  obtain ⟨fs', hpay⟩ := payload_withFaults Opcode.dpWrite.byte (payloadCells s.dpPPP s.cfg.ch) s.writeFault
    (s.withFaults fs).writeFault.faults
  rw [← hfault] at hpay
  simp only [exec, execDpWrite] at h
  split at h
  · cases h
  · next hp =>
    cases h
    refine ⟨fs', (if_neg hp).trans ?_⟩
    have hcells : payloadCells (s.withFaults fs).dpPPP (s.withFaults fs).cfg.ch = payloadCells s.dpPPP s.cfg.ch := rfl
    simp only [hcells, hpay, emitPacket_withFaults]
    rfl

/-- Every packet write does the same whatever stands in FAULTS. -/
theorem packetWrite_faults {s t : State} {i : Instr} (hw : i.isPacketWrite = true) (fs : List FaultRecord)
    (h : exec i s = .next t) : ∃ fs', exec i (s.withFaults fs) = .next (t.withFaults fs') := by
  cases i with
  | dpWrite => exact dpWrite_faults fs h
  | tpWrite req ts =>
    rw [exec_tpWrite_eq] at h ⊢
    cases h
    exact ⟨fs, by rw [emitPacket_withFaults]; rfl⟩
  | fstWrite ts =>
    rw [exec_fstWrite_eq] at h ⊢
    cases h
    exact ⟨fs, by rw [emitPacket_withFaults]; rfl⟩
  | lufWrite req ts fid fts =>
    rw [exec_lufWrite_eq] at h ⊢
    cases h
    exact ⟨fs, by rw [emitPacket_withFaults]; rfl⟩
  | rbPush | rbPushN | rbCount | rbSpace | rbPeek | rbPop | rbSkip | rbClear | seqReset | dpConfig | dpReset | dpAdd
  | dpAdvance | pktD | pktM | pktN | pktF | pktL => cases hw

theorem dpAdd_faults {s t : State} {ch : Byte} {v : Sample} (fs : List FaultRecord)
    (h : exec (.dpAdd ch v) s = .next t) : ∃ fs', exec (.dpAdd ch v) (s.withFaults fs) = .next (t.withFaults fs') := by
  obtain ⟨hch, rfl⟩ | ⟨hch, hidx, rfl⟩ | ⟨hch, hidx, hmax, rfl⟩ := exec_dpAdd_cases h
  · exact ⟨_, if_pos hch⟩
  · exact ⟨fs, (if_neg hch.not_ge).trans (if_pos hidx)⟩
  · refine ⟨fs, (if_neg hch.not_ge).trans ((if_neg hidx.not_ge).trans ?_)⟩
    have hcell : Config.hasCell s.cfg s.dpIDX ch.toNat = true := by simp [Config.hasCell, hmax, hch]
    have hstore : (s.withFaults fs).dpStore s.dpIDX ch.toNat v = some _ := if_pos hcell
    change (match (s.withFaults fs).dpStore s.dpIDX ch.toNat v with | none => _ | some s1 => _) = _
    rw [hstore]
    rfl

/-- Settles O51: RBCheck, the effects of the ring-buffer commands, the sink's answers and the payload's bytes are computed
without FAULTS. -/
theorem faultsSteerNothing : Obligations.FaultsSteerNothing := by
  unfold Obligations.FaultsSteerNothing
  intro s t i fs h
  cases rowFamily i with
  | ring b hb => exact ring_faults hb fs h
  | packetWrite hw => exact packetWrite_faults hw fs h
  | seqReset hi => subst hi; cases h; exact ⟨fs, rfl⟩
  | dpConfig n hi =>
    subst hi
    obtain ⟨hn, rfl⟩ | ⟨hn, hn', rfl⟩ := exec_dpConfig_cases h
    · exact ⟨_, if_pos hn⟩
    · have hin : ¬(n.toNat < 1 ∨ s.cfg.maxPoints < n.toNat) := by omega
      exact ⟨fs, if_neg hin⟩
  | dpReset hi => subst hi; cases h; exact ⟨fs, rfl⟩
  | dpAdd ch v hi => subst hi; exact dpAdd_faults fs h
  | dpAdvance hi =>
    subst hi
    obtain ⟨hidx, rfl⟩ | ⟨hidx, rfl⟩ := exec_dpAdvance_cases h
    · exact ⟨_, if_pos hidx⟩
    · exact ⟨fs, if_neg hidx⟩
  | wire hc =>
    obtain ⟨m, n, q, hr⟩ := exec_wire_eq hc
    rw [hr] at h ⊢
    cases h
    exact ⟨fs, rfl⟩

end Sys2Proof.Machine
end

section
/-! PROOFS. What no step changes and no step reads: the parameters (20_memory R53, 60_exceptions R210), and the requests
behind the one it takes (20_memory R61). -/

namespace Sys2Proof.Machine

/-! ## The parameters -/

/-- No instruction changes a parameter. -/
theorem exec_cfg {s t : State} {i : Instr} (h : exec i s = .next t) : t.cfg = s.cfg := by
  cases rowFamily i with
  | ring b hb =>
    obtain ⟨_, _, _, hcfg, _⟩ := exec_ring_frame hb h
    exact hcfg
  | packetWrite hw =>
    obtain ⟨op, bs, _, hp⟩ := exec_packetWrite hw h
    exact hp.cfg
  | seqReset hi => subst hi; cases h; rfl
  | dpConfig n hi => subst hi; obtain ⟨_, rfl⟩ | ⟨_, _, rfl⟩ := exec_dpConfig_cases h <;> rfl
  | dpReset hi => subst hi; cases h; rfl
  | dpAdd ch v hi => subst hi; obtain ⟨_, rfl⟩ | ⟨_, _, rfl⟩ | ⟨_, _, _, rfl⟩ := exec_dpAdd_cases h <;> rfl
  | dpAdvance hi => subst hi; obtain ⟨_, rfl⟩ | ⟨_, rfl⟩ := exec_dpAdvance_cases h <;> rfl
  | wire hc =>
    obtain ⟨m, n, q, hr⟩ := exec_wire_eq hc
    rw [hr] at h
    cases h
    rfl

/-- Settles O15: neither an instruction, nor a reserved opcode, nor whole-block reset, nor the use of read data changes a
parameter. -/
theorem configurationIsFixed : Obligations.ConfigurationIsFixed := by
  unfold Obligations.ConfigurationIsFixed
  intro s t h
  obtain ⟨_, ⟨_, ht⟩ | ⟨_, q, _, ⟨ctx, _, i, _, _, _, hx⟩ | ⟨ctx, _, op, _, _, _, ht⟩ | ⟨_, ht⟩ |
    ⟨ctx, b, _, _, ht⟩ | ⟨_, _, i, _, _, hx⟩ | ⟨_, _, _, _, ht⟩⟩⟩ := step_cases h
  · rw [ht]
  · exact exec_cfg (s := { s with port := q, ctx := ctx }) hx
  · rw [ht]; rfl
  · rw [ht]; rfl
  · rw [ht, (useData_frame { s with port := q, ctx := ctx } b).1]
  · exact exec_cfg (s := { s with port := q }) hx
  · rw [ht]

/-! ## The pending requests -/

/-- A state with other pending requests. -/
def State.withPort (s : State) (q : List Request) : State := { s with port := q }

/-- The sink's answers do not depend on the pending requests. -/
theorem sinkWriteAll_withPort (pieces : List (List Byte)) (s : State) (q : List Request) :
    (s.withPort q).sinkWriteAll pieces = ((s.sinkWriteAll pieces).1, (s.sinkWriteAll pieces).2.withPort q) := by
  induction pieces generalizing s with
  | nil => rfl
  | cons piece pieces ih =>
    have hwrite : (s.withPort q).sinkWrite piece = ((s.sinkWrite piece).1, (s.sinkWrite piece).2.withPort q) := by
      simp only [State.sinkWrite, State.sinkAnswer, State.withPort]
      cases s.sink <;> rfl
    simp only [State.sinkWriteAll, hwrite, ih]

theorem emitPacket_withPort (s : State) (tag : Tag) (chunks : List (List Byte)) (q : List Request) :
    (s.withPort q).emitPacket tag chunks = ((s.emitPacket tag chunks).1, (s.emitPacket tag chunks).2.withPort q) :=
  sinkWriteAll_withPort (headerPieces s.cfg tag s.seq ++ chunks) s.seqNext.2 q

theorem payload_withPort (op : Byte) (cells : List (Nat × Nat)) (s : State) (q : List Request) :
    (s.withPort q).payload op cells = ((s.payload op cells).1, (s.payload op cells).2.withPort q) := by
  induction cells generalizing s with
  | nil => rfl
  | cons pc cells ih =>
    obtain ⟨p, c⟩ := pc
    have hread : (s.withPort q).dpRead p c = s.dpRead p c := rfl
    simp only [State.payload, hread]
    cases s.dpRead p c with
    | some v => simp only [ih]; rfl
    | none =>
      exact congrArg (fun x => (enc s.cfg.byteOrder (Config.sampleDraw s.sampleDraws) 2 ++ x.1, x.2))
        (ih { s.raise .undefinedSample op (.cell p c) with sampleDraws := s.sampleDraws + 1 })

theorem writeFault_withPort (s : State) (q : List Request) :
    (s.withPort q).writeFault = s.writeFault.withPort q := by
  have hstate : (s.withPort q).dpSTATE = s.dpSTATE := rfl
  simp only [State.writeFault, hstate]
  split
  · rfl
  · split <;> rfl

theorem useData_withPort (s : State) (b : Byte) (q : List Request) :
    (s.withPort q).useData b = (s.useData b).withPort q := by
  simp only [State.useData, State.withPort]
  split <;> rfl

theorem dpWrite_withPort {s t : State} (q : List Request) (h : exec .dpWrite s = .next t) :
    exec .dpWrite (s.withPort q) = .next (t.withPort q) := by
  simp only [exec, execDpWrite] at h
  split at h
  · cases h
  · next hp =>
    cases h
    have hcells : payloadCells (s.withPort q).dpPPP (s.withPort q).cfg.ch = payloadCells s.dpPPP s.cfg.ch := rfl
    refine (if_neg hp).trans ?_
    simp only [hcells, writeFault_withPort, payload_withPort, emitPacket_withPort]
    rfl

theorem packetWrite_withPort {s t : State} {i : Instr} (hw : i.isPacketWrite = true) (q : List Request)
    (h : exec i s = .next t) : exec i (s.withPort q) = .next (t.withPort q) := by
  cases i with
  | dpWrite => exact dpWrite_withPort q h
  | tpWrite req ts =>
    rw [exec_tpWrite_eq] at h ⊢
    cases h
    rw [emitPacket_withPort]
    rfl
  | fstWrite ts =>
    rw [exec_fstWrite_eq] at h ⊢
    cases h
    rw [emitPacket_withPort]
    rfl
  | lufWrite req ts fid fts =>
    rw [exec_lufWrite_eq] at h ⊢
    cases h
    rw [emitPacket_withPort]
    rfl
  | rbPush | rbPushN | rbCount | rbSpace | rbPeek | rbPop | rbSkip | rbClear | seqReset | dpConfig | dpReset | dpAdd
  | dpAdvance | pktD | pktM | pktN | pktF | pktL => cases hw

theorem ring_withPort {s t : State} {i : Instr} {b : Byte} (hb : i.instanceNo = some b) (q : List Request)
    (h : exec i s = .next t) : exec i (s.withPort q) = .next (t.withPort q) := by
  obtain ⟨op, hform⟩ := exec_ring_eq hb
  rw [hform] at h ⊢
  obtain ⟨_, rfl, ht'⟩ := ringCommand_congr (s := s) (u := s.withPort q) (P := fun t t' => t' = t.withPort q)
    rfl rfl rfl (fun _ _ => rfl) (fun _ _ => rfl) h
  exact ht'

theorem dpAdd_withPort {s t : State} {ch : Byte} {v : Sample} (q : List Request)
    (h : exec (.dpAdd ch v) s = .next t) : exec (.dpAdd ch v) (s.withPort q) = .next (t.withPort q) := by
  obtain ⟨hch, rfl⟩ | ⟨hch, hidx, rfl⟩ | ⟨hch, hidx, hmax, rfl⟩ := exec_dpAdd_cases h
  · exact if_pos hch
  · exact (if_neg hch.not_ge).trans (if_pos hidx)
  · have hcell : Config.hasCell s.cfg s.dpIDX ch.toNat = true := by simp [Config.hasCell, hmax, hch]
    have hstore : (s.withPort q).dpStore s.dpIDX ch.toNat v = some _ := if_pos hcell
    refine (if_neg hch.not_ge).trans ((if_neg hidx.not_ge).trans ?_)
    change (match (s.withPort q).dpStore s.dpIDX ch.toNat v with | none => _ | some s1 => _) = _
    rw [hstore]
    rfl

/-- No instruction reads the pending requests or changes them. -/
theorem exec_withPort {s t : State} {i : Instr} (q : List Request) (h : exec i s = .next t) :
    exec i (s.withPort q) = .next (t.withPort q) := by
  cases rowFamily i with
  | ring b hb => exact ring_withPort hb q h
  | packetWrite hw => exact packetWrite_withPort hw q h
  | seqReset hi => subst hi; cases h; rfl
  | dpConfig n hi =>
    subst hi
    obtain ⟨hn, rfl⟩ | ⟨hn, hn', rfl⟩ := exec_dpConfig_cases h
    · exact if_pos hn
    · have hin : ¬(n.toNat < 1 ∨ s.cfg.maxPoints < n.toNat) := by omega
      exact if_neg hin
  | dpReset hi => subst hi; cases h; rfl
  | dpAdd ch v hi => subst hi; exact dpAdd_withPort q h
  | dpAdvance hi =>
    subst hi
    obtain ⟨hidx, rfl⟩ | ⟨hidx, rfl⟩ := exec_dpAdvance_cases h
    · exact if_pos hidx
    · exact if_neg hidx
  | wire hc =>
    obtain ⟨m, n, p, hr⟩ := exec_wire_eq hc
    rw [hr] at h ⊢
    cases h
    rfl

/-! ## What a step is, by the request it takes (`step_useData` is the fourth request) -/

theorem step_command {s : State} {ctx : Ctx} {frame : List Byte} {q : List Request} (hw : s.cfg.WF)
    (hp : s.port = .command ctx frame :: q) (hc : ctx ∈ s.cfg.ctxs) :
    step s = stepFrame frame { s with port := q, ctx := ctx } := by
  simp only [step, if_pos hw, hp, if_pos hc]

theorem step_reset {s : State} {q : List Request} (hw : s.cfg.WF) (hp : s.port = .reset :: q) :
    step s = .next (State.wholeReset { s with port := q }) := by
  simp only [step, if_pos hw, hp]

theorem step_packet {s : State} {ppp : Nat} {bytes : List Byte} {q : List Request} (hw : s.cfg.WF)
    (hp : s.port = .packet ppp bytes :: q) : step s = stepPacket ppp bytes { s with port := q } := by
  simp only [step, if_pos hw, hp]

theorem stepFrame_instr {s : State} {frame : List Byte} {i : Instr} (hd : decodeFrame s.cfg frame = .instr i) :
    stepFrame frame s = exec i s := by
  simp only [stepFrame, hd]

theorem stepFrame_reserved {s : State} {frame : List Byte} {op : Byte}
    (hd : decodeFrame s.cfg frame = .reserved op) : stepFrame frame s = .next (s.illegalCommand op) := by
  simp only [stepFrame, hd]

theorem stepPacket_some {s : State} {ppp : Nat} {bytes : List Byte} {i : Instr}
    (hd : decodePacket s.cfg ppp bytes = some i) : stepPacket ppp bytes s = exec i s := by
  simp only [stepPacket, hd]

theorem stepPacket_none {s : State} {ppp : Nat} {bytes : List Byte} (hd : decodePacket s.cfg ppp bytes = none) :
    stepPacket ppp bytes s = .next s := by
  simp only [stepPacket, hd]

/-- Whatever requests stand behind the one taken, the step answers the same state, with those requests before it. -/
theorem step_withPort {s t : State} {r : Request} {q : List Request} (hp : s.port = r :: q) (h : step s = .next t)
    (q' : List Request) : step (s.withPort (r :: q')) = .next (t.withPort q') := by
  obtain ⟨hw, ⟨hnil, _⟩ | ⟨r', q0, hp', hcases⟩⟩ := step_cases h
  · cases hp.symm.trans hnil
  obtain ⟨rfl, rfl⟩ := List.cons.inj (hp.symm.trans hp')
  have hw' : (s.withPort (r :: q')).cfg.WF := hw
  have hu : (s.withPort (r :: q')).port = r :: q' := rfl
  obtain ⟨ctx, _, i, rfl, hc, hd, hx⟩ | ⟨ctx, _, op, rfl, hc, hd, rfl⟩ | ⟨rfl, rfl⟩ | ⟨ctx, b, rfl, hc, rfl⟩ |
    ⟨_, _, i, rfl, hd, hx⟩ | ⟨_, _, rfl, hd, rfl⟩ := hcases
  · rw [step_command hw' hu hc]
    exact Eq.trans (stepFrame_instr hd) (exec_withPort q' hx)
  · rw [step_command hw' hu hc]
    exact stepFrame_reserved hd
  · exact step_reset hw' hu
  · rw [step_useData hw' hu hc]
    exact congrArg Host.Outcome.next (useData_withPort { s with port := q, ctx := ctx } b q')
  · rw [step_packet hw' hu]
    exact Eq.trans (stepPacket_some hd) (exec_withPort (s := { s with port := q }) q' hx)
  · rw [step_packet hw' hu]
    exact stepPacket_none hd

/-- Settles O9: with any requests behind the one taken the step answers alike; with the requests that stood there this says
that they stand in the answer. -/
theorem pendingRequestsAreNotRead : Obligations.PendingRequestsAreNotRead := by
  unfold Obligations.PendingRequestsAreNotRead
  intro s t r q q' hp h
  have hsame : s.withPort (r :: q) = s := by rw [← hp]; rfl
  have hown := step_withPort hp h q
  rw [hsame, h] at hown
  exact ⟨congrArg State.port (Host.Outcome.next.inj hown), step_withPort hp h q'⟩

end Sys2Proof.Machine
end

section
/-! PROOFS. A ring buffer as a first-in first-out queue (20_memory R62, 40_ring_buffer R118), and what the ring-buffer
commands answer in a legal state where RBCheck passes. -/

namespace Sys2Proof.Machine

/-! ## The queue of a ring buffer -/

@[simp] theorem RB.queue_length (p : RBParams) (r : RB) : (RB.queue p r).length = occupied p.capacity r := by
  simp [RB.queue]

/-- The slots `xs` was stored in, from `WR` on, join the queue at its end, and the other slots stay where they were. -/
theorem RB.queue_push {p : RBParams} {r r2 : RB} {xs : List Elem} (h : RB.CursorsLegal p r)
    (hk : xs.length ≤ freeSlots p.capacity r) (hrd : r2.rd = r.rd) (hwr : r2.wr = slotAfter p.capacity r.wr xs.length)
    (hin : ∀ j, j < xs.length → Memory.read r2.store (slotAfter p.capacity r.wr j) = xs[j]?)
    (hout : ∀ j, (∀ l, l < xs.length → j ≠ slotAfter p.capacity r.wr l) →
      Memory.read r2.store j = Memory.read r.store j) :
    RB.queue p r2 = RB.queue p r ++ xs.map some := by
  have hslot : ∀ j, slotAfter p.capacity r.rd (occupied p.capacity r + j) = slotAfter p.capacity r.wr j := fun j => by
    rw [← slotAfter_slotAfter, ← wr_eq_slotAfter h]
  have hfit : occupied p.capacity r + xs.length < p.capacity := by
    have := occupied_lt h
    unfold freeSlots at hk
    omega
  have hold : ∀ k, k < occupied p.capacity r → Memory.read r2.store (slotAfter p.capacity r.rd k) =
      Memory.read r.store (slotAfter p.capacity r.rd k) := fun k hlt => hout _ fun l hl he => by
    rw [← hslot] at he
    have := slotAfter_inj h.2 (by omega) (by omega) he
    omega
  unfold RB.queue
  rw [occupied_push h hk hwr hrd, hrd, List.range_add, List.map_append, List.map_map]
  congr 1
  · exact List.map_congr_left fun k hk => hold k (List.mem_range.1 hk)
  · refine List.ext_getElem (by simp) fun j hj _ => ?_
    have hj' : j < xs.length := by simpa using hj
    simp [hslot, hin j hj', hj']

/-- A queue that is not empty is its slot at `RD` and the queue from the slot after it. -/
theorem RB.queue_eq_cons {p : RBParams} {r : RB} (h : RB.CursorsLegal p r) (hne : r.wr ≠ r.rd) :
    RB.queue p r = Memory.read r.store r.rd ::
      RB.queue p { r with rd := slotAfter p.capacity r.rd 1 } := by
  have hhead : slotAfter p.capacity r.rd 0 = r.rd := Nat.mod_eq_of_lt h.2
  unfold RB.queue
  rw [← occupied_pop h hne (r' := { r with rd := slotAfter p.capacity r.rd 1 }) rfl rfl, List.range_succ_eq_map,
    List.map_cons, List.map_map, hhead]
  simp only [slotAfter_slotAfter, Nat.add_comm 1]
  rfl

theorem RB.queue_of_cursors_eq (p : RBParams) {r : RB} (h : r.wr = r.rd) : RB.queue p r = [] := by
  simp [RB.queue, occupied, h]

/-! ## Items that fit -/

/-- An item of a well-formed push is stored whole (30_encoding R96). -/
theorem mod_width_of_itemFits {s : State} {b : Byte} {item : Elem} (hb : b.toNat < s.cfg.numRB)
    (h : s.cfg.itemFits b item = true) : item % 2 ^ (s.par b.toNat).width = item := by
  have hget : s.cfg.rb[b.toNat]? = some (s.par b.toNat) := by
    simp [State.par, List.getD_eq_getElem?_getD, List.getElem?_eq_getElem (show b.toNat < s.cfg.rb.length from hb)]
  simp only [Config.itemFits, hget, decide_eq_true_eq] at h
  exact Nat.mod_eq_of_lt h

theorem map_mod_width_of_wellFormed {s : State} {b : Byte} {items : List Elem} (hb : b.toNat < s.cfg.numRB)
    (h : (Instr.rbPushN b items).wellFormed s.cfg = true) (j : Nat) :
    (items[j]?).map (· % 2 ^ (s.par b.toNat).width) = items[j]? := by
  simp only [Instr.wellFormed, Bool.and_eq_true, List.all_eq_true] at h
  cases hj : items[j]? with
  | none => rfl
  | some item => exact congrArg some (mod_width_of_itemFits hb (h.2 item (List.mem_of_getElem? hj)))

/-! ## What the commands answer -/

theorem State.Inv.reply_setRb_rb {s : State} (hs : s.Inv) {b : Nat} (hb : b < s.cfg.numRB) (r : RB) (op : Byte)
    (inst : Option Byte) (x : Response) : ((s.setRb b r).reply op inst x).rb b = r :=
  State.setRb_rb_same s r (hs.2.1 ▸ hb)

/-- RB_PUSH with space (40_ring_buffer R112). -/
theorem exec_rbPush_stores {s : State} {b : Byte} (hs : s.Inv) (hm : s.MayIssue .rbPush b)
    (hf : isFull (s.par b.toNat).capacity (s.rb b.toNat) = false) (item : Elem) :
    exec (.rbPush b item) s = .next ((pushedState s b item).reply Opcode.rbPush.byte (some b) (.ok true)) := by
  simp only [exec, execRbPush, rbCheck_of_mayIssue hm, hf, storeWrite_some (hs.legal hm.1).1.1]
  rfl

/-- RB_PUSHN (40_ring_buffer R113): `k = min(n, space)` items from `WR` on, each cut to the width of its slot. -/
theorem exec_rbPushN_stores {s : State} {b : Byte} (hs : s.Inv) (hm : s.MayIssue .rbPushN b) (items : List Elem) {k : Nat}
    (hk : min items.length (freeSlots (s.par b.toNat).capacity (s.rb b.toNat)) = k) :
    ∃ r, exec (.rbPushN b items) s = .next ((s.setRb b.toNat r).reply Opcode.rbPushN.byte (some b) (.pushed k)) ∧
      r.wr = slotAfter (s.par b.toNat).capacity (s.rb b.toNat).wr k ∧ r.rd = (s.rb b.toNat).rd ∧
      (∀ j, j < k → Memory.read r.store (slotAfter (s.par b.toNat).capacity (s.rb b.toNat).wr j) =
        (items[j]?).map (· % 2 ^ (s.par b.toNat).width)) ∧
      (∀ j, (∀ l, l < k → j ≠ slotAfter (s.par b.toNat).capacity (s.rb b.toNat).wr l) →
        Memory.read r.store j = Memory.read (s.rb b.toNat).store j) := by
  obtain ⟨r1, r2, h1, h2, hrd, _, _, hin, hout⟩ := pushN_ranges hs hm.1 items hk rfl
  refine ⟨{ r2 with wr := slotAfter _ _ k }, ?_, rfl, hrd, hin, hout⟩
  simp only [exec, execRbPushN, rbCheck_of_mayIssue hm, hk, h1, h2]

/-- RB_PEEK of an element (40_ring_buffer R114). -/
theorem exec_rbPeek_head {s : State} {b : Byte} (hs : s.Inv) (hm : s.MayIssue .rbPeek b)
    (hne : (s.rb b.toNat).wr ≠ (s.rb b.toNat).rd) :
    exec (.rbPeek b) s = .next (s.reply Opcode.rbPeek.byte (some b)
      (.item true (Memory.read (s.rb b.toNat).store (s.rb b.toNat).rd))) := by
  simp [exec, execRbPeek, rbCheck_of_mayIssue hm, isEmpty_iff, hne, storeRead_some (hs.legal hm.1).1.2]

/-- RB_POP of an element (40_ring_buffer R115). -/
theorem exec_rbPop_head {s : State} {b : Byte} (hs : s.Inv) (hm : s.MayIssue .rbPop b)
    (hne : (s.rb b.toNat).wr ≠ (s.rb b.toNat).rd) :
    exec (.rbPop b) s = .next ((poppedState s b).reply Opcode.rbPop.byte (some b)
      (.item true (Memory.read (s.rb b.toNat).store (s.rb b.toNat).rd))) := by
  simp [exec, execRbPop, rbCheck_of_mayIssue hm, isEmpty_iff, hne, storeRead_some (hs.legal hm.1).1.2, poppedState]

/-- RB_SKIP of an element (40_ring_buffer R116). -/
theorem exec_rbSkip_head {s : State} {b : Byte} (hm : s.MayIssue .rbSkip b)
    (hne : (s.rb b.toNat).wr ≠ (s.rb b.toNat).rd) :
    exec (.rbSkip b) s = .next ((poppedState s b).reply Opcode.rbSkip.byte (some b) (.ok true)) := by
  simp [exec, execRbSkip, rbCheck_of_mayIssue hm, isEmpty_iff, hne, poppedState]

/-- RB_CLEAR (40_ring_buffer R117). -/
theorem exec_rbClear_clears {s : State} {b : Byte} (hm : s.MayIssue .rbClear b) :
    exec (.rbClear b) s = .next ((s.setRb b.toNat { s.rb b.toNat with rd := (s.rb b.toNat).wr }).reply
      Opcode.rbClear.byte (some b) .ack) := by
  simp only [exec, execRbClear, rbCheck_of_mayIssue hm]

/-! ## What the commands do to the queue -/

/-- RB_PUSH below `C - 1` elements appends its item. -/
theorem rbPush_queue {s : State} {b : Byte} {item : Elem} (hs : s.Inv) (hm : s.MayIssue .rbPush b)
    (hwf : (Instr.rbPush b item).wellFormed s.cfg = true)
    (hlt : (RB.queue (s.par b.toNat) (s.rb b.toNat)).length < (s.par b.toNat).capacity - 1) :
    ∃ t, exec (.rbPush b item) s = .next t ∧
      RB.queue (s.par b.toNat) (t.rb b.toNat) = RB.queue (s.par b.toNat) (s.rb b.toNat) ++ [some item] := by
  rw [RB.queue_length] at hlt
  have hcur := (hs.legal hm.1).1
  have hf : isFull (s.par b.toNat).capacity (s.rb b.toNat) = false :=
    Bool.eq_false_iff.2 fun hfull => hlt.ne (isFull_iff.1 hfull)
  have hspace : 1 ≤ freeSlots (s.par b.toNat).capacity (s.rb b.toNat) := Nat.sub_pos_of_lt hlt
  have hslot : slotAfter (s.par b.toNat).capacity (s.rb b.toNat).wr 0 = (s.rb b.toNat).wr := Nat.mod_eq_of_lt hcur.1
  refine ⟨_, exec_rbPush_stores hs hm hf item, ?_⟩
  rw [pushedState_eq_setRb, hs.reply_setRb_rb hm.1]
  refine RB.queue_push (xs := [item]) hcur hspace rfl rfl (fun j hj => ?_) fun j hj => ?_
  · obtain rfl : j = 0 := Nat.lt_one_iff.1 hj
    rw [hslot]
    exact (Memory.read_write_same _ _ _).trans (congrArg some (mod_width_of_itemFits hm.1 hwf))
  · exact Memory.read_write_other _ _ (hslot ▸ hj 0 Nat.one_pos)

/-- RB_PUSHN appends the items that fit. -/
theorem rbPushN_queue {s : State} {b : Byte} {items : List Elem} (hs : s.Inv) (hm : s.MayIssue .rbPushN b)
    (hwf : (Instr.rbPushN b items).wellFormed s.cfg = true) :
    ∃ t, exec (.rbPushN b items) s = .next t ∧
      RB.queue (s.par b.toNat) (t.rb b.toNat) = RB.queue (s.par b.toNat) (s.rb b.toNat) ++
        (items.take ((s.par b.toNat).capacity - 1 - (RB.queue (s.par b.toNat) (s.rb b.toNat)).length)).map some := by
  rw [RB.queue_length]
  change ∃ t, _ ∧ _ = _ ++ (items.take (freeSlots (s.par b.toNat).capacity (s.rb b.toNat))).map some
  have hlen : min items.length (freeSlots (s.par b.toNat).capacity (s.rb b.toNat)) =
      (items.take (freeSlots (s.par b.toNat).capacity (s.rb b.toNat))).length := by
    rw [List.length_take, Nat.min_comm]
  obtain ⟨r, hx, hwr, hrd, hin, hout⟩ := exec_rbPushN_stores hs hm items hlen
  refine ⟨_, hx, ?_⟩
  rw [hs.reply_setRb_rb hm.1]
  refine RB.queue_push (hs.legal hm.1).1 (List.length_take_le _ _) hrd hwr (fun j hj => ?_) hout
  rw [hin j hj, map_mod_width_of_wellFormed hm.1 hwf, List.getElem?_take_of_lt]
  exact hj.trans_le (List.length_take_le _ _)

/-- RB_POP and RB_SKIP of an element leave the queue from the slot after `RD`. -/
theorem poppedState_queue {s : State} {b : Byte} {x : Option Elem} {rest : List (Option Elem)} (hs : s.Inv)
    (hb : b.toNat < s.cfg.numRB) (hne : (s.rb b.toNat).wr ≠ (s.rb b.toNat).rd)
    (hq : RB.queue (s.par b.toNat) (s.rb b.toNat) = x :: rest) (op : Byte) (inst : Option Byte) (y : Response) :
    RB.queue (s.par b.toNat) (((poppedState s b).reply op inst y).rb b.toNat) = rest := by
  rw [poppedState, hs.reply_setRb_rb hb]
  exact (List.cons.inj ((RB.queue_eq_cons (hs.legal hb).1 hne).symm.trans hq)).2

/-- Settles O27: the pushes by `RB.queue_push`, the reads by the head and tail of `RB.queue_eq_cons`, RB_CLEAR by equal
cursors. -/
theorem ringBufferIsAQueue : Obligations.RingBufferIsAQueue := by
  unfold Obligations.RingBufferIsAQueue
  intro s b hs
  refine ⟨fun item hm hwf hlt => rbPush_queue hs hm hwf hlt, fun items hm hwf => rbPushN_queue hs hm hwf,
    fun x rest hq => ?_, fun hm => ?_⟩
  · have hne : (s.rb b.toNat).wr ≠ (s.rb b.toNat).rd := fun e => by
      rw [RB.queue_of_cursors_eq _ e] at hq
      cases hq
    have hhead : b.toNat < s.cfg.numRB → Memory.read (s.rb b.toNat).store (s.rb b.toNat).rd = x := fun hb =>
      (List.cons.inj ((RB.queue_eq_cons (hs.legal hb).1 hne).symm.trans hq)).1
    refine ⟨fun hm => ⟨_, exec_rbPeek_head hs hm hne, ?_, hq⟩, fun hm => ⟨_, exec_rbPop_head hs hm hne, ?_, ?_⟩,
      fun hm => ⟨_, exec_rbSkip_head hm hne, ?_⟩⟩
    · rw [← hhead hm.1]; rfl
    · rw [← hhead hm.1]; rfl
    · exact poppedState_queue hs hm.1 hne hq _ _ _
    · exact poppedState_queue hs hm.1 hne hq _ _ _
  · refine ⟨_, exec_rbClear_clears hm, ?_⟩
    rw [hs.reply_setRb_rb hm.1]
    exact RB.queue_of_cursors_eq _ rfl

end Sys2Proof.Machine
end

section
/-! PROOFS. Command frames (30_encoding R95, R96): of each format, exactly which operand bytes spell a command. The round
trip of commands and its converse both read these equivalences. -/

namespace Sys2Proof

/-! ## The formats with operands of a fixed width -/

theorem decodeF0_eq_instr {i i' : Instr} {bs : List Byte} : decodeF0 i bs = .instr i' ↔ bs = [] ∧ i' = i := by
  cases bs <;> simp [decodeF0, eq_comm]

theorem decodeFB_eq_instr {mk : Byte → Instr} {bs : List Byte} {i : Instr} :
    decodeFB mk bs = .instr i ↔ ∃ b, bs = [b] ∧ i = mk b := by
  constructor
  · intro h
    unfold decodeFB at h
    split at h
    · next b => cases h; exact ⟨b, rfl, rfl⟩
    · cases h
  · rintro ⟨b, rfl, rfl⟩
    rfl

theorem decodeFN_eq_instr {bs : List Byte} {i : Instr} :
    decodeFN bs = .instr i ↔ ∃ n, bs = enc .le n 2 ∧ i = .dpConfig n := by
  constructor
  · intro h
    unfold decodeFN at h
    split at h
    · cases h; exact ⟨_, (enc_dec_two _ _).symm, rfl⟩
    · cases h
  · rintro ⟨n, rfl, rfl⟩
    exact congrArg (fun v => Decoded.instr (.dpConfig v)) (dec_le_two n)

theorem decodeFCV_eq_instr {bs : List Byte} {i : Instr} :
    decodeFCV bs = .instr i ↔ ∃ ch v, bs = ch :: enc .le v 2 ∧ i = .dpAdd ch v := by
  constructor
  · intro h
    unfold decodeFCV at h
    split at h
    · cases h; exact ⟨_, _, congrArg _ (enc_dec_two _ _).symm, rfl⟩
    · cases h
  · rintro ⟨ch, v, rfl, rfl⟩
    exact congrArg (fun v => Decoded.instr (.dpAdd ch v)) (dec_le_two v)

theorem decodeFT_eq_instr {bs : List Byte} {i : Instr} :
    decodeFT bs = .instr i ↔ ∃ req ts, bs = req :: enc .le ts 4 ∧ i = .tpWrite req ts := by
  constructor
  · intro h
    unfold decodeFT at h
    split at h
    · cases h; exact ⟨_, _, congrArg _ (enc_dec_four _ _ _ _).symm, rfl⟩
    · cases h
  · rintro ⟨req, ts, rfl, rfl⟩
    exact congrArg (fun v => Decoded.instr (.tpWrite req v)) (dec_le_four ts)

theorem decodeFF_eq_instr {bs : List Byte} {i : Instr} :
    decodeFF bs = .instr i ↔ ∃ ts, bs = enc .le ts 4 ∧ i = .fstWrite ts := by
  constructor
  · intro h
    unfold decodeFF at h
    split at h
    · cases h; exact ⟨_, (enc_dec_four _ _ _ _).symm, rfl⟩
    · cases h
  · rintro ⟨ts, rfl, rfl⟩
    exact congrArg (fun v => Decoded.instr (.fstWrite v)) (dec_le_four ts)

theorem decodeFL_eq_instr {bs : List Byte} {i : Instr} :
    decodeFL bs = .instr i ↔ ∃ req ts fid fts,
      bs = req :: (enc .le ts 4 ++ enc .le fid 2 ++ enc .le fts 4) ∧ i = .lufWrite req ts fid fts := by
  constructor
  · intro h
    unfold decodeFL at h
    split at h
    · cases h
      refine ⟨_, _, _, _, ?_, rfl⟩
      rw [enc_dec_four, enc_dec_two, enc_dec_four]
      rfl
    · cases h
  · rintro ⟨req, ts, fid, fts, rfl, rfl⟩
    change Decoded.instr (.lufWrite req (dec .le 32 (enc .le ts 4)) (dec .le 16 (enc .le fid 2))
      (dec .le 32 (enc .le fts 4))) = _
    rw [dec_enc_four, dec_enc_two, dec_enc_four]

/-! ## The formats with items -/

theorem decodeFBI_eq_instr {c : Config} {bs : List Byte} {i : Instr} :
    decodeFBI c bs = .instr i ↔ ∃ b tail, bs = b :: tail ∧ tail.length = c.itemBytesIn b 1 tail.length ∧
      c.itemFits b (leVal tail) = true ∧ i = .rbPush b (leVal tail) := by
  constructor
  · intro h
    unfold decodeFBI at h
    split at h
    · next b tail =>
      split at h
      · next hok => cases h; exact ⟨b, tail, rfl, hok.1, hok.2, rfl⟩
      · cases h
    · cases h
  · rintro ⟨b, tail, rfl, hlen, hfit, rfl⟩
    exact if_pos ⟨hlen, hfit⟩

theorem decodeFBN_eq_instr {c : Config} {bs : List Byte} {i : Instr} :
    decodeFBN c bs = .instr i ↔ ∃ b n tail e, bs = b :: (leBytes 2 n ++ tail) ∧ n < 65536 ∧
      e = c.itemBytesIn b n tail.length ∧ tail.length = n * e ∧
      (splitItems e n tail).all (c.itemFits b) = true ∧ i = .rbPushN b (splitItems e n tail) := by
  constructor
  · intro h
    unfold decodeFBN at h
    split at h
    · next b n0 n1 tail =>
      dsimp only at h
      split at h
      · next hok =>
        cases h
        refine ⟨b, leVal [n0, n1], tail, _, ?_, by simpa using leVal_lt [n0, n1], rfl, hok.1, hok.2, rfl⟩
        rw [show leBytes 2 (leVal [n0, n1]) = [n0, n1] from leBytes_leVal [n0, n1]]
        rfl
      · cases h
    · cases h
  · rintro ⟨b, n, tail, e, rfl, hn, rfl, hlen, hfit, rfl⟩
    have hval : leVal [BitVec.ofNat 8 n, BitVec.ofNat 8 (n / 256)] = n := leVal_leBytes (k := 2) hn
    simp only [leBytes, List.cons_append, List.nil_append, decodeFBN, hval]
    exact if_pos ⟨hlen, hfit⟩

/-! ## The width of items -/

/-- Where the ring buffer exists, the decoder and the encoder take its `E_b`. -/
theorem itemBytesIn_eq_itemBytesOut {c : Config} {b : Byte} (hb : b.toNat < c.numRB) (n len : Nat) (items : List Elem) :
    c.itemBytesIn b n len = c.itemBytesOut b items := by
  simp only [Config.itemBytesIn, Config.itemBytesOut, List.getElem?_eq_getElem (show b.toNat < c.rb.length from hb)]

/-- From the length of encoded items the decoder reads the encoder's item width, also where the buffer does not exist
(log 9). -/
theorem itemBytesIn_mul_itemBytesOut (c : Config) (b : Byte) {n : Nat} (hn : 0 < n) (items : List Elem) :
    c.itemBytesIn b n (n * c.itemBytesOut b items) = c.itemBytesOut b items := by
  cases hb : c.rb[b.toNat]? with
  | some p => simp only [Config.itemBytesIn, Config.itemBytesOut, hb]
  | none =>
    have hdiv : c.itemBytesIn b n (n * c.itemBytesOut b items) = max 1 (n * c.itemBytesOut b items / n) := by
      simp only [Config.itemBytesIn, hb]
    rw [hdiv, Nat.mul_div_cancel_left _ hn, max_eq_right (itemBytesOut_pos_of_absent hb)]

/-! ## The round trip of commands -/

/-- Behind a listed opcode byte stand the operands of its row (30_encoding R95). -/
theorem decodeFrame_opcode (c : Config) (op : Opcode) (bs : List Byte) :
    decodeFrame c (op.byte :: bs) = decodeOperands c op bs := by
  simp only [decodeFrame, opcode?_byte]

theorem decodeFBI_encode {c : Config} {b : Byte} {item : Elem} (hfit : c.itemFits b item = true) :
    decodeFBI c (b :: leBytes (c.itemBytesOut b [item]) item) = .instr (.rbPush b item) := by
  have hval : leVal (leBytes (c.itemBytesOut b [item]) item) = item :=
    leVal_leBytes (itemBytesOut_holds List.mem_cons_self hfit)
  have hwidth := itemBytesIn_mul_itemBytesOut c b Nat.one_pos [item]
  rw [Nat.one_mul] at hwidth
  refine decodeFBI_eq_instr.2 ⟨b, _, rfl, ?_, ?_, ?_⟩
  · rw [leBytes_length, hwidth]
  · rwa [hval]
  · rw [hval]

theorem decodeFBN_encode {c : Config} {b : Byte} {items : List Elem} (hn : items.length < 65536)
    (hfit : items.all (c.itemFits b) = true) :
    decodeFBN c (b :: (leBytes 2 items.length ++ items.flatMap (leBytes (c.itemBytesOut b items)))) =
      .instr (.rbPushN b items) := by
  refine decodeFBN_eq_instr.2 ⟨b, items.length, _, _, rfl, hn, rfl, ?_⟩
  rw [flatMap_leBytes_length]
  rcases items.eq_nil_or_concat with rfl | hne
  · exact ⟨(Nat.zero_mul _).trans (Nat.zero_mul _).symm, rfl, rfl⟩
  · have hpos : 0 < items.length := by obtain ⟨_, _, rfl⟩ := hne; simp
    have hitems : splitItems (c.itemBytesOut b items) items.length (items.flatMap (leBytes (c.itemBytesOut b items))) =
        items :=
      splitItems_flatMap items fun x hx => itemBytesOut_holds hx (List.all_eq_true.1 hfit x hx)
    rw [itemBytesIn_mul_itemBytesOut c b hpos, hitems]
    exact ⟨rfl, hfit, rfl⟩

/-- Settles O2: each format's operand bytes are read back by the decoder of its format. -/
theorem commandFramesRoundTrip : Obligations.CommandFramesRoundTrip := by
  unfold Obligations.CommandFramesRoundTrip
  intro c i hc hwf
  cases i with
  | rbPush b item => exact (decodeFrame_opcode c .rbPush _).trans (decodeFBI_encode hwf)
  | rbPushN b items =>
    obtain ⟨hn, hfit⟩ := Bool.and_eq_true_iff.1 hwf
    exact (decodeFrame_opcode c .rbPushN _).trans (decodeFBN_encode (of_decide_eq_true hn) hfit)
  | rbCount b | rbSpace b | rbPeek b | rbPop b | rbSkip b | rbClear b =>
    exact (decodeFrame_opcode c _ [b]).trans (decodeFB_eq_instr.2 ⟨b, rfl, rfl⟩)
  | seqReset | dpReset | dpAdvance | dpWrite =>
    exact (decodeFrame_opcode c _ []).trans (decodeF0_eq_instr.2 ⟨rfl, rfl⟩)
  | dpConfig n => exact (decodeFrame_opcode c .dpConfig _).trans (decodeFN_eq_instr.2 ⟨n, rfl, rfl⟩)
  | dpAdd ch v => exact (decodeFrame_opcode c .dpAdd _).trans (decodeFCV_eq_instr.2 ⟨ch, v, rfl, rfl⟩)
  | tpWrite req ts => exact (decodeFrame_opcode c .tpWrite _).trans (decodeFT_eq_instr.2 ⟨req, ts, rfl, rfl⟩)
  | fstWrite ts => exact (decodeFrame_opcode c .fstWrite _).trans (decodeFF_eq_instr.2 ⟨ts, rfl, rfl⟩)
  | lufWrite req ts fid fts =>
    exact (decodeFrame_opcode c .lufWrite _).trans (decodeFL_eq_instr.2 ⟨req, ts, fid, fts, rfl, rfl⟩)
  | pktD | pktM | pktN | pktF | pktL => cases hc

end Sys2Proof
end

section
/-! PROOFS. Wire packets read by a receiver (30_encoding R80 to R88). -/

namespace Sys2Proof

/-- Behind a packet's header stands the payload of its tag (30_encoding R80, R81). -/
theorem decodePacket_header (c : Config) (ppp : Nat) (m n s : Byte) (t : Tag) (payload : List Byte) :
    decodePacket c ppp (headerBytes m n t s ++ payload) = decodePayload c ppp m n s t payload := by
  simp only [headerBytes, List.cons_append, List.nil_append, decodePacket, tag?_byte]

theorem decodePayload_d {c : Config} {samples : List Sample} (hlen : samples.length = c.ch) (ppp : Nat) (m n s : Byte) :
    decodePayload c ppp m n s .d (encSamples c.byteOrder samples) = some (.pktD m n s samples) := by
  simp only [decodePayload, encSamples_length, ← hlen, if_true, decodeSamples_encSamples]

theorem decodePayload_m {c : Config} {samples : List Sample} {ppp : Nat} (hlen : samples.length = ppp * c.ch)
    (h2 : 2 ≤ ppp) (hmax : ppp ≤ c.maxPoints) (m n s : Byte) :
    decodePayload c ppp m n s .m (encSamples c.byteOrder samples) = some (.pktM m n s samples) := by
  simp only [decodePayload, encSamples_length, ← hlen, h2, hmax, and_self, if_true, decodeSamples_encSamples]

theorem decodePayload_n (c : Config) (ppp : Nat) (m n s req : Byte) (ts : Stamp) :
    decodePayload c ppp m n s .n (req :: enc c.byteOrder ts 4) = some (.pktN m n s req ts) :=
  congrArg (fun v => some (Instr.pktN m n s req v)) (dec_enc_four c.byteOrder ts)

theorem decodePayload_f (c : Config) (ppp : Nat) (m n s : Byte) (ts : Stamp) :
    decodePayload c ppp m n s .f (enc c.byteOrder ts 4) = some (.pktF m n s ts) :=
  congrArg (fun v => some (Instr.pktF m n s v)) (dec_enc_four c.byteOrder ts)

theorem decodePayload_l (c : Config) (ppp : Nat) (m n s req : Byte) (ts : Stamp) (fid : Half) (fts : Stamp) :
    decodePayload c ppp m n s .l (req :: (enc c.byteOrder ts 4 ++ enc c.byteOrder fid 2 ++ enc c.byteOrder fts 4)) =
      some (.pktL m n s req ts fid fts) := by
  change some (Instr.pktL m n s req (dec c.byteOrder 32 (enc c.byteOrder ts 4))
    (dec c.byteOrder 16 (enc c.byteOrder fid 2)) (dec c.byteOrder 32 (enc c.byteOrder fts 4))) = _
  rw [dec_enc_four, dec_enc_two, dec_enc_four]

/-- Settles O3: each tag's payload is read back behind the header that carries the tag. -/
theorem wirePacketsRoundTrip : Obligations.WirePacketsRoundTrip := by
  unfold Obligations.WirePacketsRoundTrip
  intro c i ppp _ hc hwf hppp
  cases i with
  | pktD m n s samples =>
    exact (decodePacket_header c ppp m n s .d _).trans (decodePayload_d (of_decide_eq_true hwf) ppp m n s)
  | pktM m n s samples =>
    simp only [Instr.wellFormed, Bool.and_eq_true, decide_eq_true_eq, ← hppp m n s samples rfl] at hwf
    obtain ⟨⟨hlen, h2⟩, hmax⟩ := hwf
    exact (decodePacket_header c ppp m n s .m _).trans (decodePayload_m hlen h2 hmax m n s)
  | pktN m n s req ts => exact (decodePacket_header c ppp m n s .n _).trans (decodePayload_n c ppp m n s req ts)
  | pktF m n s ts => exact (decodePacket_header c ppp m n s .f _).trans (decodePayload_f c ppp m n s ts)
  | pktL m n s req ts fid fts =>
    exact (decodePacket_header c ppp m n s .l _).trans (decodePayload_l c ppp m n s req ts fid fts)
  | rbPush | rbPushN | rbCount | rbSpace | rbPeek | rbPop | rbSkip | rbClear | seqReset | dpConfig | dpReset | dpAdd
  | dpAdvance | dpWrite | tpWrite | fstWrite | lufWrite => cases hc

end Sys2Proof
end

section
/-! PROOFS. Which frames spell a command (30_encoding R96), what the other frames do at the port (R96, R98), and that the
step runs what its request spells (R94). -/

namespace Sys2Proof.Machine

/-! ## From the frame to the command -/

/-- What it says of a command `i` that the operand bytes `bs` of opcode `op` spell it. -/
structure SpelledBy (c : Config) (op : Opcode) (bs : List Byte) (i : Instr) : Prop where
  opcode : i.opcode = some op
  wellFormed : i.wellFormed c = true
  instanceNo : ∀ b, i.instanceNo = some b → bs.head? = some b
  encode : Instr.pushesToExisting c i → encode c i = op.byte :: bs

theorem spelledBy_of_decodeFBI {c : Config} {bs : List Byte} {i : Instr} (h : decodeFBI c bs = .instr i) :
    SpelledBy c .rbPush bs i := by
  obtain ⟨b, tail, rfl, hlen, hfit, rfl⟩ := decodeFBI_eq_instr.1 h
  refine ⟨rfl, hfit, fun _ hb => hb, fun hex => ?_⟩
  rw [itemBytesIn_eq_itemBytesOut hex 1 tail.length [leVal tail]] at hlen
  rw [encode, ← hlen, leBytes_leVal]

theorem spelledBy_of_decodeFBN {c : Config} {bs : List Byte} {i : Instr} (h : decodeFBN c bs = .instr i) :
    SpelledBy c .rbPushN bs i := by
  obtain ⟨b, n, tail, e, rfl, hn, he, hlen, hfit, rfl⟩ := decodeFBN_eq_instr.1 h
  have hcount : (splitItems e n tail).length = n := splitItems_length e n tail
  refine ⟨rfl, ?_, fun _ hb => hb, fun hex => ?_⟩
  · exact Bool.and_eq_true_iff.2 ⟨decide_eq_true (hcount.symm ▸ hn), hfit⟩
  · rw [encode, hcount, ← itemBytesIn_eq_itemBytesOut hex n tail.length, ← he, flatMap_splitItems hlen]

/-- Operand bytes that spell a command spell one of their opcode, well-formed, on the buffer the first byte names, and
are its encoding (30_encoding R95, R96). -/
theorem spelledBy_of_decodeOperands {c : Config} {op : Opcode} {bs : List Byte} {i : Instr}
    (h : decodeOperands c op bs = .instr i) : SpelledBy c op bs i := by
  cases op with
  | rbPush => exact spelledBy_of_decodeFBI h
  | rbPushN => exact spelledBy_of_decodeFBN h
  | rbCount | rbSpace | rbPeek | rbPop | rbSkip | rbClear =>
    obtain ⟨b, rfl, rfl⟩ := decodeFB_eq_instr.1 h
    exact ⟨rfl, rfl, fun _ hb => hb, fun _ => rfl⟩
  | seqReset | dpReset | dpAdvance | dpWrite =>
    obtain ⟨rfl, rfl⟩ := decodeF0_eq_instr.1 h
    exact ⟨rfl, rfl, nofun, fun _ => rfl⟩
  | dpConfig =>
    obtain ⟨n, rfl, rfl⟩ := decodeFN_eq_instr.1 h
    exact ⟨rfl, rfl, nofun, fun _ => rfl⟩
  | dpAdd =>
    obtain ⟨ch, v, rfl, rfl⟩ := decodeFCV_eq_instr.1 h
    exact ⟨rfl, rfl, nofun, fun _ => rfl⟩
  | tpWrite =>
    obtain ⟨req, ts, rfl, rfl⟩ := decodeFT_eq_instr.1 h
    exact ⟨rfl, rfl, nofun, fun _ => rfl⟩
  | fstWrite =>
    obtain ⟨ts, rfl, rfl⟩ := decodeFF_eq_instr.1 h
    exact ⟨rfl, rfl, nofun, fun _ => rfl⟩
  | lufWrite =>
    obtain ⟨req, ts, fid, fts, rfl, rfl⟩ := decodeFL_eq_instr.1 h
    exact ⟨rfl, rfl, nofun, fun _ => rfl⟩

/-- A frame spells a command only by a listed opcode byte and operand bytes behind it. -/
theorem decodeFrame_eq_instr {c : Config} {frame : List Byte} {i : Instr} (h : decodeFrame c frame = .instr i) :
    ∃ op bs, frame = op.byte :: bs ∧ SpelledBy c op bs i := by
  unfold decodeFrame at h
  split at h
  · cases h
  · next x bs =>
    split at h
    · cases h
    · next op hop => exact ⟨op, bs, opcode?_some hop ▸ rfl, spelledBy_of_decodeOperands h⟩

/-- Every encoding has its shape: the statement of `Sys2Proof.Laws.EncodeShape` for every instruction. -/
theorem encodeShape (i : Instr) : Laws.EncodeShape.Statement i :=
  match i with
  | .rbPush b item => Laws.EncodeShape.rbPush b item
  | .rbPushN b items => Laws.EncodeShape.rbPushN b items
  | .rbCount b => Laws.EncodeShape.rbCount b
  | .rbSpace b => Laws.EncodeShape.rbSpace b
  | .rbPeek b => Laws.EncodeShape.rbPeek b
  | .rbPop b => Laws.EncodeShape.rbPop b
  | .rbSkip b => Laws.EncodeShape.rbSkip b
  | .rbClear b => Laws.EncodeShape.rbClear b
  | .seqReset => Laws.EncodeShape.seqReset
  | .dpConfig n => Laws.EncodeShape.dpConfig n
  | .dpReset => Laws.EncodeShape.dpReset
  | .dpAdd ch value => Laws.EncodeShape.dpAdd ch value
  | .dpAdvance => Laws.EncodeShape.dpAdvance
  | .dpWrite => Laws.EncodeShape.dpWrite
  | .tpWrite req ts => Laws.EncodeShape.tpWrite req ts
  | .fstWrite ts => Laws.EncodeShape.fstWrite ts
  | .lufWrite req ts frameId frameTs => Laws.EncodeShape.lufWrite req ts frameId frameTs
  | .pktD m n s samples => Laws.EncodeShape.pktD m n s samples
  | .pktM m n s samples => Laws.EncodeShape.pktM m n s samples
  | .pktN m n s req ts => Laws.EncodeShape.pktN m n s req ts
  | .pktF m n s ts => Laws.EncodeShape.pktF m n s ts
  | .pktL m n s req ts frameId frameTs => Laws.EncodeShape.pktL m n s req ts frameId frameTs

theorem encode_length (c : Config) (i : Instr) : (encode c i).length = frameLength c i := (encodeShape i c).1

/-- Settles O4: what a decoded frame's operand bytes spell, and the length of an encoding. -/
theorem decodedFramesAreEncodings : Obligations.DecodedFramesAreEncodings := by
  unfold Obligations.DecodedFramesAreEncodings
  intro c frame i h
  obtain ⟨op, bs, rfl, hi⟩ := decodeFrame_eq_instr h
  refine ⟨congrArg Option.isSome hi.opcode, hi.wellFormed, fun hex => ⟨hi.encode hex, ?_⟩⟩
  rw [← hi.encode hex, encode_length]

/-! ## Frames that spell no command -/

/-- Behind a listed opcode byte nothing is a reserved opcode. -/
theorem decodeOperands_ne_reserved (c : Config) (op : Opcode) (bs : List Byte) (x : Byte) :
    decodeOperands c op bs ≠ .reserved x := by
  intro h
  cases op with
  | rbPush =>
    simp only [decodeOperands, decodeFBI] at h
    split at h
    · split at h <;> cases h
    · cases h
  | rbPushN =>
    simp only [decodeOperands, decodeFBN] at h
    split at h
    · split at h <;> cases h
    · cases h
  | rbCount | rbSpace | rbPeek | rbPop | rbSkip | rbClear | seqReset | dpReset | dpAdvance | dpWrite | dpConfig | dpAdd
  | tpWrite | fstWrite | lufWrite =>
    simp only [decodeOperands, decodeFB, decodeF0, decodeFN, decodeFCV, decodeFT, decodeFF, decodeFL] at h
    split at h <;> cases h

/-- Of a command spelled by its operands, only a push needs that its ring buffer exists (log 9). -/
theorem SpelledBy.pushesToExisting {c : Config} {op : Opcode} {bs : List Byte} {i : Instr} (h : SpelledBy c op bs i)
    (hex : op = .rbPush ∨ op = .rbPushN → ∀ b, bs.head? = some b → b.toNat < c.numRB) : Instr.pushesToExisting c i := by
  have hop := h.opcode
  cases i with
  | rbPush b item => cases hop; exact hex (.inl rfl) b (h.instanceNo b rfl)
  | rbPushN b items => cases hop; exact hex (.inr rfl) b (h.instanceNo b rfl)
  | _ => exact trivial

theorem stepFrame_illFormed {s : State} {frame : List Byte} (hd : decodeFrame s.cfg frame = .illFormed) :
    stepFrame frame s = .refused .illFormedFrame := by
  simp only [stepFrame, hd]

/-- Settles O5: the operands spell no command, whose encoding the frame would be, and no reserved opcode. -/
theorem illFormedFramesAreRefused : Obligations.IllFormedFramesAreRefused := by
  unfold Obligations.IllFormedFramesAreRefused
  intro s ctx x rest q op hw hp hc hx hex hnone
  subst hx
  rw [step_command hw hp hc]
  refine stepFrame_illFormed ((decodeFrame_opcode s.cfg op rest).trans ?_)
  cases hd : decodeOperands s.cfg op rest with
  | instr i =>
    have hi := spelledBy_of_decodeOperands hd
    exact absurd (hi.encode (hi.pushesToExisting hex)) (hnone i (congrArg Option.isSome hi.opcode) hi.wellFormed)
  | reserved y => exact absurd hd (decodeOperands_ne_reserved s.cfg op rest y)
  | illFormed => rfl

/-! ## Reserved opcodes -/

theorem opcode?_eq_none_iff {x : Byte} : opcode? x = none ↔ ∀ op : Opcode, op.byte ≠ x := by
  constructor
  · rintro h op rfl
    cases (opcode?_byte op).symm.trans h
  · intro h
    cases hop : opcode? x with
    | none => rfl
    | some op => exact absurd (opcode?_some hop) (h op)

/-- Settles O6: no listed opcode has such a byte, and a reserved opcode only records its fault and answers without a
value. -/
theorem reservedOpcodesRecordIllegalCommand : Obligations.ReservedOpcodesRecordIllegalCommand := by
  unfold Obligations.ReservedOpcodesRecordIllegalCommand
  intro s ctx x rest q hw hp hc hx
  have hnone : opcode? x = none := opcode?_eq_none_iff.2 fun op hop => by
    subst hop
    cases op <;> simp [Opcode.byte] at hx
  have hd : decodeFrame s.cfg (x :: rest) = .reserved x := by simp only [decodeFrame, hnone]
  refine ⟨State.illegalCommand { s with port := q, ctx := ctx } x, ?_, fun f => ?_, rfl, ?_⟩
  · rw [step_command hw hp hc]
    exact stepFrame_reserved hd
  · exact State.mem_raise_faults { s with port := q, ctx := ctx } _ _ _ f
  · exact ⟨⟨rfl, ⟨rfl, rfl, rfl, rfl⟩, rfl, rfl⟩, ⟨rfl, rfl, rfl, rfl⟩, rfl, rfl, rfl, rfl, rfl⟩

/-! ## The step runs what the request spells -/

/-- Settles O7: the port's command branch, then the decoder's answer. -/
theorem stepRunsTheDecodedCommand : Obligations.StepRunsTheDecodedCommand := by
  unfold Obligations.StepRunsTheDecodedCommand
  intro s ctx frame q i hw hp hc hd
  exact (step_command hw hp hc).trans (stepFrame_instr hd)

/-- Settles O8: the port's packet branch, then the decoder's answer. -/
theorem stepRunsTheDecodedPacket : Obligations.StepRunsTheDecodedPacket := by
  unfold Obligations.StepRunsTheDecodedPacket
  intro s ppp bytes q i hw hp hd
  exact (step_packet hw hp).trans (stepPacket_some hd)

/-- Settles O1: the decoder evaluates on each written-out word, whatever the magic bytes and the byte order. -/
theorem writtenOutWordsDecode : Obligations.WrittenOutWordsDecode := by
  unfold Obligations.WrittenOutWordsDecode
  intro m0 m1 o
  exact ⟨rfl, rfl, rfl, rfl, rfl, rfl, rfl, rfl⟩

end Sys2Proof.Machine
end

section
/-! PROOFS. In a legal state every instruction completes, and the machine stops only at the port (30_encoding R94, R96,
60_exceptions R213). -/

namespace Sys2Proof.Machine

/-! ## Every instruction completes -/

/-- With legal cursors a ring-buffer command accesses only slots that exist (20_memory R50). -/
theorem ringEffect_completes {i : Instr} {b : Byte} (hb : i.instanceNo = some b) {p : RBParams} {r : RB}
    (h : RB.CursorsLegal p r) : ∃ rx, ringEffect i p r = some rx := by
  obtain ⟨hwr, hrd⟩ := h
  cases i with
  | rbPush b' item =>
    simp only [ringEffect, storeWrite_some hwr, Option.map_some]
    split <;> exact ⟨_, rfl⟩
  | rbPushN b' items =>
    have hspace : freeSlots p.capacity r ≤ p.capacity := (Nat.sub_le _ _).trans (Nat.sub_le _ _)
    simp only [ringEffect]
    generalize hk : min items.length (freeSlots p.capacity r) = k
    generalize hk1 : min k (p.capacity - r.wr) = k1
    obtain ⟨r1, h1, _⟩ := storeRange_spec (p := p) (items.take k1) (r := r) (i := r.wr)
      (by rw [List.length_take]; omega)
    obtain ⟨r2, h2, _⟩ := storeRange_spec (p := p) ((items.take k).drop k1) (r := r1) (i := 0)
      (by rw [List.length_drop, List.length_take]; omega)
    simp only [h1, h2, Option.bind_some, Option.map_some]
    exact ⟨_, rfl⟩
  | rbPeek b' | rbPop b' =>
    simp only [ringEffect, storeRead_some hrd, Option.map_some]
    split <;> exact ⟨_, rfl⟩
  | rbSkip b' =>
    simp only [ringEffect]
    split <;> exact ⟨_, rfl⟩
  | rbCount b' | rbSpace b' | rbClear b' => exact ⟨_, rfl⟩
  | seqReset | dpConfig | dpReset | dpAdd | dpAdvance | dpWrite | tpWrite | fstWrite | lufWrite
  | pktD | pktM | pktN | pktF | pktL => cases hb

theorem ring_completes {s : State} {i : Instr} {b : Byte} (hs : s.Inv) (hb : i.instanceNo = some b) :
    ∃ t, exec i s = .next t := by
  obtain ⟨op, heq⟩ := exec_ring_eq hb
  rw [heq, ringCommand]
  cases hk : s.rbCheck op b with
  | some ki => exact ⟨_, rfl⟩
  | none =>
    obtain ⟨rx, hrx⟩ := ringEffect_completes hb (hs.legal (rbCheck_eq_none_iff.1 hk).1).1
    simp only [hrx]
    exact ⟨_, rfl⟩

/-- DP_ADD below the limit stores in a cell that exists, since `DP.PPP` is at most `MAX_POINTS` (42_data_packet R162). -/
theorem dpAdd_completes {s : State} (hs : s.Inv) (ch : Byte) (v : Sample) : ∃ t, exec (.dpAdd ch v) s = .next t := by
  obtain ⟨⟨_, hppp⟩, _⟩ := hs.dpLegal
  simp only [exec, execDpAdd]
  split
  · exact ⟨_, rfl⟩
  · next hch =>
    split
    · exact ⟨_, rfl⟩
    · next hidx =>
      have hcell : Config.hasCell s.cfg s.dpIDX ch.toNat = true := by
        simp only [Config.hasCell, Bool.and_eq_true, decide_eq_true_eq]
        omega
      simp only [State.dpStore, hcell, if_true]
      exact ⟨_, rfl⟩

theorem packetWrite_completes {s : State} {i : Instr} (hs : s.Inv) (hw : i.isPacketWrite = true) :
    ∃ t, exec i s = .next t := by
  cases i with
  | dpWrite =>
    obtain ⟨⟨_, hppp⟩, _⟩ := hs.dpLegal
    simp only [exec, execDpWrite, if_neg (Nat.not_lt.2 hppp)]
    exact ⟨_, rfl⟩
  | tpWrite | fstWrite | lufWrite => exact ⟨_, rfl⟩
  | rbPush | rbPushN | rbCount | rbSpace | rbPeek | rbPop | rbSkip | rbClear | seqReset | dpConfig | dpReset | dpAdd
  | dpAdvance | pktD | pktM | pktN | pktF | pktL => cases hw

/-- Every instruction completes in a legal state (60_exceptions R213). -/
theorem exec_completes {s : State} (hs : s.Inv) (i : Instr) : ∃ t, exec i s = .next t := by
  cases rowFamily i with
  | ring b hb => exact ring_completes hs hb
  | packetWrite hw => exact packetWrite_completes hs hw
  | seqReset hi => subst hi; exact ⟨_, rfl⟩
  | dpConfig n hi =>
    subst hi
    simp only [exec, execDpConfig]
    split <;> exact ⟨_, rfl⟩
  | dpReset hi => subst hi; exact ⟨_, rfl⟩
  | dpAdd ch v hi => exact hi ▸ dpAdd_completes hs ch v
  | dpAdvance hi =>
    subst hi
    simp only [exec, execDpAdvance]
    split <;> exact ⟨_, rfl⟩
  | wire hc =>
    obtain ⟨m, n, q, hr⟩ := exec_wire_eq hc
    exact ⟨_, hr s⟩

/-! ## What a step from a legal state can be -/

theorem step_notAContext {s : State} {ctx : Ctx} {q : List Request} (hw : s.cfg.WF) (hc : ctx ∉ s.cfg.ctxs)
    (hp : (∃ frame, s.port = .command ctx frame :: q) ∨ ∃ b, s.port = .useData ctx b :: q) :
    step s = .refused .notAContext := by
  obtain ⟨frame, hp⟩ | ⟨b, hp⟩ := hp <;> simp only [step, if_pos hw, hp, if_neg hc]

/-- A step from a legal state answers a next state, or refuses an ill-formed frame, or refuses a context outside `CTX`. -/
inductive LegalStep (s : State) : Prop
  | next (t : State) (h : step s = .next t)
  | illFormed (ctx : Ctx) (frame : List Byte) (q : List Request) (hp : s.port = .command ctx frame :: q)
      (hd : decodeFrame s.cfg frame = .illFormed) (h : step s = .refused .illFormedFrame)
  | notAContext (ctx : Ctx) (q : List Request) (hc : ctx ∉ s.cfg.ctxs)
      (hp : (∃ frame, s.port = .command ctx frame :: q) ∨ ∃ b, s.port = .useData ctx b :: q)
      (h : step s = .refused .notAContext)

theorem legalStep_of_command {s : State} {ctx : Ctx} {frame : List Byte} {q : List Request} (hs : s.Inv)
    (hp : s.port = .command ctx frame :: q) : LegalStep s := by
  by_cases hc : ctx ∈ s.cfg.ctxs
  · have hstep := step_command hs.1 hp hc
    cases hd : decodeFrame s.cfg frame with
    | instr i =>
      obtain ⟨t, ht⟩ := exec_completes (s := { s with port := q, ctx := ctx }) hs i
      exact .next t ((hstep.trans (stepFrame_instr hd)).trans ht)
    | reserved op => exact .next _ (hstep.trans (stepFrame_reserved hd))
    | illFormed => exact .illFormed ctx frame q hp hd (hstep.trans (stepFrame_illFormed hd))
  · exact .notAContext ctx q hc (.inl ⟨frame, hp⟩) (step_notAContext hs.1 hc (.inl ⟨frame, hp⟩))

theorem legalStep_of_packet {s : State} {ppp : Nat} {bytes : List Byte} {q : List Request} (hs : s.Inv)
    (hp : s.port = .packet ppp bytes :: q) : LegalStep s := by
  have hstep := step_packet hs.1 hp
  cases hd : decodePacket s.cfg ppp bytes with
  | some i =>
    obtain ⟨t, ht⟩ := exec_completes (s := { s with port := q }) hs i
    exact .next t ((hstep.trans (stepPacket_some hd)).trans ht)
  | none => exact .next _ (hstep.trans (stepPacket_none hd))

theorem legalStep {s : State} (hs : s.Inv) : LegalStep s := by
  cases hp : s.port with
  | nil => exact .next s (by simp only [step, if_pos hs.1, hp])
  | cons r q =>
    cases r with
    | command ctx frame => exact legalStep_of_command hs hp
    | reset => exact .next _ (step_reset hs.1 hp)
    | useData ctx b =>
      by_cases hc : ctx ∈ s.cfg.ctxs
      · exact .next _ (step_useData hs.1 hp hc)
      · exact .notAContext ctx q hc (.inr ⟨b, hp⟩) (step_notAContext hs.1 hc (.inr ⟨b, hp⟩))
    | packet ppp bytes => exact legalStep_of_packet hs hp

/-- Settles O14: each of the three ways of a step from a legal state. -/
theorem legalStatesStopOnlyAtThePort : Obligations.LegalStatesStopOnlyAtThePort := by
  unfold Obligations.LegalStatesStopOnlyAtThePort
  intro s hs
  cases legalStep hs with
  | next t h => exact ⟨fun f hf => (by cases h.symm.trans hf), fun r hr => (by cases h.symm.trans hr)⟩
  | illFormed ctx frame q hp hd h =>
    refine ⟨fun f hf => (by cases h.symm.trans hf), fun r hr => .inl ⟨?_, ctx, frame, q, hp, hd⟩⟩
    exact (Host.Outcome.refused.inj (h.symm.trans hr)).symm
  | notAContext ctx q hc hp h =>
    refine ⟨fun f hf => (by cases h.symm.trans hf), fun r hr => .inr ⟨?_, ctx, q, hc, hp⟩⟩
    exact (Host.Outcome.refused.inj (h.symm.trans hr)).symm

end Sys2Proof.Machine
end

section
/-! PROOFS. The response of each command (30_encoding R97). -/

namespace Sys2Proof.Machine

/-- One response to the command under opcode `op`: of the form `Form`, or without a value. -/
def Answers (s t : State) (op : Opcode) (inst : Option Byte) (Form : Response → Prop) : Prop :=
  ∃ r, Replied s t op inst r ∧ (r = .noValue ∨ Form r)

/-- A stopped command is answered without a value (40_ring_buffer R109). -/
theorem Answers.of_stop {s t : State} {op : Opcode} {inst : Option Byte} {Form : Response → Prop} {k : FaultKind}
    {info : FaultInfo} (ht : t = s.stop k op.byte inst info) : Answers s t op inst Form :=
  ⟨.noValue, ht ▸ rfl, .inl rfl⟩

/-- A command is answered by its one reply, given in a state `u` with the responses and the context of `s`. -/
theorem Answers.of_reply {s t u : State} {op : Opcode} {inst : Option Byte} {Form : Response → Prop} {r : Response}
    (ht : t = u.reply op.byte inst r) (hreplies : u.replies = s.replies) (hctx : u.ctx = s.ctx) (hr : Form r) :
    Answers s t op inst Form :=
  ⟨r, by rw [ht, Replied, State.reply_replies, hreplies, hctx], .inr hr⟩

/-- The slot at `RD` of a legal ring buffer that is not empty holds a value (10_state R28). -/
theorem RB.Legal.oldest_isSome {p : RBParams} {r : RB} (h : RB.Legal p r) (hne : r.wr ≠ r.rd) :
    (Memory.read r.store r.rd).isSome = true := by
  obtain ⟨hcur, _, _, hocc⟩ := h
  have hhead : slotAfter p.capacity r.rd 0 = r.rd := Nat.mod_eq_of_lt hcur.2
  have hpos : 0 < occupied p.capacity r := Nat.pos_of_ne_zero fun h0 => hne ((occupied_eq_zero hcur).1 h0)
  exact hhead ▸ hocc 0 hpos

/-- The form of a read's response: a pair with `ok = 1`, which from a legal state carries a value, or with `ok = 0`. -/
abbrev ReadForm (s : State) (r : Response) : Prop :=
  (∃ v, r = .item true v ∧ (s.Inv → v.isSome = true)) ∨ r = .item false none

theorem readForm_oldest {s : State} {op : Opcode} {b : Byte} (hm : s.MayIssue op b)
    (hne : (s.rb b.toNat).wr ≠ (s.rb b.toNat).rd) :
    ReadForm s (.item true (Memory.read (s.rb b.toNat).store (s.rb b.toNat).rd)) :=
  .inl ⟨_, rfl, fun hs => (hs.legal hm.1).oldest_isSome hne⟩

/-! ## The ring-buffer commands -/

theorem rbCount_answers {s t : State} {b : Byte} (h : exec (.rbCount b) s = .next t) :
    Answers s t .rbCount (some b) fun r => ∃ n, r = .count n := by
  obtain ⟨k, info, _, ht⟩ | ⟨_, ht⟩ := exec_rbCount_cases h
  · exact .of_stop ht
  · exact .of_reply ht rfl rfl ⟨_, rfl⟩

theorem rbSpace_answers {s t : State} {b : Byte} (h : exec (.rbSpace b) s = .next t) :
    Answers s t .rbSpace (some b) fun r => ∃ n, r = .count n := by
  obtain ⟨k, info, _, ht⟩ | ⟨_, ht⟩ := exec_rbSpace_cases h
  · exact .of_stop ht
  · exact .of_reply ht rfl rfl ⟨_, rfl⟩

theorem rbPush_answers {s t : State} {b : Byte} {item : Elem} (h : exec (.rbPush b item) s = .next t) :
    Answers s t .rbPush (some b) fun r => ∃ ok, r = .ok ok := by
  obtain ⟨k, info, _, ht⟩ | ⟨_, _, ht⟩ | ⟨_, _, _, ht⟩ := exec_rbPush_cases h
  · exact .of_stop ht
  · exact .of_reply ht rfl rfl ⟨_, rfl⟩
  · exact .of_reply ht rfl rfl ⟨_, rfl⟩

theorem rbPushN_answers {s t : State} {b : Byte} {items : List Elem} (h : exec (.rbPushN b items) s = .next t) :
    Answers s t .rbPushN (some b) fun r => ∃ k, r = .pushed k := by
  obtain ⟨k, info, _, ht⟩ | ⟨_, r1, r2, k, k1, _, _, _, _, ht⟩ := exec_rbPushN_cases h
  · exact .of_stop ht
  · exact .of_reply ht rfl rfl ⟨_, rfl⟩

theorem rbPeek_answers {s t : State} {b : Byte} (h : exec (.rbPeek b) s = .next t) :
    Answers s t .rbPeek (some b) (ReadForm s) := by
  obtain ⟨k, info, _, ht⟩ | ⟨_, _, ht⟩ | ⟨hm, hne, _, ht⟩ := exec_rbPeek_cases h
  · exact .of_stop ht
  · exact .of_reply ht rfl rfl (.inr rfl)
  · exact .of_reply ht rfl rfl (readForm_oldest hm hne)

theorem rbPop_answers {s t : State} {b : Byte} (h : exec (.rbPop b) s = .next t) :
    Answers s t .rbPop (some b) (ReadForm s) := by
  obtain ⟨k, info, _, ht⟩ | ⟨_, _, ht⟩ | ⟨hm, hne, _, ht⟩ := exec_rbPop_cases h
  · exact .of_stop ht
  · exact .of_reply ht rfl rfl (.inr rfl)
  · exact .of_reply ht rfl rfl (readForm_oldest hm hne)

theorem rbSkip_answers {s t : State} {b : Byte} (h : exec (.rbSkip b) s = .next t) :
    Answers s t .rbSkip (some b) fun r => ∃ ok, r = .ok ok := by
  obtain ⟨k, info, _, ht⟩ | ⟨_, _, ht⟩ | ⟨_, _, ht⟩ := exec_rbSkip_cases h
  · exact .of_stop ht
  · exact .of_reply ht rfl rfl ⟨_, rfl⟩
  · exact .of_reply ht rfl rfl ⟨_, rfl⟩

theorem rbClear_answers {s t : State} {b : Byte} (h : exec (.rbClear b) s = .next t) :
    Answers s t .rbClear (some b) (· = .ack) := by
  obtain ⟨k, info, _, ht⟩ | ⟨_, ht⟩ := exec_rbClear_cases h
  · exact .of_stop ht
  · exact .of_reply ht rfl rfl rfl

/-! ## The other commands -/

theorem seqReset_answers {s t : State} (h : exec .seqReset s = .next t) : Answers s t .seqReset none (· = .ack) :=
  .of_reply (Host.Outcome.next.inj h).symm rfl rfl rfl

theorem dpConfig_answers {s t : State} {n : Half} (h : exec (.dpConfig n) s = .next t) :
    Answers s t .dpConfig none (· = .ack) := by
  obtain ⟨_, ht⟩ | ⟨_, _, ht⟩ := exec_dpConfig_cases h
  · exact .of_stop ht
  · exact .of_reply ht rfl rfl rfl

theorem dpReset_answers {s t : State} (h : exec .dpReset s = .next t) : Answers s t .dpReset none (· = .ack) :=
  .of_reply (Host.Outcome.next.inj h).symm rfl rfl rfl

theorem dpAdd_answers {s t : State} {ch : Byte} {v : Sample} (h : exec (.dpAdd ch v) s = .next t) :
    Answers s t .dpAdd none fun r => ∃ ok, r = .ok ok := by
  obtain ⟨_, ht⟩ | ⟨_, _, ht⟩ | ⟨_, _, _, ht⟩ := exec_dpAdd_cases h
  · exact .of_stop ht
  · exact .of_reply ht rfl rfl ⟨_, rfl⟩
  · exact .of_reply ht rfl rfl ⟨_, rfl⟩

theorem dpAdvance_answers {s t : State} (h : exec .dpAdvance s = .next t) :
    Answers s t .dpAdvance none (· = .ack) := by
  obtain ⟨_, ht⟩ | ⟨_, ht⟩ := exec_dpAdvance_cases h
  · exact .of_stop ht
  · exact .of_reply ht rfl rfl rfl

theorem packetWrite_answers {s t : State} {i : Instr} {op : Opcode} (hw : i.isPacketWrite = true)
    (hop : i.opcode = some op) (h : exec i s = .next t) : Answers s t op none fun r => ∃ n, r = .total n := by
  obtain ⟨op', bs, hop', hp⟩ := exec_packetWrite hw h
  cases hop.symm.trans hop'
  exact ⟨_, hp.replied, .inr ⟨_, rfl⟩⟩

/-! ## Every row -/

/-- A wire packet is answered by no response (the model's receiver, log 12). -/
theorem exec_wire_replies {s t : State} {i : Instr} (hc : i.opcode = none) (h : exec i s = .next t) :
    t.replies = s.replies := by
  obtain ⟨m, n, q, hr⟩ := exec_wire_eq hc
  cases (hr s).symm.trans h
  rfl

/-- Settles O52: the response of each row. -/
theorem oneResponsePerCommand : Obligations.OneResponsePerCommand := by
  unfold Obligations.OneResponsePerCommand
  intro s t i h
  refine ⟨fun hc => exec_wire_replies (Option.isNone_iff_eq_none.1 (Option.isSome_eq_false_iff.1 hc)) h, fun op hop => ?_⟩
  cases i with
  | rbPush => cases hop; exact rbPush_answers h
  | rbPushN => cases hop; exact rbPushN_answers h
  | rbCount => cases hop; exact rbCount_answers h
  | rbSpace => cases hop; exact rbSpace_answers h
  | rbPeek => cases hop; exact rbPeek_answers h
  | rbPop => cases hop; exact rbPop_answers h
  | rbSkip => cases hop; exact rbSkip_answers h
  | rbClear => cases hop; exact rbClear_answers h
  | seqReset => cases hop; exact seqReset_answers h
  | dpConfig => cases hop; exact dpConfig_answers h
  | dpReset => cases hop; exact dpReset_answers h
  | dpAdd => cases hop; exact dpAdd_answers h
  | dpAdvance => cases hop; exact dpAdvance_answers h
  | dpWrite | tpWrite | fstWrite | lufWrite => cases hop; exact packetWrite_answers rfl rfl h
  | pktD | pktM | pktN | pktF | pktL => cases hop

end Sys2Proof.Machine
end

section
/-! PROOFS. What each ring-buffer command does (40_ring_buffer R109 to R117): the stops of RBCheck, what an answer and a
replaced buffer leave alone, and the result of every row in a legal state. -/

namespace Sys2Proof.Machine

/-! ## RBCheck first -/

/-- The opcode in a command's common form is the command's own: the response to a stop names it. -/
theorem exec_ring_eq_opcode {i : Instr} {b : Byte} {op : Opcode} (hb : i.instanceNo = some b) (hop : i.opcode = some op)
    (s : State) : exec i s = ringCommand op b (ringEffect i) s := by
  obtain ⟨op', hform⟩ := exec_ring_eq hb
  have habsent : exec i (State.resetOf { s.cfg with rb := [] }) =
      .next ((State.resetOf { s.cfg with rb := [] }).stop .instanceOutOfRange op'.byte (some b) (.inst b)) := by
    rw [hform, ringCommand, rbCheck_of_absent (Nat.zero_le _)]
  obtain ⟨r, hr, _⟩ := (oneResponsePerCommand _ _ i habsent).2 op hop
  have hbyte : op'.byte = op.byte := by
    simp only [Replied, State.stop, State.reply_replies, State.raise_replies, List.append_cancel_left_eq,
      List.cons.injEq, Reply.mk.injEq] at hr
    exact hr.1.2.1
  have hopcode : op' = op := Option.some.inj ((opcode?_byte op').symm.trans (hbyte ▸ opcode?_byte op))
  exact hopcode ▸ hform s

/-- A stopping fault is one record, a response without a value, and nothing else (60_exceptions R203, R204). -/
theorem stopsWith_stop (s : State) (op : Opcode) (inst : Option Byte) (kind : FaultKind) (info : FaultInfo) :
    StopsWith s (s.stop kind op.byte inst info) op inst kind info :=
  ⟨s.mem_raise_faults kind op.byte info, rfl, rfl, ⟨rfl, rfl, rfl, rfl⟩, ⟨rfl, rfl, rfl, rfl⟩,
    ⟨rfl, rfl, rfl, rfl, rfl⟩, rfl⟩

/-- Where RBCheck gives a fault, every ring-buffer command stops with it. -/
theorem exec_ring_stops {s : State} {i : Instr} {b : Byte} {op : Opcode} {k : FaultKind} {info : FaultInfo}
    (hb : i.instanceNo = some b) (hop : i.opcode = some op) (hk : s.rbCheck op b = some (k, info)) :
    exec i s = .next (s.stop k op.byte (some b) info) := by
  rw [exec_ring_eq_opcode hb hop, ringCommand, hk]

/-- Where RBCheck passes, a ring-buffer command has its effect on its buffer and answers. -/
theorem exec_ring_passes {s : State} {i : Instr} {b : Byte} {op : Opcode} {r : RB} {x : Response}
    (hb : i.instanceNo = some b) (hop : i.opcode = some op) (hm : s.MayIssue op b)
    (he : ringEffect i (s.par b.toNat) (s.rb b.toNat) = some (r, x)) :
    exec i s = .next ((s.setRb b.toNat r).reply op.byte (some b) x) := by
  rw [exec_ring_eq_opcode hb hop, ringCommand, rbCheck_of_mayIssue hm]
  simp only [he]

theorem ring_checkedByRBCheck (s : State) {i : Instr} {b : Byte} {op : Opcode} (hb : i.instanceNo = some b)
    (hop : i.opcode = some op) : CheckedByRBCheck s op b (exec i s) :=
  ⟨fun habsent => ⟨_, exec_ring_stops hb hop (rbCheck_of_absent habsent), stopsWith_stop _ _ _ _ _⟩,
    fun hexists hrole => ⟨_, exec_ring_stops hb hop (rbCheck_of_notOwner hexists hrole), stopsWith_stop _ _ _ _ _⟩⟩

/-- Settles O16: the stops of RBCheck, and past them the common form touches no record. -/
theorem ringBufferPrologue : Obligations.RingBufferPrologue := by
  unfold Obligations.RingBufferPrologue
  intro s i b op hb hop
  refine ⟨ring_checkedByRBCheck s hb hop, fun hm t h => ?_⟩
  cases he : ringEffect i (s.par b.toNat) (s.rb b.toNat) with
  | none =>
    rw [exec_ring_eq_opcode hb hop, ringCommand, rbCheck_of_mayIssue hm] at h
    simp only [he] at h
    cases h
  | some rx =>
    rw [exec_ring_passes hb hop hm he] at h
    cases h
    rfl

/-! ## What an answer and a replaced buffer leave alone -/

theorem onlyReplies_reply (s : State) (op : Byte) (inst : Option Byte) (x : Response) :
    OnlyReplies s (s.reply op inst x) :=
  ⟨rfl, ⟨rfl, rfl, rfl, rfl⟩, ⟨rfl, rfl, rfl, rfl⟩, ⟨rfl, rfl, rfl, rfl, rfl⟩, rfl, rfl⟩

theorem onlyRing_setRb_reply (s : State) (b : Nat) (r : RB) (op : Byte) (inst : Option Byte) (x : Response) :
    OnlyRing b s ((s.setRb b r).reply op inst x) :=
  ⟨⟨List.length_set, fun _ hne => s.setRb_rb_other r hne⟩, ⟨rfl, rfl, rfl, rfl⟩, ⟨rfl, rfl, rfl, rfl⟩,
    ⟨rfl, rfl, rfl, rfl, rfl⟩, rfl, rfl⟩

/-- A ring-buffer command whose effect keeps the buffer only answers. -/
theorem exec_ring_answers {s : State} {i : Instr} {b : Byte} {op : Opcode} {x : Response} (hb : i.instanceNo = some b)
    (hop : i.opcode = some op) (hm : s.MayIssue op b)
    (he : ringEffect i (s.par b.toNat) (s.rb b.toNat) = some (s.rb b.toNat, x)) :
    ∃ t, exec i s = .next t ∧ OnlyReplies s t ∧ Replied s t op (some b) x := by
  have h := exec_ring_passes hb hop hm he
  rw [State.setRb_self] at h
  exact ⟨_, h, onlyReplies_reply _ _ _ _, rfl⟩

/-! ## Count and space -/

/-- Settles O18: the count by the order of the cursors. -/
theorem rbCountResult : Obligations.RbCountResult := by
  unfold Obligations.RbCountResult
  refine fun s b => ⟨ring_checkedByRBCheck s rfl rfl, fun hs hm => ?_⟩
  obtain ⟨t, hx, hframe, hreply⟩ := exec_ring_answers (i := .rbCount b) rfl rfl hm rfl
  rw [occupied_eq (hs.legal hm.1).1] at hreply
  refine ⟨t, hx, hframe, fun hle => ?_, fun hlt => ?_⟩
  · rwa [if_pos hle] at hreply
  · rwa [if_neg hlt.not_ge] at hreply

/-- Settles O19: the space is what the count leaves of `C - 1`. -/
theorem rbSpaceResult : Obligations.RbSpaceResult := by
  unfold Obligations.RbSpaceResult
  refine fun s b => ⟨ring_checkedByRBCheck s rfl rfl, fun hs hm => ?_⟩
  obtain ⟨t, hx, hframe, hreply⟩ := exec_ring_answers (i := .rbSpace b) rfl rfl hm rfl
  have ⟨hwr, hrd⟩ := (hs.legal hm.1).1
  rw [freeSlots, occupied_eq ⟨hwr, hrd⟩] at hreply
  refine ⟨t, hx, hframe, fun hle => ?_, fun hlt => ?_⟩
  · rwa [if_pos hle] at hreply
  · have hspace : (s.par b.toNat).capacity - 1 -
        ((s.rb b.toNat).wr + (s.par b.toNat).capacity - (s.rb b.toNat).rd) =
        (s.rb b.toNat).rd - (s.rb b.toNat).wr - 1 := by omega
    rwa [if_neg hlt.not_ge, hspace] at hreply

/-! ## Pushes -/

/-- RB_PUSH of a full buffer (40_ring_buffer R112). -/
theorem exec_rbPush_full {s : State} {b : Byte} (hm : s.MayIssue .rbPush b)
    (hfull : occupied (s.par b.toNat).capacity (s.rb b.toNat) = (s.par b.toNat).capacity - 1) (item : Elem) :
    ∃ t, exec (.rbPush b item) s = .next t ∧ OnlyReplies s t ∧ Replied s t .rbPush (some b) (.ok false) :=
  exec_ring_answers rfl rfl hm (by simp only [ringEffect, isFull_iff.2 hfull, if_true])

/-- Settles O20: full, the buffer stays; else it is `RB.pushed`, which holds the item whole. -/
theorem rbPushResult : Obligations.RbPushResult := by
  unfold Obligations.RbPushResult
  refine fun s b item => ⟨ring_checkedByRBCheck s rfl rfl, fun hs hm hwf =>
    ⟨fun hfull => exec_rbPush_full hm hfull item, fun hspace => ?_⟩⟩
  have hf : isFull (s.par b.toNat).capacity (s.rb b.toNat) = false :=
    Bool.eq_false_iff.2 fun hfull => hspace (isFull_iff.1 hfull)
  refine ⟨_, exec_rbPush_stores hs hm hf item, onlyRing_setRb_reply _ _ _ _ _ _, rfl, ?_⟩
  rw [pushedState_eq_setRb, hs.reply_setRb_rb hm.1]
  refine ⟨rfl, rfl, ?_, fun j hj => Memory.read_write_other _ _ hj⟩
  exact (Memory.read_write_same _ _ _).trans (congrArg some (mod_width_of_itemFits hm.1 hwf))

/-- Settles O21: the two ranges of `pushN_ranges`, whose items fit their slots. -/
theorem rbPushNResult : Obligations.RbPushNResult := by
  unfold Obligations.RbPushNResult
  refine fun s b items => ⟨ring_checkedByRBCheck s rfl rfl, fun hs hm hwf k hk => ?_⟩
  obtain ⟨r, hx, hwr, hrd, hin, hout⟩ := exec_rbPushN_stores hs hm items hk.symm
  refine ⟨_, hx, onlyRing_setRb_reply _ _ _ _ _ _, rfl, ?_⟩
  rw [hs.reply_setRb_rb hm.1]
  exact ⟨hwr, hrd, fun j hj => (hin j hj).trans (map_mod_width_of_wellFormed hm.1 hwf j), hout⟩

/-! ## Reads, RB_SKIP and RB_CLEAR -/

/-- The oldest element of a legal ring buffer that is not empty is a value of its width (10_state R24, R28). -/
theorem RB.Legal.oldest {p : RBParams} {r : RB} (h : RB.Legal p r) (hne : r.wr ≠ r.rd) :
    ∃ v, Memory.read r.store r.rd = some v ∧ v < 2 ^ p.width := by
  obtain ⟨v, hv⟩ := Option.isSome_iff_exists.1 (h.oldest_isSome hne)
  obtain ⟨_, _, hbounds, _⟩ := h
  exact ⟨v, hv, (hbounds _ (Memory.mem_of_read hv)).2⟩

/-- Settles O23: an empty buffer has no element, another one a legal oldest element. -/
theorem rbPeekResult : Obligations.RbPeekResult := by
  unfold Obligations.RbPeekResult
  refine fun s b => ⟨ring_checkedByRBCheck s rfl rfl, fun hs hm => ⟨fun hempty => ?_, fun hne => ?_⟩⟩
  · exact exec_ring_answers rfl rfl hm (by simp only [ringEffect, isEmpty_iff.2 hempty, if_true])
  · obtain ⟨v, hv, hlt⟩ := (hs.legal hm.1).oldest hne
    exact ⟨_, v, exec_rbPeek_head hs hm hne, onlyReplies_reply _ _ _ _, hv, hlt, hv ▸ rfl⟩

/-- Settles O24: as RB_PEEK, and `RD` moves one slot on. -/
theorem rbPopResult : Obligations.RbPopResult := by
  unfold Obligations.RbPopResult
  refine fun s b => ⟨ring_checkedByRBCheck s rfl rfl, fun hs hm => ⟨fun hempty => ?_, fun hne => ?_⟩⟩
  · exact exec_ring_answers rfl rfl hm (by simp only [ringEffect, isEmpty_iff.2 hempty, if_true])
  · obtain ⟨v, hv, hlt⟩ := (hs.legal hm.1).oldest hne
    refine ⟨_, v, exec_rbPop_head hs hm hne, onlyRing_setRb_reply _ _ _ _ _ _, hv, hlt, hv ▸ rfl, ?_⟩
    rw [poppedState, hs.reply_setRb_rb hm.1]
    exact ⟨rfl, rfl, rfl⟩

/-- Settles O25: an empty buffer stays, in another one `RD` moves one slot on. -/
theorem rbSkipResult : Obligations.RbSkipResult := by
  unfold Obligations.RbSkipResult
  refine fun s b => ⟨ring_checkedByRBCheck s rfl rfl, fun hs hm => ⟨fun hempty => ?_, fun hne => ?_⟩⟩
  · exact exec_ring_answers rfl rfl hm (by simp only [ringEffect, isEmpty_iff.2 hempty, if_true])
  · refine ⟨_, exec_rbSkip_head hm hne, onlyRing_setRb_reply _ _ _ _ _ _, rfl, ?_⟩
    rw [poppedState, hs.reply_setRb_rb hm.1]
    exact ⟨rfl, rfl, rfl⟩

/-- Settles O26: `RD` is set to `WR`, and equal cursors are a count of 0. -/
theorem rbClearResult : Obligations.RbClearResult := by
  unfold Obligations.RbClearResult
  refine fun s b => ⟨ring_checkedByRBCheck s rfl rfl, fun hs hm => ?_⟩
  refine ⟨_, exec_rbClear_clears hm, onlyRing_setRb_reply _ _ _ _ _ _, rfl, ?_⟩
  rw [hs.reply_setRb_rb hm.1]
  exact ⟨rfl, rfl, rfl, (occupied_eq_zero (hs.legal hm.1).clear.1).2 rfl⟩

end Sys2Proof.Machine
end

section
/-! PROOFS. Several items pushed: what RB_PUSHN and a run of RB_PUSH leave in a ring buffer (40_ring_buffer R113, R118),
and that it leaves the oldest element alone (20_memory R62). -/

namespace Sys2Proof.Machine

/-! ## Space -/

theorem isFull_eq_false_of_space {C : Nat} {r : RB} (h : 0 < freeSlots C r) : isFull C r = false :=
  Bool.eq_false_iff.2 fun hfull => by
    rw [freeSlots, isFull_iff.1 hfull, Nat.sub_self] at h
    exact h.false

/-- A pushed item takes one slot of the space (40_ring_buffer R112). -/
theorem freeSlots_pushed {p : RBParams} {r : RB} (h : RB.CursorsLegal p r) (hspace : 0 < freeSlots p.capacity r)
    (item : Elem) : freeSlots p.capacity (r.pushed p item) + 1 = freeSlots p.capacity r := by
  have hocc : occupied p.capacity (r.pushed p item) = occupied p.capacity r + 1 := occupied_push h hspace rfl rfl
  unfold freeSlots at hspace ⊢
  omega

/-! ## A ring buffer with items stored -/

/-- `r'` is the ring buffer `r` with the items `xs` stored from `WR` on, each cut to its slot's width, and the cursor
published (40_ring_buffer R112, R113). -/
structure RB.Stored (p : RBParams) (r : RB) (xs : List Elem) (r' : RB) : Prop where
  wr : r'.wr = slotAfter p.capacity r.wr xs.length
  rd : r'.rd = r.rd
  wf : Memory.wf r'.store
  inside : ∀ j, j < xs.length →
    Memory.read r'.store (slotAfter p.capacity r.wr j) = (xs[j]?).map (· % 2 ^ p.width)
  outside : ∀ j, (∀ l, l < xs.length → j ≠ slotAfter p.capacity r.wr l) →
    Memory.read r'.store j = Memory.read r.store j

/-- The stored items decide the ring buffer: its cursors and every slot are given, and its storage has one form. -/
theorem RB.Stored.unique {p : RBParams} {r r1 r2 : RB} {xs : List Elem} (h1 : RB.Stored p r xs r1)
    (h2 : RB.Stored p r xs r2) : r1 = r2 := by
  have hread : ∀ j, Memory.read r1.store j = Memory.read r2.store j := fun j => by
    by_cases hj : ∃ l, l < xs.length ∧ j = slotAfter p.capacity r.wr l
    · obtain ⟨l, hl, rfl⟩ := hj
      rw [h1.inside l hl, h2.inside l hl]
    · have hj' : ∀ l, l < xs.length → j ≠ slotAfter p.capacity r.wr l := fun l hl e => hj ⟨l, hl, e⟩
      rw [h1.outside j hj', h2.outside j hj']
  have hwr := h1.wr.trans h2.wr.symm
  have hrd := h1.rd.trans h2.rd.symm
  have hstore := Memory.ext_of_wf h1.wf h2.wf hread
  cases r1
  cases r2
  exact (RB.mk.injEq ..).mpr ⟨hwr, hrd, hstore⟩

/-- No item stored is no change: a legal ring buffer has its storage in canonical form. -/
theorem RB.Legal.stored_nil {p : RBParams} {r : RB} (h : RB.Legal p r) : RB.Stored p r [] r where
  wr := (Nat.mod_eq_of_lt h.1.1).symm
  rd := rfl
  wf := h.2.1
  inside := fun _ hj => absurd hj (Nat.not_lt_zero _)
  outside := fun _ _ => rfl

/-- Storing `xs` after one pushed item `x` is storing `x :: xs`: within a capacity the slots differ. -/
theorem RB.Stored.cons {p : RBParams} {r r' : RB} {x : Elem} {xs : List Elem} (h : RB.CursorsLegal p r)
    (hfit : xs.length + 1 ≤ p.capacity) (hxs : RB.Stored p (r.pushed p x) xs r') : RB.Stored p r (x :: xs) r' := by
  have hslot : ∀ j, slotAfter p.capacity (r.pushed p x).wr j = slotAfter p.capacity r.wr (j + 1) := fun j =>
    (slotAfter_slotAfter p.capacity r.wr 1 j).trans (by rw [Nat.add_comm])
  have hfirst : slotAfter p.capacity r.wr 0 = r.wr := Nat.mod_eq_of_lt h.1
  refine ⟨hxs.wr.trans (hslot _), hxs.rd, hxs.wf, fun j hj => ?_, fun j hj => ?_⟩
  · cases j with
    | zero =>
      rw [hfirst, hxs.outside]
      · exact Memory.read_write_same _ _ _
      · intro l hl he
        rw [hslot] at he
        have := slotAfter_inj h.1 (by omega) (by omega) (hfirst.trans he)
        omega
    | succ j => exact (hslot j) ▸ hxs.inside j (Nat.lt_of_succ_lt_succ hj)
  · rw [hxs.outside j fun l hl => hslot l ▸ hj (l + 1) (Nat.succ_lt_succ hl)]
    exact Memory.read_write_other _ _ (hfirst ▸ hj 0 (Nat.succ_pos _))

/-- Items stored where there is space raise the count by their number. -/
theorem RB.Stored.occupied {p : RBParams} {r r' : RB} {xs : List Elem} (h : RB.Stored p r xs r')
    (hcur : RB.CursorsLegal p r) (hfit : xs.length ≤ freeSlots p.capacity r) :
    occupied p.capacity r' = Machine.occupied p.capacity r + xs.length :=
  occupied_push hcur hfit h.wr h.rd

/-- Items stored where there is space join the queue at its end (20_memory R62). -/
theorem RB.Stored.queue {p : RBParams} {r r' : RB} {xs : List Elem} (h : RB.Stored p r xs r')
    (hcur : RB.CursorsLegal p r) (hfit : xs.length ≤ freeSlots p.capacity r) :
    RB.queue p r' = RB.queue p r ++ (xs.map (· % 2 ^ p.width)).map some := by
  have hlen : (xs.map (· % 2 ^ p.width)).length = xs.length := List.length_map _
  refine RB.queue_push hcur (hlen ▸ hfit) h.rd (hlen ▸ h.wr) (fun j hj => ?_) (hlen ▸ h.outside)
  rw [h.inside j (hlen ▸ hj), List.getElem?_map]

/-! ## The commands -/

/-- RB_PUSHN stores the items that fit (40_ring_buffer R113). -/
theorem exec_rbPushN_stored {s : State} {b : Byte} (hs : s.Inv) (hm : s.MayIssue .rbPushN b) (items : List Elem) :
    ∃ r k, exec (.rbPushN b items) s = .next ((s.setRb b.toNat r).reply Opcode.rbPushN.byte (some b) (.pushed k)) ∧
      RB.Stored (s.par b.toNat) (s.rb b.toNat)
        (items.take (freeSlots (s.par b.toNat).capacity (s.rb b.toNat))) r := by
  have hlen : min items.length (freeSlots (s.par b.toNat).capacity (s.rb b.toNat)) =
      (items.take (freeSlots (s.par b.toNat).capacity (s.rb b.toNat))).length := by
    rw [List.length_take, Nat.min_comm]
  obtain ⟨r, hx, hwr, hrd, hin, hout⟩ := exec_rbPushN_stores hs hm items hlen
  have hlegal := (exec_keeps_inv hs hx).legal hm.1
  rw [hs.reply_setRb_rb hm.1] at hlegal
  refine ⟨r, _, hx, hwr, hrd, hlegal.2.1, fun j hj => ?_, hout⟩
  rw [hin j hj, List.getElem?_take_of_lt (hj.trans_le (List.length_take_le _ _))]

/-- The state after `n` RB_PUSH commands with `ok = 1` that left the ring buffer `r`. -/
def State.afterPushes (s : State) (b : Byte) (n : Nat) (r : RB) : State :=
  { s.setRb b.toNat r with
    replies := s.replies ++ List.replicate n ⟨s.ctx, Opcode.rbPush.byte, some b, .ok true⟩ }

theorem State.Inv.afterPushes_rb {s : State} (hs : s.Inv) {b : Byte} (hb : b.toNat < s.cfg.numRB) (n : Nat) (r : RB) :
    (s.afterPushes b n r).rb b.toNat = r :=
  State.setRb_rb_same s r (hs.2.1 ▸ hb)

/-- A push with `ok = 1` and `n` after it are `n + 1`. -/
theorem State.afterPushes_succ (s : State) (b : Byte) (item : Elem) (n : Nat) (r : RB) :
    ((pushedState s b item).reply Opcode.rbPush.byte (some b) (.ok true)).afterPushes b n r =
      s.afterPushes b (n + 1) r := by
  simp [State.afterPushes, pushedState, State.setRb, State.reply, List.replicate_succ]

/-- RB_PUSH of items that all fit: each responds `ok = 1`, and together they store the items. -/
theorem execAll_rbPush {s : State} {b : Byte} {xs : List Elem} (hs : s.Inv) (hm : s.MayIssue .rbPush b)
    (hfit : xs.length ≤ freeSlots (s.par b.toNat).capacity (s.rb b.toNat)) :
    ∃ r, execAll (xs.map (Instr.rbPush b)) s = .next (s.afterPushes b xs.length r) ∧
      RB.Stored (s.par b.toNat) (s.rb b.toNat) xs r := by
  induction xs generalizing s with
  | nil =>
    refine ⟨s.rb b.toNat, ?_, (hs.legal hm.1).stored_nil⟩
    simp [execAll, State.afterPushes, State.setRb_self]
  | cons x xs ih =>
    rw [List.length_cons] at hfit
    have hcur := (hs.legal hm.1).1
    have hspace := (Nat.succ_pos _).trans_le hfit
    have hx := exec_rbPush_stores hs hm (isFull_eq_false_of_space hspace) x
    have hrb : ((pushedState s b x).reply Opcode.rbPush.byte (some b) (.ok true)).rb b.toNat =
        (s.rb b.toNat).pushed (s.par b.toNat) x := hs.reply_setRb_rb hm.1 _ _ _ _
    have hfit' : xs.length ≤ freeSlots (s.par b.toNat).capacity ((s.rb b.toNat).pushed (s.par b.toNat) x) :=
      Nat.le_of_succ_le_succ (hfit.trans (freeSlots_pushed hcur hspace x).ge)
    obtain ⟨r, hrun, hstored⟩ := ih (exec_keeps_inv hs hx) hm (hrb.symm ▸ hfit')
    rw [hrb] at hstored
    refine ⟨r, ?_, hstored.cons hcur (hfit.trans ((Nat.sub_le _ _).trans (Nat.sub_le _ _)))⟩
    rw [List.map_cons, execAll, hx]
    exact hrun.trans (congrArg _ (s.afterPushes_succ b x xs.length r))

/-- Settles O22: both store the items that fit, which decides the ring buffer. -/
theorem rbPushNIsRepeatedPush : Obligations.RbPushNIsRepeatedPush := by
  unfold Obligations.RbPushNIsRepeatedPush
  intro s b items hs hm
  obtain ⟨r, k, hpushN, hstored⟩ := exec_rbPushN_stored hs hm items
  obtain ⟨r', hpushes, hstored'⟩ := execAll_rbPush hs hm
    (List.length_take_le (freeSlots (s.par b.toNat).capacity (s.rb b.toNat)) items)
  obtain rfl := hstored.unique hstored'
  refine ⟨_, _, hpushN, hpushes, rfl, ?_⟩
  rw [List.length_take, Nat.min_comm]
  rfl

/-- Settles O28: `C - 1` items fit an empty buffer and fill it. -/
theorem bufferFillsToCapacityMinusOne : Obligations.BufferFillsToCapacityMinusOne := by
  unfold Obligations.BufferFillsToCapacityMinusOne
  intro s b items item hs hm hempty hlen
  have hcur := (hs.legal hm.1).1
  have hzero := (occupied_eq_zero hcur).2 hempty
  have hfit : items.length ≤ freeSlots (s.par b.toNat).capacity (s.rb b.toNat) := by
    rw [freeSlots, hzero, hlen, Nat.sub_zero]
  obtain ⟨r, hpushes, hstored⟩ := execAll_rbPush hs hm hfit
  have hfull : occupied (s.par b.toNat).capacity ((s.afterPushes b items.length r).rb b.toNat) =
      (s.par b.toNat).capacity - 1 := by
    rw [hs.afterPushes_rb hm.1, hstored.occupied hcur hfit, hzero, hlen, Nat.zero_add]
  obtain ⟨u, hnext, hframe, hreply⟩ := exec_rbPush_full (s := s.afterPushes b items.length r) hm hfull item
  exact ⟨_, u, hpushes, hlen ▸ rfl, hnext, hreply, hframe⟩

/-- RB_PUSHN leaves every element that stands in the queue where it is (20_memory R62). -/
theorem rbPushN_queue_prefix {s u : State} {b : Byte} {items : List Elem} (hs : s.Inv) (hm : s.MayIssue .rbPushN b)
    (h : exec (.rbPushN b items) s = .next u) :
    RB.queue (s.par b.toNat) (s.rb b.toNat) <+: RB.queue (s.par b.toNat) (u.rb b.toNat) := by
  obtain ⟨r, k, hx, hstored⟩ := exec_rbPushN_stored hs hm items
  obtain rfl := Host.Outcome.next.inj (hx.symm.trans h)
  rw [hs.reply_setRb_rb hm.1, hstored.queue (hs.legal hm.1).1 (List.length_take_le _ _)]
  exact List.prefix_append _ _

/-- Settles O29: the pushed items join the queue behind its first element, which RB_PEEK returns. -/
theorem peekIsStableUnderPush : Obligations.PeekIsStableUnderPush := by
  unfold Obligations.PeekIsStableUnderPush
  intro s u b items v hs hm hne hv hpush
  have hs' : State.Inv { s with ctx := (s.par b.toNat).prodOwner } := hs
  have hu : u.Inv := exec_keeps_inv hs' hpush
  have hcfg : u.cfg = s.cfg := (exec_cfg hpush :)
  have hpar : State.par { u with ctx := s.ctx } b.toNat = s.par b.toNat := State.par_congr hcfg _
  have hconsumer : State.MayIssue { u with ctx := s.ctx } .rbPeek b := ⟨hcfg ▸ hm.1, hpar ▸ hm.2⟩
  obtain ⟨more, hqueue⟩ := rbPushN_queue_prefix hs' ⟨hm.1, decide_eq_true rfl⟩ hpush
  change RB.queue (s.par b.toNat) (s.rb b.toNat) ++ more = RB.queue (s.par b.toNat) (u.rb b.toNat) at hqueue
  rw [RB.queue_eq_cons (hs.legal hm.1).1 hne, hv, List.cons_append, ← hpar] at hqueue
  obtain ⟨_, _, hreads, _⟩ := ringBufferIsAQueue { u with ctx := s.ctx } b hu
  obtain ⟨hpeek, _, _⟩ := hreads (some v) _ hqueue.symm
  obtain ⟨t, hx, hreply, _⟩ := hpeek hconsumer
  exact ⟨t, hx, hreply⟩

end Sys2Proof.Machine
end

section
/-! PROOFS. Sequence numbers and framing, from the emitted bytes to the gap the receiver concludes (41_sequencer R141 to
R150). -/

namespace Sys2Proof.Machine

/-! ## What a packet write emits is decoded back -/

/-- A receiver finds behind the header of a packet emitted whole the chunks, back to back, as the payload of its tag
(41_sequencer R144, R146). -/
theorem decodePacket_emitPacket {s : State} {t : Tag} {chunks : List (List Byte)}
    (h : acceptsWhole s.sink (headerPieces s.cfg t s.seq ++ chunks) = true) (ppp : Nat) :
    decodePacket s.cfg ppp ((s.emitPacket t chunks).2.out.drop s.out.length) =
      decodePayload s.cfg ppp s.cfg.magic0 s.cfg.magic1 s.seq t chunks.flatten := by
  rw [emitPacket_whole h]
  dsimp only
  rw [List.drop_left]
  exact decodePacket_header s.cfg ppp s.cfg.magic0 s.cfg.magic1 s.seq t chunks.flatten

theorem samples_length {s : State} (h : s.SamplesWritten) : s.samples.length = s.dpPPP * s.cfg.ch := by
  rw [State.samples, List.length_filterMap_eq_countP, List.countP_eq_length.2 fun pc hpc => ?_, payloadCells_length]
  obtain ⟨hp, hc⟩ := mem_payloadCells.1 hpc
  exact h pc.1 hp pc.2 hc

/-- With every sample written, DP_WRITE emits the samples as one chunk, from the state its state fault leaves
(42_data_packet R164). -/
theorem exec_dpWrite_emits {s t : State} (hw : s.SamplesWritten) (h : exec .dpWrite s = .next t) :
    ∃ faults, t.out = (State.emitPacket { s with faults := faults } (dataTag s.dpPPP)
      [encSamples s.cfg.byteOrder s.samples]).2.out := by
  refine ⟨s.writeFault.faults, ?_⟩
  simp only [exec, execDpWrite] at h
  split at h
  · cases h
  · rw [writeFault_frame s, payload_written fun pc hpc => ?_] at h
    · cases h
      rfl
    · obtain ⟨hp, hc⟩ := mem_payloadCells.1 hpc
      exact hw pc.1 hp pc.2 hc

/-- A payload of all configured points is the `D` or the `M` packet of those points (30_encoding R82). -/
theorem decodePayload_samples {s : State} (hs : s.DPLegal) (hw : s.SamplesWritten) :
    decodePayload s.cfg s.dpPPP s.cfg.magic0 s.cfg.magic1 s.seq (dataTag s.dpPPP)
      (encSamples s.cfg.byteOrder s.samples) = some s.dataPacket := by
  obtain ⟨⟨hpos, hmax⟩, _⟩ := hs
  have hlen := samples_length hw
  by_cases h1 : s.dpPPP = 1
  · rw [h1, one_mul] at hlen
    rw [dataTag, State.dataPacket, if_pos h1, if_pos h1, decodePayload_d hlen]
  · rw [dataTag, State.dataPacket, if_neg h1, if_neg h1, decodePayload_m hlen (by omega) hmax]

/-- Settles O55: OUT gains the packet whole, and behind its header each tag's payload is read back. -/
theorem emittedPacketsDecode : Obligations.EmittedPacketsDecode := by
  unfold Obligations.EmittedPacketsDecode
  intro s t hs
  refine ⟨fun req ts ppp ha h => ?_, fun ts ppp ha h => ?_, fun req ts fid fts ppp ha h => ?_, fun hw ha h => ?_⟩
  · rw [exec_tpWrite_eq] at h
    cases h
    exact (decodePacket_emitPacket ha ppp).trans (decodePayload_n s.cfg ppp _ _ _ req ts)
  · rw [exec_fstWrite_eq] at h
    cases h
    exact (decodePacket_emitPacket ha ppp).trans (decodePayload_f s.cfg ppp _ _ _ ts)
  · rw [exec_lufWrite_eq] at h
    cases h
    exact (decodePacket_emitPacket ha ppp).trans (decodePayload_l s.cfg ppp _ _ _ req ts fid fts)
  · obtain ⟨_, _, _, hdp, _⟩ := hs
    obtain ⟨faults, hout⟩ := exec_dpWrite_emits hw h
    rw [hout]
    refine (decodePacket_emitPacket (s := { s with faults := faults }) ha s.dpPPP).trans ?_
    rw [List.flatten_singleton]
    exact decodePayload_samples hdp hw

/-! ## SEQ over a run -/

/-- Settles O32: what SEQ_RESET writes is `SEQ` and its response. -/
theorem seqResetResult : Obligations.SeqResetResult := by
  unfold Obligations.SeqResetResult
  exact fun s => ⟨State.reply { s with seq := 0 } Opcode.seqReset.byte none .ack, rfl, rfl, rfl, rfl,
    ⟨rfl, rfl, rfl, rfl⟩, ⟨rfl, rfl, rfl, rfl, rfl⟩, ⟨rfl, rfl⟩, rfl, rfl, rfl⟩

/-- A run that completes is its first instruction, which completes, and the run of the others. -/
theorem execAll_cons {i : Instr} {is : List Instr} {s t : State} (h : execAll (i :: is) s = .next t) :
    ∃ u, exec i s = .next u ∧ execAll is u = .next t := by
  unfold execAll at h
  split at h
  · next u hu => exact ⟨u, hu, h⟩
  · cases h
  · cases h

/-- Settles O34, by induction on the run: a packet write advances `SEQ` by one, no other row of the run changes it. -/
theorem sequenceCountsPacketWrites : Obligations.SequenceCountsPacketWrites := by
  unfold Obligations.SequenceCountsPacketWrites
  intro is
  induction is with
  | nil =>
    intro s t _ h
    cases h
    exact (Nat.mod_eq_of_lt s.seq.isLt).symm
  | cons i is ih =>
    intro s t hnr h
    obtain ⟨hi, his⟩ := not_or.1 (mt List.mem_cons.2 hnr)
    obtain ⟨u, hu, ht⟩ := execAll_cons h
    obtain ⟨hwrite, _, hother⟩ := sequenceCounterWriters s u i hu
    have hrest := ih u t his ht
    cases hw : i.isPacketWrite with
    | true =>
      have hseq := hwrite hw
      rw [List.filter_cons_of_pos hw, List.length_cons]
      omega
    | false =>
      rw [hother hw (Ne.symm hi)] at hrest
      rwa [List.filter_cons_of_neg (by simp [hw])]

/-! ## What commands leave to the environment and the receiver -/

/-- The packet writes: the receiver is no part of the block. -/
theorem exec_packetWrite_sameAround {s t : State} {i : Instr} (hw : i.isPacketWrite = true)
    (h : exec i s = .next t) : SameAround s t := by
  cases i with
  | dpWrite =>
    obtain ⟨_, _, _, _, _, ht⟩ := exec_dpWrite_cases h
    rw [ht]
    exact ⟨rfl, rfl, rfl, rfl, rfl⟩
  | tpWrite | fstWrite | lufWrite =>
    obtain ⟨_, _, ht⟩ := emitPacket_reply_cases (Host.Outcome.next.inj h).symm
    rw [ht]
    exact ⟨rfl, rfl, rfl, rfl, rfl⟩
  | rbPush | rbPushN | rbCount | rbSpace | rbPeek | rbPop | rbSkip | rbClear | seqReset | dpConfig | dpReset | dpAdd
  | dpAdvance | pktD | pktM | pktN | pktF | pktL => cases hw

/-- No command touches the parameters, the port, the context or the receiver. -/
theorem exec_command_sameAround {s t : State} {i : Instr} (hc : i.isCommand = true) (h : exec i s = .next t) :
    SameAround s t := by
  cases rowFamily i with
  | ring b hb =>
    obtain ⟨_, _, _, haround⟩ := exec_ring_frame hb h
    exact haround
  | packetWrite hw => exact exec_packetWrite_sameAround hw h
  | seqReset hi => subst hi; cases h; exact ⟨rfl, rfl, rfl, rfl, rfl⟩
  | dpConfig n hi =>
    subst hi
    obtain ⟨_, rfl⟩ | ⟨_, _, rfl⟩ := exec_dpConfig_cases h <;> exact ⟨rfl, rfl, rfl, rfl, rfl⟩
  | dpReset hi => subst hi; cases h; exact ⟨rfl, rfl, rfl, rfl, rfl⟩
  | dpAdd ch v hi =>
    subst hi
    obtain ⟨_, rfl⟩ | ⟨_, _, rfl⟩ | ⟨_, _, _, rfl⟩ := exec_dpAdd_cases h <;> exact ⟨rfl, rfl, rfl, rfl, rfl⟩
  | dpAdvance hi =>
    subst hi
    obtain ⟨_, rfl⟩ | ⟨_, rfl⟩ := exec_dpAdvance_cases h <;> exact ⟨rfl, rfl, rfl, rfl, rfl⟩
  | wire hop => rw [Instr.isCommand, hop] at hc; cases hc

/-- A run of commands leaves the receiver as it is. -/
theorem execAll_commands_receiver {is : List Instr} {s t : State} (hc : ∀ i ∈ is, i.isCommand = true)
    (h : execAll is s = .next t) : t.rxSeq = s.rxSeq ∧ t.rxGaps = s.rxGaps := by
  induction is generalizing s with
  | nil => cases h; exact ⟨rfl, rfl⟩
  | cons i is ih =>
    obtain ⟨hi, his⟩ := List.forall_mem_cons.1 hc
    obtain ⟨u, hu, ht⟩ := execAll_cons h
    obtain ⟨_, _, _, hseq, hgaps⟩ := exec_command_sameAround hi hu
    rw [← hseq, ← hgaps]
    exact ih his ht

/-! ## The receiver -/

/-- The gap as an integer (41_sequencer R150). -/
theorem sequenceGap_toNat (prev q : Byte) :
    ((sequenceGap prev q).toNat : Int) = ((q.toNat : Int) - prev.toNat - 1) % 256 := by
  unfold sequenceGap
  bv_omega

/-- Of a packet with the magic bytes the receiver keeps the sequence byte and, with a packet before it, the gap. -/
theorem receive_magic (s : State) (q : Byte) :
    s.receive s.cfg.magic0 s.cfg.magic1 q =
      { s with rxSeq := some q, rxGaps := s.rxGaps ++ (s.rxSeq.map (sequenceGap · q)).toList } := by
  unfold State.receive
  cases s.rxSeq <;> simp

/-- Bytes without the magic prefix are no packet to the receiver (log 13). -/
theorem receive_other {s : State} {m n : Byte} (h : m ≠ s.cfg.magic0 ∨ n ≠ s.cfg.magic1) (q : Byte) :
    s.receive m n q = s := by
  have hhere : (decide (m = s.cfg.magic0) && decide (n = s.cfg.magic1)) = false := by
    simpa [or_iff_not_imp_left] using h
  unfold State.receive
  rw [hhere]
  cases hrx : s.rxSeq <;> simp [← hrx]

/-- Settles O54: each of the five packets is its reception. -/
theorem receiverConcludesTheGap : Obligations.ReceiverConcludesTheGap := by
  unfold Obligations.ReceiverConcludesTheGap
  intro s i m n q hi
  have hexec : exec i s = .next (s.receive m n q) := by
    obtain ⟨_, rfl⟩ | ⟨_, rfl⟩ | ⟨_, _, rfl⟩ | ⟨_, rfl⟩ | ⟨_, _, _, _, rfl⟩ := hi <;> rfl
  refine ⟨s.receive m n q, hexec, ⟨rfl, ⟨rfl, rfl, rfl, rfl⟩, rfl, rfl⟩, ⟨rfl, rfl, rfl, rfl⟩, ⟨rfl, rfl⟩, rfl, rfl, rfl,
    rfl, ?_, fun h => receive_other h q⟩
  rintro rfl rfl
  rw [receive_magic]
  refine ⟨rfl, fun hnone => ?_, fun prev hprev => ⟨sequenceGap prev q, ?_, sequenceGap_toNat prev q⟩⟩
  · simp [hnone]
  · simp [hprev]

/-- Settles O56: the lost writes move `SEQ` past the byte the receiver saw last and leave the receiver alone, so the next
packet's gap is their number. -/
theorem lostPacketsAreCounted : Obligations.LostPacketsAreCounted := by
  unfold Obligations.LostPacketsAreCounted
  intro s t is i m n hcmd hnr _ hrx hrun hm hn hi
  obtain ⟨hseq, hgaps⟩ := execAll_commands_receiver hcmd hrun
  have hcount := sequenceCountsPacketWrites is s t hnr hrun
  obtain ⟨u, hu, _, _, _, _, _, _, _, hmagic, _⟩ := receiverConcludesTheGap t i m n t.seq hi
  obtain ⟨hlast, _, hgap⟩ := hmagic hm hn
  obtain ⟨g, hg, hgval⟩ := hgap (s.seq - 1) (hseq.trans hrx)
  have hgj : g = BitVec.ofNat 8 (is.filter Instr.isPacketWrite).length := by
    bv_omega
  exact ⟨u, hu, hlast, by rw [hg, hgaps, hgj]⟩

end Sys2Proof.Machine
end

section
/-! PROOFS. What each DataPacket command does (42_data_packet R159 to R163): its outcome by its conditions, and what a
change of the DataPacket buffer leaves alone. -/

namespace Sys2Proof.Machine

/-! ## The frame of a DataPacket command, and a fault recorded twice -/

/-- A change of the DataPacket buffer and a response leave everything else alone. -/
theorem onlyDP_reply (s : State) (dpS : Memory Sample) (dpPPP dpIDX : Nat) (dpSTATE : DPState) (op : Byte)
    (inst : Option Byte) (x : Response) :
    OnlyDP s (State.reply { s with dpS := dpS, dpPPP := dpPPP, dpIDX := dpIDX, dpSTATE := dpSTATE } op inst x) :=
  ⟨rfl, ⟨rfl, rfl, rfl, rfl⟩, ⟨rfl, rfl, rfl, rfl, rfl⟩, rfl, rfl⟩

/-- FAULTS is a set: a record it holds is not added again (60_exceptions R203). -/
theorem State.raise_of_mem {s : State} {k : FaultKind} {op : Byte} {i : FaultInfo}
    (h : ⟨k, op, s.ctx, i⟩ ∈ s.faults) : s.raise k op i = s := by
  simp only [State.raise, if_pos h]

/-- A command that stops a second time for the same reason only answers. -/
theorem State.stop_stop (s : State) (k : FaultKind) (op : Byte) (inst : Option Byte) (info : FaultInfo) :
    (s.stop k op inst info).stop k op inst info = (s.stop k op inst info).reply op inst .noValue :=
  congrArg (State.reply · op inst .noValue) (State.raise_of_mem ((s.mem_raise_faults k op info _).2 (.inr rfl)))

/-! ## `UpdateState()` (42_data_packet R159) -/

@[simp] theorem fillState_written (idx ppp : Nat) : fillState .written idx ppp = .written := rfl

theorem fillState_of_ne_written {old : DPState} (h : old ≠ .written) (idx ppp : Nat) :
    fillState old idx ppp = if idx < ppp then .filling else .ready := by
  simp only [fillState, if_neg h, ← Nat.not_lt, ite_not]

theorem fillState_of_lt {idx ppp : Nat} (h : idx < ppp) (old : DPState) :
    fillState old idx ppp = if old = .written then .written else .filling := by
  simp only [fillState, if_neg (Nat.not_le.2 h)]

/-- The state is the same after a second update with the same index. -/
theorem fillState_fillState (old : DPState) (idx ppp : Nat) :
    fillState (fillState old idx ppp) idx ppp = fillState old idx ppp := by
  by_cases h : old = .written
  · subst h
    rfl
  · have hne : fillState old idx ppp ≠ .written := by
      rw [fillState_of_ne_written h]
      split <;> simp
    rw [fillState_of_ne_written hne, fillState_of_ne_written h]

/-! ## DP_CONFIG and DP_RESET -/

theorem exec_dpConfig_sets {s : State} {n : Half} (h1 : 1 ≤ n.toNat) (h2 : n.toNat ≤ s.cfg.maxPoints) :
    exec (.dpConfig n) s = .next (State.reply { s with dpPPP := n.toNat } Opcode.dpConfig.byte none .ack) :=
  if_neg (by omega)

theorem exec_dpConfig_stops {s : State} {n : Half} (h : n.toNat < 1 ∨ s.cfg.maxPoints < n.toNat) :
    exec (.dpConfig n) s = .next (s.stop .configOutOfRange Opcode.dpConfig.byte none (.count n)) :=
  if_pos h

/-- Settles O41: in range `DP.PPP` is written, out of range DP_CONFIG stops. -/
theorem dpConfigResult : Obligations.DpConfigResult := by
  unfold Obligations.DpConfigResult
  exact fun s n =>
    ⟨fun h1 h2 => ⟨_, exec_dpConfig_sets h1 h2, rfl, rfl, rfl, rfl, onlyDP_reply s _ _ _ _ _ _ _, rfl⟩,
      fun h => ⟨_, exec_dpConfig_stops h, stopsWith_stop _ _ _ _ _⟩⟩

/-- Settles O42: DP_RESET has one outcome, in every state. -/
theorem dpResetResult : Obligations.DpResetResult := by
  unfold Obligations.DpResetResult
  exact fun s => ⟨_, rfl, rfl, rfl, rfl, rfl, onlyDP_reply s _ _ _ _ _ _ _, rfl⟩

/-! ## DP_ADD -/

/-- The state of DP_ADD that stores `v` for channel `ch` of the current point (42_data_packet R162). -/
def State.withSample (s : State) (ch : Byte) (v : Sample) : State :=
  { s with
    dpS := Memory.write s.dpS (dpIndex s.cfg.ch s.dpIDX ch.toNat) v
    dpSTATE := fillState s.dpSTATE s.dpIDX s.dpPPP }

theorem exec_dpAdd_stops {s : State} {ch : Byte} (h : s.cfg.ch ≤ ch.toNat) (v : Sample) :
    exec (.dpAdd ch v) s = .next (s.stop .channelOutOfRange Opcode.dpAdd.byte none (.channel ch)) :=
  if_pos h

theorem exec_dpAdd_fails {s : State} {ch : Byte} (hch : ch.toNat < s.cfg.ch) (h : s.dpPPP ≤ s.dpIDX) (v : Sample) :
    exec (.dpAdd ch v) s = .next (s.reply Opcode.dpAdd.byte none (.ok false)) :=
  (if_neg hch.not_ge).trans (if_pos h)

/-- Below the limit the cell exists, since `DP.PPP` is at most `MAX_POINTS`. -/
theorem exec_dpAdd_stores {s : State} {ch : Byte} (hs : s.DPLegal) (hch : ch.toNat < s.cfg.ch) (h : s.dpIDX < s.dpPPP)
    (v : Sample) : exec (.dpAdd ch v) s = .next ((s.withSample ch v).reply Opcode.dpAdd.byte none (.ok true)) := by
  obtain ⟨⟨_, hppp⟩, _⟩ := hs
  have hcell : Config.hasCell s.cfg s.dpIDX ch.toNat = true := by simp [Config.hasCell, hch, h.trans_le hppp]
  simp only [exec, execDpAdd, if_neg hch.not_ge, if_neg h.not_ge, State.dpStore, hcell, if_true]
  rfl

/-- The stored cell is the only one that changes, as no two cells share an index (10_state R30). -/
theorem withSample_dpRead {s : State} {ch : Byte} (v : Sample) (hch : ch.toNat < s.cfg.ch) {p c : Nat}
    (hc : c < s.cfg.ch) :
    (s.withSample ch v).dpRead p c = if p = s.dpIDX ∧ c = ch.toNat then some v else s.dpRead p c := by
  have hcell : dpIndex s.cfg.ch p c = dpIndex s.cfg.ch s.dpIDX ch.toNat ↔ p = s.dpIDX ∧ c = ch.toNat :=
    ⟨dpIndex_inj hc hch, fun ⟨hp, hc'⟩ => hp ▸ hc' ▸ rfl⟩
  simp only [State.dpRead, State.withSample, Memory.read_write, hcell]

/-- Of two samples stored in one cell the last counts. -/
theorem withSample_withSample (s : State) (ch : Byte) (v v' : Sample) :
    (s.withSample ch v).withSample ch v' = s.withSample ch v' := by
  simp only [State.withSample, Memory.write_write, fillState_fillState]

/-- Settles O43: the three outcomes of DP_ADD. -/
theorem dpAddResult : Obligations.DpAddResult := by
  unfold Obligations.DpAddResult
  refine fun s ch v hs => ⟨fun hch => ⟨_, exec_dpAdd_stops hch v, stopsWith_stop _ _ _ _ _⟩,
    fun hch hfull => ⟨_, exec_dpAdd_fails hch hfull v, onlyReplies_reply _ _ _ _, rfl⟩,
    fun hch hidx => ⟨_, exec_dpAdd_stores hs.dpLegal hch hidx v, onlyDP_reply s _ _ _ _ _ _ _, rfl, ?_, ?_, rfl, rfl,
      fillState_of_lt hidx _⟩⟩
  · exact (withSample_dpRead v hch hch).trans (if_pos ⟨rfl, rfl⟩)
  · exact fun p c hc hne => (withSample_dpRead v hch hc).trans (if_neg hne)

/-- Settles O44: both DP_ADDs have the same outcome, and each outcome is idempotent but for the response. -/
theorem lastSampleWins : Obligations.LastSampleWins := by
  unfold Obligations.LastSampleWins
  intro s t u w ch v v' hs ht hu hw
  by_cases hch : s.cfg.ch ≤ ch.toNat
  · cases (exec_dpAdd_stops hch v).symm.trans ht
    cases (exec_dpAdd_stops (s := s.stop _ _ _ _) hch v').symm.trans hu
    cases (exec_dpAdd_stops hch v').symm.trans hw
    rw [State.stop_stop]
    rfl
  · have hch' := Nat.lt_of_not_le hch
    by_cases hidx : s.dpPPP ≤ s.dpIDX
    · cases (exec_dpAdd_fails hch' hidx v).symm.trans ht
      cases (exec_dpAdd_fails (s := s.reply _ _ _) hch' hidx v').symm.trans hu
      cases (exec_dpAdd_fails hch' hidx v').symm.trans hw
      rfl
    · have hidx' := Nat.lt_of_not_le hidx
      have hlegal := (dpAdd_keeps_inv hs ht).dpLegal
      cases (exec_dpAdd_stores hs.dpLegal hch' hidx' v).symm.trans ht
      cases (exec_dpAdd_stores hlegal hch' hidx' v').symm.trans hu
      cases (exec_dpAdd_stores hs.dpLegal hch' hidx' v').symm.trans hw
      rw [← withSample_withSample s ch v v']
      rfl

/-! ## DP_ADVANCE -/

theorem exec_dpAdvance_stops {s : State} (h : s.dpIDX = s.cfg.maxPoints) :
    exec .dpAdvance s = .next (s.stop .pointOverflow Opcode.dpAdvance.byte none .none) :=
  if_pos h

theorem exec_dpAdvance_moves {s : State} (h : s.dpIDX ≠ s.cfg.maxPoints) :
    exec .dpAdvance s = .next (State.reply
      { s with dpIDX := s.dpIDX + 1, dpSTATE := fillState s.dpSTATE (s.dpIDX + 1) s.dpPPP }
      Opcode.dpAdvance.byte none .ack) :=
  if_neg h

/-- Settles O45: at the storage capacity DP_ADVANCE stops, else the index moves and the state is updated. -/
theorem dpAdvanceResult : Obligations.DpAdvanceResult := by
  unfold Obligations.DpAdvanceResult
  exact fun s => ⟨fun h => ⟨_, exec_dpAdvance_stops h, stopsWith_stop _ _ _ _ _⟩,
    fun h => ⟨_, exec_dpAdvance_moves h, onlyDP_reply s _ _ _ _ _ _ _, rfl, rfl, rfl, rfl, rfl⟩⟩

end Sys2Proof.Machine
end

section
/-! PROOFS. DP_WRITE (42_data_packet R164, R165): its payload and what building it changes, then the packet the sink is
offered. -/

namespace Sys2Proof.Machine

theorem dataTag_byte (n : Nat) : (dataTag n).byte = if n = 1 then 0x44 else 0x4D := by
  unfold dataTag
  split <;> rfl

/-! ## The payload -/

/-- The payload DP_WRITE offers the sink, and the state its faults and draws leave. -/
def State.dpPayload (s : State) : List Byte × State :=
  s.writeFault.payload Opcode.dpWrite.byte (payloadCells s.dpPPP s.cfg.ch)

theorem dpPayload_length (s : State) : s.dpPayload.1.length = s.dpPPP * s.cfg.ch * 2 := by
  obtain ⟨hlen, _⟩ := payload_frame Opcode.dpWrite.byte (payloadCells s.dpPPP s.cfg.ch) s.writeFault
  exact hlen.trans (by rw [payloadCells_length, Nat.mul_comm])

/-- Before its packet DP_WRITE changes FAULTS and the draws only. -/
theorem dpPayload_state (s : State) :
    s.dpPayload.2 = { s with faults := s.dpPayload.2.faults, sampleDraws := s.dpPayload.2.sampleDraws } := by
  obtain ⟨_, hstate⟩ := payload_frame Opcode.dpWrite.byte (payloadCells s.dpPPP s.cfg.ch) s.writeFault
  refine hstate.trans ?_
  rw [← State.dpPayload, writeFault_frame s]

@[simp] theorem writeFault_dpRead (s : State) (p c : Nat) : s.writeFault.dpRead p c = s.dpRead p c := by
  rw [writeFault_frame]
  rfl

@[simp] theorem writeFault_cfg (s : State) : s.writeFault.cfg = s.cfg := by
  rw [writeFault_frame]

@[simp] theorem writeFault_ctx (s : State) : s.writeFault.ctx = s.ctx := by
  rw [writeFault_frame]

/-- The faults of DP_WRITE: the state fault, and one record for each transmitted cell without a value. -/
theorem mem_dpPayload_faults (s : State) (f : FaultRecord) :
    f ∈ s.dpPayload.2.faults ↔ f ∈ s.faults ∨
      (s.dpSTATE = .empty ∧ f = ⟨.writeEmpty, 0x24, s.ctx, .none⟩) ∨
      (s.dpSTATE = .written ∧ f = ⟨.packetReuse, 0x24, s.ctx, .none⟩) ∨
      ∃ p c, p < s.dpPPP ∧ c < s.cfg.ch ∧ s.dpRead p c = none ∧
        f = ⟨.undefinedSample, 0x24, s.ctx, .cell p c⟩ := by
  rw [State.dpPayload, mem_payload_faults, mem_writeFault_faults]
  simp only [Prod.exists, mem_payloadCells, writeFault_dpRead, writeFault_ctx, and_assoc, or_assoc]
  rfl

/-- A written sample stands in the payload at its cell's place (30_encoding R82). -/
theorem dpPayload_bytes_at {s : State} {p c : Nat} {v : Sample} (hp : p < s.dpPPP) (hc : c < s.cfg.ch)
    (hv : s.dpRead p c = some v) :
    (s.dpPayload.1.drop (2 * (p * s.cfg.ch + c))).take 2 = enc s.cfg.byteOrder v 2 := by
  rw [← writeFault_dpRead] at hv
  have hbytes := payload_bytes_at Opcode.dpWrite.byte _ s.writeFault _ (p, c) v (payloadCells_getElem? hp hc) hv
  rwa [writeFault_cfg] at hbytes

/-- With every sample written, the payload is the samples. -/
theorem dpPayload_of_written {s : State} (h : s.SamplesWritten) :
    s.dpPayload.1 = encSamples s.cfg.byteOrder s.samples := by
  rw [State.dpPayload, payload_written fun pc hpc => ?_]
  · simp only [writeFault_dpRead, writeFault_cfg, State.samples]
  · obtain ⟨hp, hc⟩ := mem_payloadCells.1 hpc
    simpa using h pc.1 hp pc.2 hc

/-! ## The packet -/

/-- Every configured point exists, so DP_WRITE offers its packet from the state the payload leaves. -/
theorem exec_dpWrite_eq {s : State} (h : s.DPLegal) :
    exec .dpWrite s = .next (State.reply
      { (s.dpPayload.2.emitPacket (dataTag s.dpPPP) [s.dpPayload.1]).2 with dpSTATE := .written }
      Opcode.dpWrite.byte none (.total (s.dpPayload.2.emitPacket (dataTag s.dpPPP) [s.dpPayload.1]).1)) := by
  obtain ⟨⟨_, hppp⟩, _⟩ := h
  exact if_neg (Nat.not_lt.2 hppp)

/-- Settles O46: the payload by its cells, its faults, and the pieces as far as the sink accepts them. -/
theorem dpWriteResult : Obligations.DpWriteResult := by
  unfold Obligations.DpWriteResult
  intro s hs
  obtain ⟨answers, hmay, htotal, hstate⟩ := emitPacket_accepted s.dpPayload.2 (dataTag s.dpPPP) [s.dpPayload.1]
  have hexec := exec_dpWrite_eq hs.dpLegal
  rw [htotal, hstate] at hexec
  rw [dpPayload_state s] at hexec hmay
  rw [← dataTag_byte]
  exact ⟨_, answers, s.dpPayload.1, _, hexec, dpPayload_length s, fun _ _ _ => dpPayload_bytes_at, rfl, hmay, rfl, rfl,
    mem_dpPayload_faults s, rfl, rfl, rfl, rfl, rfl, rfl, rfl, rfl, rfl, rfl, rfl⟩

/-- Settles O47: the sink's four answers accept header and payload whole. -/
theorem dpWriteTagAndLength : Obligations.DpWriteTagAndLength := by
  unfold Obligations.DpWriteTagAndLength
  intro s a0 a1 a2 a3 answers hs hsink h0 h1 h2 h3
  have hlen := dpPayload_length s
  have haccepts : acceptsWhole s.sink (headerPieces s.cfg (dataTag s.dpPPP) s.seq ++ [s.dpPayload.1]) = true := by
    simp [hsink, headerPieces, acceptsWhole, hlen, h0, h1, h2, h3]
  have htotal : 4 + [s.dpPayload.1].flatten.length = 4 + 2 * s.dpPPP * s.cfg.ch := by
    rw [List.flatten_singleton, hlen]
    ring
  have hexec := exec_dpWrite_eq hs.dpLegal
  rw [dpPayload_state s, emitPacket_whole (by exact haccepts), htotal, List.flatten_singleton] at hexec
  refine ⟨_, (dataTag s.dpPPP).byte, s.dpPayload.1, hexec, fun hone => ?_, fun hmore => ?_, hlen, rfl, rfl,
    dpPayload_of_written⟩
  · rw [dataTag_byte, if_pos hone]
  · rw [dataTag_byte, if_neg hmore.ne']

end Sys2Proof.Machine
end

section
/-! PROOFS. The transitions of `DP.STATE` over every instruction (42_data_packet R166). -/

namespace Sys2Proof.Machine

/-- From a state other than WRITTEN a stored sample leads to FILLING or READY; any other DP_ADD leaves the state. -/
theorem dpAdd_transition {s t : State} {ch : Byte} {v : Sample} (h : exec (.dpAdd ch v) s = .next t) :
    (ch.toNat < s.cfg.ch → s.dpIDX < s.dpPPP → s.dpSTATE ≠ .written →
      t.dpSTATE = if t.dpIDX < t.dpPPP then .filling else .ready) ∧
    (s.cfg.ch ≤ ch.toNat ∨ s.dpPPP ≤ s.dpIDX ∨ s.dpSTATE = .written → t.dpSTATE = s.dpSTATE) := by
  obtain ⟨hch, rfl⟩ | ⟨_, hfull, rfl⟩ | ⟨hch, hidx, _, rfl⟩ := exec_dpAdd_cases h
  · exact ⟨fun hlt => absurd hch hlt.not_ge, fun _ => rfl⟩
  · exact ⟨fun _ hlt => absurd hfull hlt.not_ge, fun _ => rfl⟩
  · refine ⟨fun _ _ hne => fillState_of_ne_written hne _ _, fun hkeep => ?_⟩
    have hw := (hkeep.resolve_left hch.not_ge).resolve_left hidx.not_ge
    simp [hw]

/-- From a state other than WRITTEN a moved index leads to FILLING or READY; any other DP_ADVANCE leaves the state. -/
theorem dpAdvance_transition {s t : State} (h : exec .dpAdvance s = .next t) :
    (s.dpIDX ≠ s.cfg.maxPoints → s.dpSTATE ≠ .written →
      t.dpSTATE = if t.dpIDX < t.dpPPP then .filling else .ready) ∧
    (s.dpIDX = s.cfg.maxPoints ∨ s.dpSTATE = .written → t.dpSTATE = s.dpSTATE) := by
  obtain ⟨hmax, rfl⟩ | ⟨hne, rfl⟩ := exec_dpAdvance_cases h
  · exact ⟨fun hne => absurd hmax hne, fun _ => rfl⟩
  · refine ⟨fun _ hne' => fillState_of_ne_written hne' _ _, fun hkeep => ?_⟩
    simp [hkeep.resolve_left hne]

/-- DP_WRITE leads to WRITTEN, with the faults of its payload recorded. -/
theorem dpWrite_transition {s t : State} (h : exec .dpWrite s = .next t) :
    t.dpSTATE = .written ∧ t.faults = s.dpPayload.2.faults := by
  obtain ⟨_, _, p, hp, _, ht⟩ := exec_dpWrite_cases h
  rw [ht]
  exact ⟨rfl, congrArg (fun q => q.2.faults) hp⟩

theorem emitPacket_dpSTATE (s : State) (tag : Tag) (chunks : List (List Byte)) :
    (s.emitPacket tag chunks).2.dpSTATE = s.dpSTATE := by
  obtain ⟨_, _, _, ht⟩ := emitPacket_spec s tag chunks
  rw [ht]

theorem packetWrite_dpSTATE {s t : State} {i : Instr} (hw : i.isPacketWrite = true) (hne : i ≠ .dpWrite)
    (h : exec i s = .next t) : t.dpSTATE = s.dpSTATE := by
  cases i with
  | dpWrite => exact absurd rfl hne
  | tpWrite | fstWrite | lufWrite =>
    cases h
    exact emitPacket_dpSTATE s _ _
  | rbPush | rbPushN | rbCount | rbSpace | rbPeek | rbPop | rbSkip | rbClear | seqReset | dpConfig | dpReset | dpAdd
  | dpAdvance | pktD | pktM | pktN | pktF | pktL => cases hw

/-- The four commands apart, no instruction touches `DP.STATE` (10_state R33). -/
theorem exec_dpSTATE {s t : State} {i : Instr} (h : exec i s = .next t) (hadd : ∀ ch v, i ≠ .dpAdd ch v)
    (hadvance : i ≠ .dpAdvance) (hwrite : i ≠ .dpWrite) (hreset : i ≠ .dpReset) : t.dpSTATE = s.dpSTATE := by
  cases rowFamily i with
  | ring b hb =>
    obtain ⟨_, ⟨_, _, _, hstate⟩, _, _⟩ := exec_ring_frame hb h
    exact hstate
  | packetWrite hw => exact packetWrite_dpSTATE hw hwrite h
  | seqReset hi => subst hi; cases h; rfl
  | dpConfig n hi => subst hi; obtain ⟨_, rfl⟩ | ⟨_, _, rfl⟩ := exec_dpConfig_cases h <;> rfl
  | dpReset hi => exact absurd hi hreset
  | dpAdd ch v hi => exact absurd hi (hadd ch v)
  | dpAdvance hi => exact absurd hi hadvance
  | wire hc =>
    obtain ⟨m, n, q, hr⟩ := exec_wire_eq hc
    rw [hr] at h
    cases h
    rfl

/-- Settles O48: the transition of each of the four commands that move `DP.STATE`, and that no other row does. -/
theorem dataPacketTransitions : Obligations.DataPacketTransitions := by
  unfold Obligations.DataPacketTransitions
  intro s t i h
  refine ⟨fun ch v hi => ?_, fun hi => ?_, fun hi => ?_, fun hi => ?_, exec_dpSTATE h⟩
  · exact dpAdd_transition (hi ▸ h)
  · exact dpAdvance_transition (hi ▸ h)
  · obtain ⟨hstate, hfaults⟩ := dpWrite_transition (hi ▸ h)
    rw [hfaults]
    exact ⟨hstate, fun hempty => (mem_dpPayload_faults s _).2 (.inr (.inl ⟨hempty, rfl⟩)),
      fun hwritten => (mem_dpPayload_faults s _).2 (.inr (.inr (.inl ⟨hwritten, rfl⟩)))⟩
  · subst hi
    cases h
    rfl

end Sys2Proof.Machine
end

section
/-! PROOFS. The time packets (43_time R190 to R193): what a packet write does whatever the sink accepts, said once
for the three commands, and the bytes an `L` packet shares with an `N` packet. -/

namespace Sys2Proof.Machine

/-! ## The bytes of the base fields -/

/-- Behind any header the base fields are bytes 4 to 8, whatever follows them (43_time R193). -/
theorem baseTimeFields_at (o : ByteOrder) (m n : Byte) (t : Tag) (q req : Byte) (ts : Stamp) (rest : List Byte) :
    ((headerBytes m n t q ++ (req :: (enc o ts 4 ++ rest))).drop 4).take 5 = req :: enc o ts 4 := by
  have hheader : (headerBytes m n t q).length = 4 := rfl
  rw [List.drop_left' hheader, List.take_succ_cons, List.take_left' (enc_length o ts 4)]

theorem encode_pktN_baseTimeFields (c : Config) (m n q req : Byte) (ts : Stamp) :
    ((encode c (.pktN m n q req ts)).drop 4).take 5 = req :: enc c.byteOrder ts 4 := by
  have hfields := baseTimeFields_at c.byteOrder m n .n q req ts []
  rwa [List.append_nil] at hfields

theorem encode_pktL_baseTimeFields (c : Config) (m n q req : Byte) (ts : Stamp) (fid : Half) (fts : Stamp) :
    ((encode c (.pktL m n q req ts fid fts)).drop 4).take 5 = req :: enc c.byteOrder ts 4 := by
  rw [encode, List.append_assoc]
  exact baseTimeFields_at c.byteOrder m n .l q req ts _

/-- Settles O40: in both packets bytes 4 to 8 are `req` and the timestamp. -/
theorem baseTimeFieldsAreShared : Obligations.BaseTimeFieldsAreShared := by
  unfold Obligations.BaseTimeFieldsAreShared
  intro c m n q m' n' q' req ts fid fts
  have hN := encode_pktN_baseTimeFields c m' n' q' req ts
  exact ⟨(encode_pktL_baseTimeFields c m n q req ts fid fts).trans hN.symm, hN⟩

/-! ## The packet writes -/

/-- An instruction that emits one packet and answers with its total: OUT gains what the sink accepts of the pieces, and
the packet itself where it accepts every piece whole (41_sequencer R143 to R146). -/
theorem exec_emitPacket_result {s : State} {i : Instr} {op : Opcode} {tag : Tag} {chunks : List (List Byte)}
    (hexec : exec i s = .next ((s.emitPacket tag chunks).2.reply op.byte none (.total (s.emitPacket tag chunks).1)))
    {packet : List Byte} (hpacket : [s.cfg.magic0, s.cfg.magic1, tag.byte, s.seq] ++ chunks.flatten = packet)
    {len : Nat} (hlen : packet.length = len) :
    ∃ t answers, exec i s = .next t ∧ OnlyStream s t ∧ t.seq = s.seq + 1 ∧
      s.MayAnswer answers (headerPieces s.cfg tag s.seq ++ chunks) ∧
      t.out = s.out ++ acceptedBy answers (headerPieces s.cfg tag s.seq ++ chunks) ∧
      Replied s t op none (.total (acceptedBy answers (headerPieces s.cfg tag s.seq ++ chunks)).length) ∧
      (acceptsWhole s.sink (headerPieces s.cfg tag s.seq ++ chunks) = true →
        t.out = s.out ++ packet ∧ Replied s t op none (.total len)) := by
  obtain ⟨answers, hmay, htotal, hstate⟩ := emitPacket_accepted s tag chunks
  refine ⟨_, answers, hexec, ?_, ?_, hmay, ?_, ?_, fun hwhole => ?_⟩
  · rw [hstate]
    exact ⟨rfl, ⟨rfl, rfl, rfl, rfl⟩, ⟨rfl, rfl, rfl, rfl, rfl⟩, rfl, rfl⟩
  · rw [hstate]
    rfl
  · rw [hstate]
    rfl
  · rw [hstate, htotal]
    rfl
  · have hsum : 4 + chunks.flatten.length = len := by
      rw [← hlen, ← hpacket, List.length_append]
      rfl
    rw [emitPacket_whole hwhole, hpacket, hsum]
    exact ⟨rfl, rfl⟩

/-- Settles O36: the pieces of an `N` packet are its header's, the correlation byte and the timestamp. -/
theorem tpWriteResult : Obligations.TpWriteResult := by
  unfold Obligations.TpWriteResult
  rintro s req ts _ rfl
  exact exec_emitPacket_result (exec_tpWrite_eq s req ts) (by simp [Tag.byte]) (by simp)

/-- Settles O37: the pieces of an `F` packet are its header's and the timestamp. -/
theorem fstWriteResult : Obligations.FstWriteResult := by
  unfold Obligations.FstWriteResult
  rintro s ts _ rfl
  exact exec_emitPacket_result (exec_fstWrite_eq s ts) (by simp [Tag.byte]) (by simp)

/-- Settles O38: the pieces of an `L` packet are its own header's, so one `SEQ` and tag `L`, the base fields and two
more. -/
theorem lufWriteResult : Obligations.LufWriteResult := by
  unfold Obligations.LufWriteResult
  rintro s req ts fid fts _ rfl
  exact exec_emitPacket_result (exec_lufWrite_eq s req ts fid fts) (by simp [Tag.byte]) (by simp)

end Sys2Proof.Machine
end

section
/-! PROOFS. FAULTS over a step (60_exceptions R203, R204): every instruction completes, no step takes a record away, and
what the use of read data records. -/

namespace Sys2Proof.Machine

/-- Settles O13: the completion of each family of rows. -/
theorem everyInstructionCompletes : Obligations.EveryInstructionCompletes := by
  unfold Obligations.EveryInstructionCompletes
  exact fun s i hs => exec_completes hs i

/-! ## FAULTS only grows -/

theorem State.stop_faults_prefix (s : State) (k : FaultKind) (op : Byte) (inst : Option Byte) (info : FaultInfo) :
    s.faults <+: (s.stop k op inst info).faults :=
  s.raise_faults_prefix k op info

theorem ring_faults_prefix {s t : State} {i : Instr} {b : Byte} (hb : i.instanceNo = some b) (h : exec i s = .next t) :
    s.faults <+: t.faults := by
  cases exec_ring_result hb h with
  | stopped op k info ht => exact ht ▸ s.stop_faults_prefix k op (some b) info
  | answered op x ht => exact ht ▸ List.prefix_rfl
  | produced op x r _ _ _ _ ht => exact ht ▸ List.prefix_rfl
  | consumed op x r _ _ _ _ _ ht => exact ht ▸ List.prefix_rfl

/-- DP_WRITE adds its state fault, then the unwritten cells; the other packet writes record nothing. -/
theorem packetWrite_faults_prefix {s t : State} {i : Instr} (hw : i.isPacketWrite = true) (h : exec i s = .next t) :
    s.faults <+: t.faults := by
  cases i with
  | dpWrite =>
    obtain ⟨_, _, _, rfl, _, ht⟩ := exec_dpWrite_cases h
    rw [ht]
    exact (writeFault_faults_prefix s).trans (payload_faults_prefix _ _ _)
  | tpWrite | fstWrite | lufWrite =>
    obtain ⟨_, _, ht⟩ := emitPacket_reply_cases (Host.Outcome.next.inj h).symm
    rw [ht]
  | rbPush | rbPushN | rbCount | rbSpace | rbPeek | rbPop | rbSkip | rbClear | seqReset | dpConfig | dpReset | dpAdd
  | dpAdvance | pktD | pktM | pktN | pktF | pktL => cases hw

theorem exec_faults_prefix {s t : State} {i : Instr} (h : exec i s = .next t) : s.faults <+: t.faults := by
  cases rowFamily i with
  | ring b hb => exact ring_faults_prefix hb h
  | packetWrite hw => exact packetWrite_faults_prefix hw h
  | seqReset hi => subst hi; cases h; exact List.prefix_rfl
  | dpConfig n hi =>
    subst hi
    obtain ⟨_, rfl⟩ | ⟨_, _, rfl⟩ := exec_dpConfig_cases h
    · exact s.stop_faults_prefix _ _ _ _
    · exact List.prefix_rfl
  | dpReset hi => subst hi; cases h; exact List.prefix_rfl
  | dpAdd ch v hi =>
    subst hi
    obtain ⟨_, rfl⟩ | ⟨_, _, rfl⟩ | ⟨_, _, _, rfl⟩ := exec_dpAdd_cases h
    · exact s.stop_faults_prefix _ _ _ _
    · exact List.prefix_rfl
    · exact List.prefix_rfl
  | dpAdvance hi =>
    subst hi
    obtain ⟨_, rfl⟩ | ⟨_, rfl⟩ := exec_dpAdvance_cases h
    · exact s.stop_faults_prefix _ _ _ _
    · exact List.prefix_rfl
  | wire hc =>
    obtain ⟨m, n, q, hr⟩ := exec_wire_eq hc
    cases (hr s).symm.trans h
    exact List.prefix_rfl

/-- Settles O50: an instruction, a reserved opcode and the use of read data only add records, whole-block reset and
undecodable bytes leave FAULTS as it is. -/
theorem faultsAreNeverCleared : Obligations.FaultsAreNeverCleared := by
  unfold Obligations.FaultsAreNeverCleared
  intro s t h
  obtain ⟨_, ⟨_, rfl⟩ | ⟨_, q, _, ⟨ctx, _, i, _, _, _, hx⟩ | ⟨ctx, _, op, _, _, _, rfl⟩ | ⟨_, rfl⟩ |
    ⟨ctx, b, _, _, rfl⟩ | ⟨_, _, i, _, _, hx⟩ | ⟨_, _, _, _, rfl⟩⟩⟩ := step_cases h
  · exact List.prefix_rfl
  · exact exec_faults_prefix (s := { s with port := q, ctx := ctx }) hx
  · exact State.stop_faults_prefix { s with port := q, ctx := ctx } _ _ _ _
  · exact List.prefix_rfl
  · obtain ⟨_, hprefix, _⟩ := useData_frame { s with port := q, ctx := ctx } b
    exact hprefix
  · exact exec_faults_prefix (s := { s with port := q }) hx
  · exact List.prefix_rfl

/-! ## The use of read data -/

/-- The use of read data looks at the context's last read of that ring buffer, whatever else was answered since. -/
theorem useData_of_lastRead {s : State} {b op : Byte} {ok : Bool} {d : Option Elem} {before after : List Reply}
    (hop : op = Opcode.rbPeek.byte ∨ op = Opcode.rbPop.byte)
    (hs : s.replies = before ++ ⟨s.ctx, op, some b, .item ok d⟩ :: after)
    (hafter : ∀ r ∈ after, r.isReadOf s.ctx b = false) :
    s.useData b = if ok then s else s.raise .emptyRead op (.inst b) := by
  have hread : Reply.isReadOf ⟨s.ctx, op, some b, .item ok d⟩ s.ctx b = true := by
    simpa [Reply.isReadOf] using hop
  have hnone : after.reverse.find? (fun r => r.isReadOf s.ctx b) = none := by
    simpa using hafter
  have hfind : s.replies.reverse.find? (fun r => r.isReadOf s.ctx b) = some ⟨s.ctx, op, some b, .item ok d⟩ := by
    rw [hs, List.reverse_append, List.reverse_cons, List.append_assoc, List.find?_append, hnone, Option.none_or]
    exact List.find?_cons_of_pos hread
  unfold State.useData
  rw [hfind]
  cases ok <;> rfl

/-- Settles O53: the last read decides between one record more and no change at all. -/
theorem emptyReadIsRecorded : Obligations.EmptyReadIsRecorded := by
  unfold Obligations.EmptyReadIsRecorded
  intro s ctx b op ok d before after q hw hp hc hop hs hafter
  have huse := useData_of_lastRead (s := { s with port := q, ctx := ctx }) hop hs hafter
  refine ⟨_, step_useData hw hp hc, ?_⟩
  rw [huse]
  cases ok with
  | true => exact ⟨⟨rfl, ⟨rfl, rfl, rfl, rfl⟩, rfl, rfl⟩, rfl, rfl, nofun, fun _ => rfl⟩
  | false =>
    exact ⟨⟨rfl, ⟨rfl, rfl, rfl, rfl⟩, rfl, rfl⟩, rfl, rfl,
      fun _ => State.mem_raise_faults { s with port := q, ctx := ctx } .emptyRead op (.inst b), nofun⟩

end Sys2Proof.Machine
end

section
/-! PROOFS. Runs (60_exceptions R202, R213, R214): a record stays to the end of a run, and what a run of commands
answers. -/

namespace Sys2Proof.Machine

/-! ## The steps of a run -/

theorem run_succ_of_step {s u : State} (h : step s = .next u) (k : Nat) :
    Sys2Proof.core.run (k + 1) s = Sys2Proof.core.run k u := by
  have hstep : Sys2Proof.core.step s = .next u := h
  simp only [Host.Core.run, hstep]

/-- A run that completes is its first step, which completes, and the run from there. -/
theorem run_succ_cases {k : Nat} {s t : State} (h : Sys2Proof.core.run (k + 1) s = .next t) :
    ∃ u : State, step s = .next u ∧ Sys2Proof.core.run k u = .next t := by
  simp only [Host.Core.run] at h
  split at h
  · next u hu => exact ⟨u, hu, h⟩
  · cases h
  · cases h

/-- A run that completes passes through every number of its steps. -/
theorem run_add_cases {j k : Nat} {s t : State} (h : Sys2Proof.core.run (j + k) s = .next t) :
    ∃ u : State, Sys2Proof.core.run j s = .next u ∧ Sys2Proof.core.run k u = .next t := by
  induction j generalizing s with
  | zero => exact ⟨s, rfl, Nat.zero_add k ▸ h⟩
  | succ j ih =>
    rw [Nat.succ_add] at h
    obtain ⟨v, hv, hrest⟩ := run_succ_cases h
    obtain ⟨u, hu, ht⟩ := ih hrest
    exact ⟨u, (run_succ_of_step hv j).trans hu, ht⟩

theorem run_faults_prefix {k : Nat} {s t : State} (h : Sys2Proof.core.run k s = .next t) : s.faults <+: t.faults := by
  induction k generalizing s with
  | zero => cases h; exact List.prefix_rfl
  | succ k ih =>
    obtain ⟨u, hu, hrest⟩ := run_succ_cases h
    exact (faultsAreNeverCleared s u hu).trans (ih hrest)

/-! ## Runs with a record -/

/-- FAULTS that is empty after it has only grown was empty before. -/
theorem State.InContract.of_prefix {s t : State} (ht : t.InContract) (h : s.faults <+: t.faults) : s.InContract :=
  List.prefix_nil.1 (ht ▸ h)

/-- Settles O57: FAULTS only grows along a run, so where it is empty at the end it was empty at every step. -/
theorem faultedRunsAreNeverFinal : Obligations.FaultedRunsAreNeverFinal := by
  unfold Obligations.FaultedRunsAreNeverFinal
  refine ⟨fun k s t hs h => ?_, fun j k s t h hfinal => ?_⟩
  · have hnot : ¬ t.Final := fun hfinal => hs (hfinal.2.of_prefix (run_faults_prefix h))
    exact ⟨hnot, State.observe_eq_none_iff.2 hnot⟩
  · obtain ⟨u, hu, hrest⟩ := run_add_cases h
    exact ⟨u, hu, hfinal.2.of_prefix (run_faults_prefix hrest)⟩

/-! ## A command that is not stopped answers a value -/

theorem State.stop_not_inContract (s : State) (k : FaultKind) (op : Byte) (inst : Option Byte) (info : FaultInfo) :
    ¬ (s.stop k op inst info).InContract := fun h =>
  List.ne_nil_of_mem ((s.mem_raise_faults k op info _).2 (.inr rfl)) h

/-- What a ring-buffer command answers once RBCheck has passed carries a value or is an acknowledgement. -/
theorem ringEffect_ne_noValue {i : Instr} {p : RBParams} {r r' : RB} {x : Response}
    (h : ringEffect i p r = some (r', x)) : x ≠ .noValue := by
  rintro rfl
  cases i with
  | rbPush | rbPeek | rbPop | rbSkip =>
    simp only [ringEffect] at h
    split at h <;> simp at h
  | rbPushN => simp [ringEffect, Option.bind_eq_some_iff] at h
  | rbCount | rbSpace | rbClear | seqReset | dpConfig | dpReset | dpAdd | dpAdvance | dpWrite | tpWrite | fstWrite
  | lufWrite | pktD | pktM | pktN | pktF | pktL => simp [ringEffect] at h

/-- The two ways a command under `op` ends: its fault stops it, or it gives a response of its row's form (30_encoding
R97). -/
inductive CommandEnd (s t : State) (op : Opcode) (inst : Option Byte) : Prop
  | stopped (k : FaultKind) (info : FaultInfo) (ht : t = s.stop k op.byte inst info)
  | answered (r : Response) (hr : r ≠ .noValue) (h : Replied s t op inst r)

theorem ring_commandEnd {s t : State} {i : Instr} {b : Byte} {op : Opcode} (hb : i.instanceNo = some b)
    (hop : i.opcode = some op) (h : exec i s = .next t) : CommandEnd s t op (some b) := by
  rw [exec_ring_eq_opcode hb hop, ringCommand] at h
  split at h
  · next k info _ => cases h; exact .stopped k info rfl
  · split at h
    · cases h
    · next r x he => cases h; exact .answered x (ringEffect_ne_noValue he) rfl

theorem packetWrite_instanceNo {i : Instr} (hw : i.isPacketWrite = true) : i.instanceNo = none := by
  cases i with
  | dpWrite | tpWrite | fstWrite | lufWrite => rfl
  | rbPush | rbPushN | rbCount | rbSpace | rbPeek | rbPop | rbSkip | rbClear | seqReset | dpConfig | dpReset | dpAdd
  | dpAdvance | pktD | pktM | pktN | pktF | pktL => cases hw

/-- Every command is stopped or answers. -/
theorem exec_commandEnd {s t : State} {i : Instr} {op : Opcode} (hop : i.opcode = some op) (h : exec i s = .next t) :
    CommandEnd s t op i.instanceNo := by
  cases rowFamily i with
  | ring b hb => exact hb ▸ ring_commandEnd hb hop h
  | packetWrite hw =>
    obtain ⟨op', bs, hop', hp⟩ := exec_packetWrite hw h
    cases hop.symm.trans hop'
    rw [packetWrite_instanceNo hw]
    exact .answered (.total bs.length) nofun hp.replied
  | seqReset hi => subst hi; cases hop; cases h; exact .answered .ack nofun rfl
  | dpConfig n hi =>
    subst hi; cases hop
    obtain ⟨_, ht⟩ | ⟨_, _, rfl⟩ := exec_dpConfig_cases h
    · exact .stopped _ _ ht
    · exact .answered .ack nofun rfl
  | dpReset hi => subst hi; cases hop; cases h; exact .answered .ack nofun rfl
  | dpAdd ch v hi =>
    subst hi; cases hop
    obtain ⟨_, ht⟩ | ⟨_, _, rfl⟩ | ⟨_, _, _, rfl⟩ := exec_dpAdd_cases h
    · exact .stopped _ _ ht
    · exact .answered (.ok false) nofun rfl
    · exact .answered (.ok true) nofun rfl
  | dpAdvance hi =>
    subst hi; cases hop
    obtain ⟨_, ht⟩ | ⟨_, rfl⟩ := exec_dpAdvance_cases h
    · exact .stopped _ _ ht
    · exact .answered .ack nofun rfl
  | wire hc => cases hop.symm.trans hc

/-- A command after which FAULTS is empty was not stopped. -/
theorem exec_inContract_replied {s t : State} {i : Instr} {op : Opcode} (hop : i.opcode = some op)
    (h : exec i s = .next t) (ht : t.InContract) : ∃ r, r ≠ .noValue ∧ Replied s t op i.instanceNo r := by
  cases exec_commandEnd hop h with
  | stopped k info hstop => exact absurd (hstop ▸ ht) (s.stop_not_inContract k op.byte i.instanceNo info)
  | answered r hr hrep => exact ⟨r, hr, hrep⟩

/-! ## Runs of commands -/

/-- A run of these commands from `s` to `t`: each is executed for its context, the commands after it waiting. -/
inductive CommandRun : List (Ctx × Instr) → State → State → Prop
  | nil {s : State} (hp : s.port = []) : CommandRun [] s s
  | cons {s u t : State} {ctx : Ctx} {i : Instr} {cmds : List (Ctx × Instr)} (hc : i.isCommand = true)
      (h : exec i { s with port := commandRequests s.cfg cmds, ctx := ctx } = .next u) (hrest : CommandRun cmds u t) :
      CommandRun ((ctx, i) :: cmds) s t

/-- The steps from a legal state with well-formed commands at its port are a run of these commands (30_encoding R94,
60_exceptions R213). -/
theorem run_commandRun {cmds : List (Ctx × Instr)} {s : State} (hs : s.Inv) (hp : s.port = commandRequests s.cfg cmds)
    (hcmds : ∀ x ∈ cmds, x.1 ∈ s.cfg.ctxs ∧ x.2.isCommand = true ∧ x.2.wellFormed s.cfg = true) :
    ∃ t : State, Sys2Proof.core.run cmds.length s = .next t ∧ CommandRun cmds s t := by
  induction cmds generalizing s with
  | nil => exact ⟨s, rfl, .nil hp⟩
  | cons x cmds ih =>
    obtain ⟨ctx, i⟩ := x
    obtain ⟨⟨hctx, hc, hwf⟩, hrest⟩ := List.forall_mem_cons.1 hcmds
    obtain ⟨u, hu⟩ := exec_completes (s := { s with port := commandRequests s.cfg cmds, ctx := ctx }) hs i
    have hstep : step s = .next u :=
      (stepRunsTheDecodedCommand s ctx _ _ i hs.1 hp hctx (commandFramesRoundTrip s.cfg i hc hwf)).trans hu
    obtain ⟨hcfg, hport, _⟩ := exec_command_sameAround hc hu
    have hcfg' : u.cfg = s.cfg := hcfg
    obtain ⟨t, ht, hrun⟩ := ih (stepKeepsLegalStates s u hs hstep) (hcfg'.symm ▸ hport) (hcfg'.symm ▸ hrest)
    exact ⟨t, (run_succ_of_step hstep _).trans ht, .cons hc hu hrun⟩

theorem CommandRun.port {cmds : List (Ctx × Instr)} {s t : State} (h : CommandRun cmds s t) : t.port = [] := by
  induction h with
  | nil hp => exact hp
  | cons _ _ _ ih => exact ih

theorem CommandRun.faults_prefix {cmds : List (Ctx × Instr)} {s t : State} (h : CommandRun cmds s t) :
    s.faults <+: t.faults := by
  induction h with
  | nil => exact List.prefix_rfl
  | cons _ hx _ ih => exact (exec_faults_prefix hx).trans ih

/-- A run after which FAULTS is empty gave one response for each command, in order, none without a value (30_encoding
R97). -/
theorem CommandRun.replies {cmds : List (Ctx × Instr)} {s t : State} (h : CommandRun cmds s t) (ht : t.InContract) :
    ∃ rs, t.replies = s.replies ++ rs ∧ (∀ r ∈ rs, r.resp ≠ .noValue) ∧
      rs.map (fun r => (r.ctx, some r.op, r.inst)) =
        cmds.map (fun x => (x.1, x.2.opcode.map Opcode.byte, x.2.instanceNo)) := by
  induction h with
  | nil => exact ⟨[], (List.append_nil _).symm, nofun, rfl⟩
  | @cons s u t ctx i cmds hc hx hrest ih =>
    obtain ⟨op, hop⟩ := Option.isSome_iff_exists.1 hc
    obtain ⟨r, hr, hrep⟩ := exec_inContract_replied hop hx (ht.of_prefix hrest.faults_prefix)
    obtain ⟨rs, hreplies, hvalues, hmap⟩ := ih ht
    refine ⟨⟨ctx, op.byte, i.instanceNo, r⟩ :: rs, ?_, List.forall_mem_cons.2 ⟨hr, hvalues⟩, ?_⟩
    · rw [hreplies, hrep, List.append_assoc, List.singleton_append]
    · rw [List.map_cons, List.map_cons, hmap, hop, Option.map_some]

/-- SEQ_RESET apart, an instruction advances `SEQ` by one if it is a packet write and by nothing if it is none. -/
theorem exec_seq_count {s t : State} {i : Instr} (hi : i ≠ .seqReset) (h : exec i s = .next t) :
    t.seq.toNat = (s.seq.toNat + if i.isPacketWrite then 1 else 0) % 256 := by
  obtain ⟨hwrite, _, hother⟩ := sequenceCounterWriters s t i h
  cases hw : i.isPacketWrite with
  | true => exact hwrite hw
  | false => rw [hother hw hi]; exact (Nat.mod_eq_of_lt s.seq.isLt).symm

/-- Without SEQ_RESET, `SEQ` counts the packet writes of a run (41_sequencer R147). -/
theorem CommandRun.seq {cmds : List (Ctx × Instr)} {s t : State} (h : CommandRun cmds s t)
    (hreset : ∀ x ∈ cmds, x.2 ≠ .seqReset) :
    t.seq.toNat = (s.seq.toNat + (cmds.filter fun x => x.2.isPacketWrite).length) % 256 := by
  induction h with
  | @nil s => exact (Nat.mod_eq_of_lt s.seq.isLt).symm
  | @cons s u t ctx i cmds hc hx _ ih =>
    obtain ⟨hi, hothers⟩ := List.forall_mem_cons.1 hreset
    have hfirst := exec_seq_count hi hx
    have hrest := ih hothers
    rw [List.filter_cons]
    cases hw : i.isPacketWrite with
    | true =>
      simp only [hw, if_true, List.length_cons] at hfirst ⊢
      omega
    | false =>
      simp only [hw, Bool.false_eq_true, if_false] at hfirst ⊢
      omega

/-- Settles O58: the steps are a run of the commands, which ends with the port empty; FAULTS alone decides whether the
last state is final. -/
theorem finalRunsAreObserved : Obligations.FinalRunsAreObserved := by
  unfold Obligations.FinalRunsAreObserved
  intro s cmds hs _ hp hcmds
  obtain ⟨t, hrun, hcommands⟩ := run_commandRun hs hp hcmds
  refine ⟨t, hrun, fun hfaulted => State.observe_eq_none_iff.2 fun hfinal => hfaulted hfinal.2, fun ht => ?_⟩
  obtain ⟨rs, hreplies, hvalues, hmap⟩ := hcommands.replies ht
  exact ⟨_, rs, State.observe_of_final ⟨hcommands.port, ht⟩, rfl, rfl, hreplies, hvalues, hmap, hcommands.seq⟩

end Sys2Proof.Machine
end

section
/-! PROOFS. The state after reset (70_reset R231): what whole-block reset leaves of any state, and that it is legal. -/

namespace Sys2Proof.Machine

/-- After whole-block reset every ring buffer is in its reset state (70_reset R231). -/
theorem State.wholeReset_rb (s : State) (b : Nat) : s.wholeReset.rb b = RB.initial := by
  simp [State.rb, List.getD_eq_getElem?_getD]

/-- After whole-block reset no cell of `DP.S` holds a value (70_reset R231). -/
theorem State.wholeReset_dpRead (s : State) (p c : Nat) : s.wholeReset.dpRead p c = none := by
  simp [State.dpRead]

/-- A ring buffer after reset has count 0, whatever its capacity (70_reset R231). -/
theorem RB.occupied_initial (C : Nat) : occupied C RB.initial = 0 := by
  simp [occupied, RB.initial]

/-- A ring buffer after reset has space `C - 1` (70_reset R231). -/
theorem RB.freeSlots_initial (C : Nat) : freeSlots C RB.initial = C - 1 := by
  simp [freeSlots, RB.occupied_initial]

/-- Settles O10: the step is `State.wholeReset`, which makes every ring buffer `RB.initial`. -/
theorem wholeBlockResetState : Obligations.WholeBlockResetState := by
  unfold Obligations.WholeBlockResetState
  intro s q hw hp
  refine ⟨_, step_reset hw hp, List.length_map _, fun b _ => ?_, rfl, rfl, rfl, rfl,
    State.wholeReset_dpRead _, rfl, rfl, rfl⟩
  rw [State.wholeReset_rb]
  exact ⟨rfl, rfl, RB.occupied_initial _, RB.freeSlots_initial _, Memory.read_nil⟩

/-- Whole-block reset makes any state of a configuration legal; of the state before it only FAULTS must be a set, which
it does not touch (70_reset R231, 10_state R36). -/
theorem State.wholeReset_inv {s : State} (hwf : s.cfg.WF) (hfaults : s.faults.Nodup) : s.wholeReset.Inv := by
  have ⟨_, _, hparams, _, _, _, _, hppp, hppp'⟩ := hwf
  refine ⟨hwf, List.length_map _, fun b hb => ?_, ⟨⟨hppp, hppp'⟩, Nat.zero_le _, List.Pairwise.nil, nofun⟩, hfaults⟩
  rw [State.wholeReset_rb]
  exact RB.initial_legal (hparams _ (State.par_mem hb)).1

/-- Whole-block reset finds nothing to change in the state after reset. -/
theorem State.resetOf_wholeReset (c : Config) : (State.resetOf c).wholeReset = State.resetOf c := rfl

/-- The state after reset is legal for every configuration (00_scope R10). -/
theorem State.resetOf_inv {c : Config} (hwf : c.WF) : (State.resetOf c).Inv :=
  State.resetOf_wholeReset c ▸ State.wholeReset_inv (s := State.resetOf c) hwf List.nodup_nil

/-- The parameters of the state after reset are a configuration, whatever the magic bytes and the byte order (log 1, 2). -/
theorem Config.deployment_wf : Config.deployment.WF := by decide

/-- Settles O11: the state after reset is its own whole-block reset, which is legal for every configuration, the model's
own among them. -/
theorem resetStateIsLegal : Obligations.ResetStateIsLegal := by
  unfold Obligations.ResetStateIsLegal
  exact ⟨State.resetOf_inv Config.deployment_wf, fun _ => State.resetOf_inv⟩

end Sys2Proof.Machine
end
